-- ==== Sys2Proof/Word.lean ====
section
/-! DEFINITION. The bit-vector types of the Maua-V CORE (00_scope R7, 30_encoding R73). Only names: every
computation a test could show wrong stands in Decode.lean or under Machine/. -/

namespace Sys2Proof

/-- A register, a memory word, a literal or an ALU operand: W = 16 bits, unsigned (R7, R8, R20, R25). -/
abbrev Word := BitVec 16

/-- An instruction word: ILEN = 32 bits (R7, R89). -/
abbrev IWord := BitVec 32

/-- The ALU result register's value: RW = 32 bits (R7, R33). -/
abbrev AluResult := BitVec 32

/-- A register address field: RAW = 5 bits (R7, R73). -/
abbrev RegAddr := BitVec 5

/-- A memory address field: MAW = 8 bits (R7, R73). -/
abbrev MemAddr := BitVec 8

/-- An ALU sub-opcode field: AOPW = 4 bits (R7, R73). -/
abbrev AluCode := BitVec 4

/-- A class opcode field: OPW = 3 bits (R7, R71). -/
abbrev ClassCode := BitVec 3

end Sys2Proof
end

