-- ==== Sys2Proof/Config.lean ====
section
/-! DEFINITION. The parameters the spec leaves OPEN (00_scope R7; 92_eei_decisions D3, D4, D24) and the bounds it sets.
`Sys2Proof.Machine.State.resetWith` takes N, MEM_INIT and PROG as arguments; the values below are only what
`Sys2Proof.Machine.State.reset`, which takes none, is built with. The other parameters of R7 (W, RW, 32 registers, the
encodings, the step counts) are fixed by the spec and stand in the types. -/

namespace Sys2Proof

/-- The upper bound of N: an 8-bit address field reaches 256 words (R7, R25, D3). -/
abbrev Config.maxMemWords : Nat := 256

/-- N for `State.reset`. DESIGN CHOICE, unsafe (log entry 2): the spec leaves N OPEN with 1 ≤ N ≤ 256; 16 is the value
its test vectors use (R7). -/
def Config.memWords : Nat := 16

/-- MEM_INIT for `State.reset`. DESIGN CHOICE, unsafe (log entry 3): the spec leaves MEM_INIT OPEN; all zeros is what its
test vectors use (R7). -/
def Config.memInit (_ : Nat) : Word := 0

/-- PROG for `State.reset`. DESIGN CHOICE, unsafe (log entry 4): the spec leaves PROG OPEN; no program is invented. -/
def Config.program : List IWord := []

end Sys2Proof
end

