-- ==== Sys2Proof/Syntax.lean ====
section
/-! DEFINITION. The instructions: one constructor per row of spec/opcode_table.json, operands as the fields of its format
(30_encoding R74 to R81), in the order of the fields in the word. Filler bits are no operand (R82). -/

namespace Sys2Proof

/-- The eight instruction classes, in the order of their opcodes 0 to 7 (R71). -/
inductive InstrClass where
  | writeMemory
  | writeRegister
  | aluOperation
  | moveInMemory
  | moveInRegisters
  | registerToMemory
  | memoryToRegister
  | clearRegister
deriving DecidableEq, Repr

/-- The thirteen ALU operations, in the order of their sub-opcodes 0 to 12 (R84). -/
inductive AluOp where
  | add
  | sub
  | mul
  | div
  | mod
  | pow
  | and
  | or
  | nand
  | nor
  | xor
  | xnor
  | not
deriving DecidableEq, Repr

/-- An instruction with its fields. -/
inductive Instr where
  /-- WriteMemory, FMT_MW (R74, R140): `maddr`, `data`. -/
  | wmem (maddr : MemAddr) (data : Word)
  /-- WriteRegister, FMT_RW (R75, R141): `rd`, `data`. -/
  | wreg (rd : RegAddr) (data : Word)
  /-- ALUOperation, aluop 0 (R76, R162). -/
  | add (rs1 rs2 rd : RegAddr)
  /-- ALUOperation, aluop 1 (R76, R163). -/
  | sub (rs1 rs2 rd : RegAddr)
  /-- ALUOperation, aluop 2 (R76, R164). -/
  | mul (rs1 rs2 rd : RegAddr)
  /-- ALUOperation, aluop 3 (R76, R165). -/
  | div (rs1 rs2 rd : RegAddr)
  /-- ALUOperation, aluop 4 (R76, R166). -/
  | mod (rs1 rs2 rd : RegAddr)
  /-- ALUOperation, aluop 5 (R76, R167). -/
  | pow (rs1 rs2 rd : RegAddr)
  /-- ALUOperation, aluop 6 (R76, R168). -/
  | and (rs1 rs2 rd : RegAddr)
  /-- ALUOperation, aluop 7 (R76, R169). -/
  | or (rs1 rs2 rd : RegAddr)
  /-- ALUOperation, aluop 8 (R76, R170). -/
  | nand (rs1 rs2 rd : RegAddr)
  /-- ALUOperation, aluop 9 (R76, R171). -/
  | nor (rs1 rs2 rd : RegAddr)
  /-- ALUOperation, aluop 10 (R76, R172). -/
  | xor (rs1 rs2 rd : RegAddr)
  /-- ALUOperation, aluop 11 (R76, R173). -/
  | xnor (rs1 rs2 rd : RegAddr)
  /-- ALUOperation, aluop 12 (R76, R174). Unary, yet the word has an `rs2` field, and it is read. -/
  | not (rs1 rs2 rd : RegAddr)
  /-- MoveInMemory, FMT_M3 (R77, R200). -/
  | rotm (ma mb mc : MemAddr)
  /-- MoveInRegisters, FMT_R3 (R78, R201). -/
  | rotr (ra rb rc : RegAddr)
  /-- RegisterToMemory, FMT_RM (R79, R202). -/
  | r2m (rs : RegAddr) (maddr : MemAddr)
  /-- MemoryToRegister, FMT_MR (R80, R203). -/
  | m2r (maddr : MemAddr) (rd : RegAddr)
  /-- ClearRegister, FMT_R (R81, R142). -/
  | clr (rd : RegAddr)
deriving DecidableEq, Repr

/-- The fields a report can name (R231, R232; the names are those of R74 to R80). -/
inductive Field where
  | maddr
  | ma
  | mb
  | mc
  | aluop
deriving DecidableEq, Repr

end Sys2Proof
end

