-- ==== Sys2Proof/WellFormed.lean ====
section
/-! DEFINITION. Which instructions a CORE with N memory words can execute: every memory address field is below N
(30_encoding R86, 20_memory R58). A register field cannot be out of range (R73), and a literal is any word (R83). -/

namespace Sys2Proof

/-- Every memory address field of `i` is below `n` (R86). -/
def Instr.wellFormed (n : Nat) (i : Instr) : Bool :=
  match i with
  | .wmem a _ => decide (a.toNat < n)
  | .wreg _ _ => true
  | .add _ _ _ => true
  | .sub _ _ _ => true
  | .mul _ _ _ => true
  | .div _ _ _ => true
  | .mod _ _ _ => true
  | .pow _ _ _ => true
  | .and _ _ _ => true
  | .or _ _ _ => true
  | .nand _ _ _ => true
  | .nor _ _ _ => true
  | .xor _ _ _ => true
  | .xnor _ _ _ => true
  | .not _ _ _ => true
  | .rotm a b c => decide (a.toNat < n) && decide (b.toNat < n) && decide (c.toNat < n)
  | .rotr _ _ _ => true
  | .r2m _ a => decide (a.toNat < n)
  | .m2r a _ => decide (a.toNat < n)
  | .clr _ => true

end Sys2Proof
end

