-- ==== Sys2Proof/Decode.lean ====
section
/-! DEFINITION. The instruction decoder of 30_encoding (R70 to R88): class and sub-opcode selection, field extraction, the
range check on memory addresses, the verdict; then the encoder. Both are written from the format tables R74 to R81. -/

namespace Sys2Proof

/-! ### Fields -/

/-- The class opcode, `w[31:29]` (R71). -/
def opcodeField (w : IWord) : ClassCode := w.extractLsb' 29 3

/-- The ALU sub-opcode, `w[13:10]` (R76). -/
def aluopField (w : IWord) : AluCode := w.extractLsb' 10 4

/-- The literal, `w[15:0]` (R74, R75). It is used as a word unchanged (R83). -/
def dataField (w : IWord) : Word := w.extractLsb' 0 16

/-- The register field at `w[28:24]`: rd, rs1, ra or rs (R75, R76, R78, R79, R81). -/
def regField28 (w : IWord) : RegAddr := w.extractLsb' 24 5

/-- The register field at `w[23:19]`: rs2 or rb (R76, R78). -/
def regField23 (w : IWord) : RegAddr := w.extractLsb' 19 5

/-- The register field at `w[18:14]`: rd or rc (R76, R78). -/
def regField18 (w : IWord) : RegAddr := w.extractLsb' 14 5

/-- The register field at `w[20:16]`: rd of FMT_MR (R80). -/
def regField20 (w : IWord) : RegAddr := w.extractLsb' 16 5

/-- The memory field at `w[28:21]`: maddr or ma (R74, R77, R80). -/
def memField28 (w : IWord) : MemAddr := w.extractLsb' 21 8

/-- The memory field at `w[20:13]`: mb (R77). -/
def memField20 (w : IWord) : MemAddr := w.extractLsb' 13 8

/-- The memory field at `w[12:5]`: mc (R77). -/
def memField12 (w : IWord) : MemAddr := w.extractLsb' 5 8

/-- The memory field at `w[23:16]`: maddr of FMT_RM (R79). -/
def memField23 (w : IWord) : MemAddr := w.extractLsb' 16 8

/-! ### Class and sub-opcode -/

/-- The class a class opcode selects. All eight values are assigned (R71). -/
def InstrClass.ofCode (c : ClassCode) : InstrClass :=
  match (c.toFin : Fin 8) with
  | 0 => .writeMemory
  | 1 => .writeRegister
  | 2 => .aluOperation
  | 3 => .moveInMemory
  | 4 => .moveInRegisters
  | 5 => .registerToMemory
  | 6 => .memoryToRegister
  | 7 => .clearRegister

/-- The class opcode of a class (R71). -/
def InstrClass.code : InstrClass → ClassCode
  | .writeMemory => 0b000#3
  | .writeRegister => 0b001#3
  | .aluOperation => 0b010#3
  | .moveInMemory => 0b011#3
  | .moveInRegisters => 0b100#3
  | .registerToMemory => 0b101#3
  | .memoryToRegister => 0b110#3
  | .clearRegister => 0b111#3

/-- The ALU operations in the order of their sub-opcodes 0 to 12 (R84). -/
def aluOps : List AluOp :=
  [.add, .sub, .mul, .div, .mod, .pow, .and, .or, .nand, .nor, .xor, .xnor, .not]

/-- The ALU operation a sub-opcode selects; 13, 14 and 15 select none (R84, R85). -/
def AluOp.ofCode (c : AluCode) : Option AluOp := aluOps[c.toNat]?

/-- The sub-opcode of an ALU operation (R84). -/
def AluOp.code : AluOp → AluCode
  | .add => 0#4
  | .sub => 1#4
  | .mul => 2#4
  | .div => 3#4
  | .mod => 4#4
  | .pow => 5#4
  | .and => 6#4
  | .or => 7#4
  | .nand => 8#4
  | .nor => 9#4
  | .xor => 10#4
  | .xnor => 11#4
  | .not => 12#4

/-- The instruction of an ALU operation on `rs1`, `rs2`, `rd` (R84). -/
def AluOp.instr (op : AluOp) (rs1 rs2 rd : RegAddr) : Instr :=
  match op with
  | .add => .add rs1 rs2 rd
  | .sub => .sub rs1 rs2 rd
  | .mul => .mul rs1 rs2 rd
  | .div => .div rs1 rs2 rd
  | .mod => .mod rs1 rs2 rd
  | .pow => .pow rs1 rs2 rd
  | .and => .and rs1 rs2 rd
  | .or => .or rs1 rs2 rd
  | .nand => .nand rs1 rs2 rd
  | .nor => .nor rs1 rs2 rd
  | .xor => .xor rs1 rs2 rd
  | .xnor => .xnor rs1 rs2 rd
  | .not => .not rs1 rs2 rd

/-- The class of an instruction (R71, R84). -/
def Instr.cls : Instr → InstrClass
  | .wmem _ _ => .writeMemory
  | .wreg _ _ => .writeRegister
  | .add _ _ _ => .aluOperation
  | .sub _ _ _ => .aluOperation
  | .mul _ _ _ => .aluOperation
  | .div _ _ _ => .aluOperation
  | .mod _ _ _ => .aluOperation
  | .pow _ _ _ => .aluOperation
  | .and _ _ _ => .aluOperation
  | .or _ _ _ => .aluOperation
  | .nand _ _ _ => .aluOperation
  | .nor _ _ _ => .aluOperation
  | .xor _ _ _ => .aluOperation
  | .xnor _ _ _ => .aluOperation
  | .not _ _ _ => .aluOperation
  | .rotm _ _ _ => .moveInMemory
  | .rotr _ _ _ => .moveInRegisters
  | .r2m _ _ => .registerToMemory
  | .m2r _ _ => .memoryToRegister
  | .clr _ => .clearRegister

/-! ### Decoding -/

/-- Class, fields and sub-opcode of a word, before the range check; `none` exactly for an ALU word whose sub-opcode selects
no operation (R74 to R81, R84, R85, R87). Filler bits are not read (R82). -/
def decodeFields (w : IWord) : Option Instr :=
  match InstrClass.ofCode (opcodeField w) with
  | .writeMemory => some (.wmem (memField28 w) (dataField w))
  | .writeRegister => some (.wreg (regField28 w) (dataField w))
  | .aluOperation =>
    (AluOp.ofCode (aluopField w)).map fun op => op.instr (regField28 w) (regField23 w) (regField18 w)
  | .moveInMemory => some (.rotm (memField28 w) (memField20 w) (memField12 w))
  | .moveInRegisters => some (.rotr (regField28 w) (regField23 w) (regField18 w))
  | .registerToMemory => some (.r2m (regField28 w) (memField23 w))
  | .memoryToRegister => some (.m2r (memField28 w) (regField20 w))
  | .clearRegister => some (.clr (regField28 w))

/-- The memory address fields of an instruction, in the order R87 checks them. -/
def Instr.addrFields : Instr → List (Field × MemAddr)
  | .wmem a _ => [(.maddr, a)]
  | .wreg _ _ => []
  | .add _ _ _ => []
  | .sub _ _ _ => []
  | .mul _ _ _ => []
  | .div _ _ _ => []
  | .mod _ _ _ => []
  | .pow _ _ _ => []
  | .and _ _ _ => []
  | .or _ _ _ => []
  | .nand _ _ _ => []
  | .nor _ _ _ => []
  | .xor _ _ _ => []
  | .xnor _ _ _ => []
  | .not _ _ _ => []
  | .rotm a b c => [(.ma, a), (.mb, b), (.mc, c)]
  | .rotr _ _ _ => []
  | .r2m _ a => [(.maddr, a)]
  | .m2r a _ => [(.maddr, a)]
  | .clr _ => []

/-- The first field, in order, whose address is not below `n` (R86, R232, R237). -/
def firstOutOfRange (n : Nat) : List (Field × MemAddr) → Option (Field × MemAddr)
  | [] => none
  | (f, a) :: rest => if n ≤ a.toNat then some (f, a) else firstOutOfRange n rest

/-- The decoder's verdict on a word (R87). -/
inductive Verdict where
  /-- An instruction this CORE executes. -/
  | ok (i : Instr)
  /-- An ALU word whose sub-opcode is 13, 14 or 15 (R85). -/
  | unrecognizedOpcode (p : AluCode)
  /-- A memory address field that is not below N (R86). -/
  | addressOutOfRange (f : Field) (a : MemAddr)
deriving DecidableEq, Repr

/-- `Decode(w)` for a memory of `n` words: total, one verdict for each word (R87, R88). -/
def verdict (n : Nat) (w : IWord) : Verdict :=
  match decodeFields w with
  | none => .unrecognizedOpcode (aluopField w)
  | some i =>
    match firstOutOfRange n i.addrFields with
    | some (f, a) => .addressOutOfRange f a
    | none => .ok i

/-- The instruction the decoder reads from the word numbered as spec/opcode_table.json numbers its bits, its bits at and
above `nbits` taken as 0. Read at the largest memory (N = 256), where no address field is out of range (log entry 7). -/
def decodeTableWord (nbits w : Nat) : Option Instr :=
  match verdict Config.maxMemWords (BitVec.ofNat 32 (w % 2 ^ nbits)) with
  | .ok i => some i
  | .unrecognizedOpcode _ => none
  | .addressOutOfRange _ _ => none

/-! ### Encoding -/

/-- An ALU word: opcode, rs1, rs2, rd, sub-opcode, ten filler bits (R76, R160). -/
def encodeAlu (op : AluOp) (rs1 rs2 rd : RegAddr) : IWord :=
  InstrClass.aluOperation.code ++ rs1 ++ rs2 ++ rd ++ op.code ++ 0#10

/-- The word of an instruction, filler bits 0 (R74 to R82, R90). -/
def encode : Instr → IWord
  | .wmem a d => InstrClass.writeMemory.code ++ a ++ 0#5 ++ d
  | .wreg rd d => InstrClass.writeRegister.code ++ rd ++ 0#8 ++ d
  | .add rs1 rs2 rd => encodeAlu .add rs1 rs2 rd
  | .sub rs1 rs2 rd => encodeAlu .sub rs1 rs2 rd
  | .mul rs1 rs2 rd => encodeAlu .mul rs1 rs2 rd
  | .div rs1 rs2 rd => encodeAlu .div rs1 rs2 rd
  | .mod rs1 rs2 rd => encodeAlu .mod rs1 rs2 rd
  | .pow rs1 rs2 rd => encodeAlu .pow rs1 rs2 rd
  | .and rs1 rs2 rd => encodeAlu .and rs1 rs2 rd
  | .or rs1 rs2 rd => encodeAlu .or rs1 rs2 rd
  | .nand rs1 rs2 rd => encodeAlu .nand rs1 rs2 rd
  | .nor rs1 rs2 rd => encodeAlu .nor rs1 rs2 rd
  | .xor rs1 rs2 rd => encodeAlu .xor rs1 rs2 rd
  | .xnor rs1 rs2 rd => encodeAlu .xnor rs1 rs2 rd
  | .not rs1 rs2 rd => encodeAlu .not rs1 rs2 rd
  | .rotm a b c => InstrClass.moveInMemory.code ++ a ++ b ++ c ++ 0#5
  | .rotr a b c => InstrClass.moveInRegisters.code ++ a ++ b ++ c ++ 0#14
  | .r2m rs a => InstrClass.registerToMemory.code ++ rs ++ a ++ 0#16
  | .m2r a rd => InstrClass.memoryToRegister.code ++ a ++ rd ++ 0#16
  | .clr rd => InstrClass.clearRegister.code ++ rd ++ 0#24

/-- The filler bits of a class's format, as a mask: the bits the tables R74 to R81 call filler (R82). -/
def InstrClass.fillerMask : InstrClass → IWord
  | .writeMemory => 0x001F0000#32
  | .writeRegister => 0x00FF0000#32
  | .aluOperation => 0x000003FF#32
  | .moveInMemory => 0x0000001F#32
  | .moveInRegisters => 0x00003FFF#32
  | .registerToMemory => 0x0000FFFF#32
  | .memoryToRegister => 0x0000FFFF#32
  | .clearRegister => 0x00FFFFFF#32

/-- The format of a word: the class its opcode selects (R71, R72). -/
def formatOf (w : IWord) : InstrClass := InstrClass.ofCode (opcodeField w)

end Sys2Proof
end

