-- ==== Sys2Proof/Machine/Memory.lean ====
section
/-! DEFINITION. The data memory (10_state R25, R26; 20_memory R50 to R59): N words of W bits, word addresses 0 to N-1, plain
read/write storage. It is held as (address, word) pairs in ONE canonical form: addresses strictly rising, each below N, and
no pair equal to what an unlisted address reads as. The smallest unit the spec gives is the word (R51), so a pair holds a
word (log entry 5). -/

namespace Sys2Proof.Machine

/-- A memory word at a word address. -/
abbrev WordCell := Nat × Word

/-- The memory: `size` is N (R25), `cells` the listed words. -/
structure Memory where
  size : Nat
  cells : List WordCell
deriving DecidableEq, Repr

/-- What an unlisted address reads as (log entry 3). It only fixes the form: `Memory.ofInit` lists every other word of
MEM_INIT. -/
def Memory.unlisted : Word := 0

/-- The word a list of cells holds at an address. -/
def Memory.lookup : List WordCell → Nat → Word
  | [], _ => Memory.unlisted
  | (b, v) :: rest, a => if a = b then v else Memory.lookup rest a

/-- Memory word `a`, `M[a]` (R56). -/
def Memory.read (m : Memory) (a : Nat) : Word := Memory.lookup m.cells a

/-- A cell in front of a list, unless it holds what an unlisted address reads as. -/
def Memory.consCell (a : Nat) (v : Word) (cells : List WordCell) : List WordCell :=
  if v = Memory.unlisted then cells else (a, v) :: cells

/-- The list of cells after a write, in canonical form. -/
def Memory.place : List WordCell → Nat → Word → List WordCell
  | [], a, v => Memory.consCell a v []
  | (b, x) :: rest, a, v =>
    if a < b then Memory.consCell a v ((b, x) :: rest)
    else if a = b then Memory.consCell a v rest
    else (b, x) :: Memory.place rest a v

/-- The memory after `M[a] <- v` (R53, R55). -/
def Memory.write (m : Memory) (a : Nat) (v : Word) : Memory :=
  { m with cells := Memory.place m.cells a v }

/-- The cells of the words `f start`, …, `f (start + count - 1)`. -/
def Memory.initCells (f : Nat → Word) (start : Nat) : Nat → List WordCell
  | 0 => []
  | count + 1 => Memory.consCell start (f start) (Memory.initCells f (start + 1) count)

/-- A memory of `n` words with `M[a] = f a` (R26). -/
def Memory.ofInit (n : Nat) (f : Nat → Word) : Memory :=
  { size := n, cells := Memory.initCells f 0 n }

/-- The list is canonical with every address in `[lo, hi)`. -/
def Memory.cellsOk (lo hi : Nat) : List WordCell → Bool
  | [] => true
  | (a, v) :: rest =>
    decide (lo ≤ a) && decide (a < hi) && decide (v ≠ Memory.unlisted) && Memory.cellsOk (a + 1) hi rest

/-- The canonical form, and N in its range (R7, R25). -/
def Memory.wf (m : Memory) : Bool :=
  decide (1 ≤ m.size) && decide (m.size ≤ Config.maxMemWords) && Memory.cellsOk 0 m.size m.cells

end Sys2Proof.Machine
end

