-- ==== Sys2Proof/Machine/State.lean ====
section
/-! DEFINITION. The state record of 10_state R40, with nothing added but N, which stands in the memory it sizes; the records
of the two output streams; why a step can stop; reset. -/

namespace Sys2Proof.Machine

/-- The FSM state register (R29): `executing c k` is step `k` of class `c`, `draining i` is drain index `i`. -/
inductive Fsm where
  | idle
  | decoding
  | executing (c : InstrClass) (k : Nat)
  | draining (i : Nat)
  | halted
deriving DecidableEq, Repr

/-- The four error kinds (R230). -/
inductive ErrorKind where
  /-- The stream loader's, before edge 1 (R235): never in a report of the CORE. -/
  | malformedInstruction
  /-- At the `Decoding` edge (R231). -/
  | unrecognizedOpcode
  /-- At the `ALU_EV` edge (R233). -/
  | arithmeticFault
  /-- At the `Decoding` edge (R232). -/
  | addressOutOfRange
deriving DecidableEq, Repr

/-- The detail of a report, as the rule that raises it names it. -/
inductive Detail where
  /-- `{field: f, value: v}` (R231, R232). -/
  | field (f : Field) (value : Nat)
  /-- `{aluop: op, divisor: d}` (R233). -/
  | division (aluop : AluCode) (divisor : Word)
deriving DecidableEq, Repr

/-- An error report, `Report(kind, index, word, detail)` (R234). -/
structure Report where
  kind : ErrorKind
  index : Nat
  word : IWord
  detail : Detail
deriving DecidableEq, Repr

/-- The two spaces of a dump record (R38, R122). -/
inductive Space where
  | reg
  | mem
deriving DecidableEq, Repr

/-- A dump record `(space, index, value)` (R38, R122). -/
structure DumpRecord where
  space : Space
  index : Nat
  value : Word
deriving DecidableEq, Repr

/-- Why a step can stop with a fault. The CORE's own errors are reports and the run goes on (R236, R239): each fault here is
raised only in a control state that no run reaches and to which the spec gives no step. All are safe: the machine stops
where the spec says nothing (log entry 6). -/
inductive Fault where
  /-- `Decoding` with an empty queue, which R106 excludes. Raised by the `Decoding` edge and by every meaning. Safe. -/
  | decodingEmptyQueue
  /-- `Executing(c, k)` where IR does not decode to an instruction of class `c` with a step `k`, which R29 and R107
  exclude. Raised by the `Executing` edge. Safe. -/
  | executingWithoutInstruction
  /-- A data phase whose write-address latch is `none`, which R112 excludes. Raised by `WD_R` and `WD_M`. Safe. -/
  | dataPhaseWithoutLatch
  /-- A memory address not below N presented to the store, which R58 excludes. Raised by `RD_M`, `WA_M`, `WD_M`. Safe. -/
  | noSuchMemoryWord (a : Nat)
  /-- A memory read while `mem_we` is asserted, "disallowed by construction" (R54, R113). Raised by `RD_M`. Safe. -/
  | memoryReadInWriteCycle
  /-- `ALU_EV` with a latched sub-opcode of 13, 14 or 15, which R161 excludes. Safe. -/
  | undefinedAluCode
  /-- `Draining(i)` with `i` not below 32 + N, which R29 excludes. Safe. -/
  | drainPastEnd
deriving DecidableEq, Repr

/-- Why a step can be refused. -/
inductive Refusal where
  /-- No meaning for the instruction: raised by no arm of this model. Safe. -/
  | notModelled (mnemonic : String)
  /-- `rst` asserted after edge 1: the spec gives no step for it (R264, D30). Raised by `clockEdge`. Safe. -/
  | resetDuringRun
deriving DecidableEq, Repr

/-- The state of the CORE (R40). -/
structure State where
  /-- `R`, the 32 general registers (R20, R21). -/
  regs : Vector Word 32
  /-- `M`, the data memory, with N as its size (R25). -/
  mem : Memory
  /-- `Q`, the instruction queue, head first (R28). -/
  queue : List IWord
  /-- The count of instructions retired (R27). -/
  qidx : Nat
  /-- The FSM state register (R29). -/
  fsm : Fsm
  /-- `IR`, the instruction register (R30). -/
  ir : IWord
  /-- `T0` (R31). -/
  t0 : Word
  /-- `T1` (R31). -/
  t1 : Word
  /-- `T2` (R31). -/
  t2 : Word
  /-- The register file's write-address latch (R32). -/
  rwl : Option RegAddr
  /-- The memory's write-address latch (R32). -/
  mwl : Option MemAddr
  /-- The ALU input latch's sub-opcode (R33). -/
  aop : AluCode
  /-- The ALU input latch's operand 1 (R33). -/
  aa : Word
  /-- The ALU input latch's operand 2 (R33). -/
  ab : Word
  /-- `alu_q`, the ALU result register (R33). -/
  aluQ : AluResult
  /-- The error reports so far (R38, R234). -/
  reports : List Report
  /-- The dump records so far (R38, R122). -/
  dump : List DumpRecord
deriving DecidableEq, Repr

/-- Reset for given N, MEM_INIT and PROG (R40, R260). The three are the parameters R7 leaves OPEN. -/
def State.resetWith (n : Nat) (memInit : Nat → Word) (prog : List IWord) : State where
  regs := Vector.replicate 32 0
  mem := Memory.ofInit n memInit
  queue := prog
  qidx := 0
  fsm := .idle
  ir := 0
  t0 := 0
  t1 := 0
  t2 := 0
  rwl := none
  mwl := none
  aop := 0
  aa := 0
  ab := 0
  aluQ := 0
  reports := []
  dump := []

/-- The machine right after reset, at the values of Config.lean for the OPEN parameters (log entries 2, 3, 4). -/
def State.reset : State := State.resetWith Config.memWords Config.memInit Config.program

end Sys2Proof.Machine
end

