-- ==== Sys2Proof/Machine/Ops.lean ====
section
/-! DEFINITION. The named operations over the state: the register file's ports, retirement, loading IR, taking an error, the
dump record. -/

namespace Sys2Proof.Machine

/-! ### Register file -/

/-- `R[a]` as committed at or before the edge that opened the step (R34, R57). A 5-bit address is always in range (R58);
no register is hardwired (R21). -/
def State.readReg (s : State) (a : RegAddr) : Word := s.regs[a.toNat]

/-- `R[a] <- v` (R57). -/
def State.writeReg (s : State) (a : RegAddr) (v : Word) : State :=
  { s with regs := s.regs.set a.toNat v }

/-! ### Memory -/

/-- `M[a] <- v` (R55). -/
def State.writeMem (s : State) (a : MemAddr) (v : Word) : State :=
  { s with mem := s.mem.write a.toNat v }

/-- N, the number of memory words (R25). -/
abbrev State.memWords (s : State) : Nat := s.mem.size

/-! ### Retirement and the instruction register -/

/-- Where the FSM goes when the queue is `rest` after a retirement (R108). -/
def fsmAfterRetire (rest : List IWord) : Fsm :=
  match rest with
  | [] => .draining 0
  | _ :: _ => .decoding

/-- `Retire(S)`: the head leaves the queue, `qidx` increases, the FSM moves on (R27, R28, R108). -/
def State.retire (s : State) : State :=
  { s with queue := s.queue.tail, qidx := s.qidx + 1, fsm := fsmAfterRetire s.queue.tail }

/-- A successful decode of `w` as class `c`: IR is loaded and step 0 follows (R30, R106). -/
def State.loadIr (s : State) (w : IWord) (c : InstrClass) : State :=
  { s with ir := w, fsm := .executing c 0 }

/-! ### Errors

Taking an error is the CORE's only exception (R236, R238): the report is appended and the instruction retired, at the edge
that detects it. There is no return from it: the next queued instruction follows by itself (R239). -/

/-- The code of an error kind, the value of `err_kind` (R230). -/
def ErrorKind.code : ErrorKind → BitVec 3
  | .malformedInstruction => 1#3
  | .unrecognizedOpcode => 2#3
  | .arithmeticFault => 3#3
  | .addressOutOfRange => 4#3

/-- The instruction `word` raises `kind` with `detail`: the report carries `qidx` (R234), and the instruction is retired
(R236). -/
def State.takeError (s : State) (kind : ErrorKind) (word : IWord) (detail : Detail) : State :=
  State.retire { s with
    reports := s.reports ++ [{ kind := kind, index := s.qidx, word := word, detail := detail }] }

/-- `UnrecognizedOpcode` at the `Decoding` edge of `w`, whose sub-opcode is `p` (R106, R231). -/
def State.takeUnrecognizedOpcode (s : State) (w : IWord) (p : AluCode) : State :=
  s.takeError .unrecognizedOpcode w (.field .aluop p.toNat)

/-- `AddressOutOfRange` at the `Decoding` edge of `w`, whose field `f` holds `a` (R106, R232). -/
def State.takeAddressOutOfRange (s : State) (w : IWord) (f : Field) (a : MemAddr) : State :=
  s.takeError .addressOutOfRange w (.field f a.toNat)

/-- `ArithmeticFault` at the `ALU_EV` edge of the instruction in IR (R107, R180, R233). -/
def State.takeArithmeticFault (s : State) (detail : Detail) : State :=
  s.takeError .arithmeticFault s.ir detail

/-! ### Drain -/

/-- Register `i` for a drain index below 32. -/
def State.regAt (s : State) (i : Nat) : Word := s.regs[i]?.getD 0

/-- The dump record of drain index `i`: registers 0 to 31, then memory words in address order (R122). -/
def State.dumpRecord (s : State) (i : Nat) : DumpRecord :=
  if i < 32 then { space := .reg, index := i, value := s.regAt i }
  else { space := .mem, index := i - 32, value := s.mem.read (i - 32) }

/-- The number of dump records, 32 + N (R121). -/
abbrev State.drainLength (s : State) : Nat := 32 + s.memWords

end Sys2Proof.Machine
end

