-- ==== Sys2Proof/Machine/Operands.lean ====
section
/-! DEFINITION. Operand assembly: every address field is a direct index and every literal a word unchanged (30_encoding R83,
43_moves R206), so what is left is the sequencer's temporaries (10_state R31) and the value a data phase drives. -/

namespace Sys2Proof.Machine

/-- The temporaries (R31). -/
inductive Temp where
  | t0
  | t1
  | t2
deriving DecidableEq, Repr

/-- The value of a temporary. -/
def State.readTemp (s : State) (t : Temp) : Word :=
  match t with
  | .t0 => s.t0
  | .t1 => s.t1
  | .t2 => s.t2

/-- `t <- v` (R111). -/
def State.writeTemp (s : State) (t : Temp) (v : Word) : State :=
  match t with
  | .t0 => { s with t0 := v }
  | .t1 => { s with t1 := v }
  | .t2 => { s with t2 := v }

/-- What a data phase drives: a literal (R140, R141, R142), a temporary (R200 to R203) or the low word of the ALU result
(R160). -/
inductive Source where
  | literal (d : Word)
  | temp (t : Temp)
  | aluLow
deriving DecidableEq, Repr

/-- `trunc_W`, the low 16 bits of an ALU result (R175). -/
def truncW (q : AluResult) : Word := BitVec.ofNat 16 (q.toNat % 2 ^ 16)

/-- The value a data phase drives, from the state before the edge (R34, R112). -/
def State.sourceValue (s : State) (v : Source) : Word :=
  match v with
  | .literal d => d
  | .temp t => s.readTemp t
  | .aluLow => truncW s.aluQ

end Sys2Proof.Machine
end

