-- ==== Sys2Proof/Machine/Flags.lean ====
section
/-! DEFINITION. The CORE has no status flags or condition codes (10_state R35, 42_alu R178). The one condition the ALU
computes beside its result is its fault. -/

namespace Sys2Proof.Machine

/-- The ALU faults on these inputs: divide or modulo with operand 2 equal to 0, and nothing else (R178, R180, R233). -/
def aluFaults (op : AluOp) (b : Word) : Bool :=
  match op with
  | .add => false
  | .sub => false
  | .mul => false
  | .div => decide (b = 0)
  | .mod => decide (b = 0)
  | .pow => false
  | .and => false
  | .or => false
  | .nand => false
  | .nor => false
  | .xor => false
  | .xnor => false
  | .not => false

end Sys2Proof.Machine
end

