-- ==== Sys2Proof/Machine/AluFunction.lean ====
section
/-! DEFINITION. The ALU's combinational function (42_alu R161 to R174): the exact function of each operation on unsigned
operands, then truncation to the 32-bit result register. -/

namespace Sys2Proof.Machine

/-- `~_W(v)` for `v < 2^16`: the complement within W bits (R170, R171, R173, R174). -/
def complementW (v : Nat) : Nat := (2 ^ 16 - 1) - v

/-- `F_0`, add (R162). -/
def exactAdd (a b : Nat) : Int := a + b

/-- `F_1`, subtract, an integer: it may be negative (R163). -/
def exactSub (a b : Nat) : Int := (a : Int) - (b : Int)

/-- `F_2`, multiply (R164). -/
def exactMul (a b : Nat) : Int := a * b

/-- `F_3`, the unsigned floor quotient, for `b ≠ 0` (R165). -/
def exactDiv (a b : Nat) : Int := (a / b : Nat)

/-- `F_4`, the unsigned remainder, for `b ≠ 0` (R166). -/
def exactMod (a b : Nat) : Int := (a % b : Nat)

/-- `F_5`, power, with `0 ** 0 = 1` (R167). -/
def exactPow (a b : Nat) : Int := (a ^ b : Nat)

/-- `F_6`, AND (R168). -/
def exactAnd (a b : Nat) : Int := (a &&& b : Nat)

/-- `F_7`, OR (R169). -/
def exactOr (a b : Nat) : Int := (a ||| b : Nat)

/-- `F_8`, NAND (R170). -/
def exactNand (a b : Nat) : Int := (complementW (a &&& b) : Nat)

/-- `F_9`, NOR (R171). -/
def exactNor (a b : Nat) : Int := (complementW (a ||| b) : Nat)

/-- `F_10`, XOR (R172). -/
def exactXor (a b : Nat) : Int := (a ^^^ b : Nat)

/-- `F_11`, XNOR (R173). -/
def exactXnor (a b : Nat) : Int := (complementW (a ^^^ b) : Nat)

/-- `F_12`, NOT of operand 1 (R174). -/
def exactNot (a : Nat) : Int := (complementW a : Nat)

/-- `F_p(a, b)` (R161). -/
def exactAlu (op : AluOp) (a b : Nat) : Int :=
  match op with
  | .add => exactAdd a b
  | .sub => exactSub a b
  | .mul => exactMul a b
  | .div => exactDiv a b
  | .mod => exactMod a b
  | .pow => exactPow a b
  | .and => exactAnd a b
  | .or => exactOr a b
  | .nand => exactNand a b
  | .nor => exactNor a b
  | .xor => exactXor a b
  | .xnor => exactXnor a b
  | .not => exactNot a

/-- `AluF(p, a, b) = trunc_RW(F_p(a, b))`; `none` where it has no value (R161, R180). -/
def aluF (op : AluOp) (a b : Word) : Option AluResult :=
  if aluFaults op b then none else some (BitVec.ofInt 32 (exactAlu op a.toNat b.toNat))

end Sys2Proof.Machine
end

