-- ==== Sys2Proof/Machine/Micro.lean ====
section
/-! DEFINITION. The micro-operations and the generic executor (40_control_fsm R102, R110 to R116): the tables of the families
are data, and what is here reads them. -/

namespace Sys2Proof.Machine

/-- The micro-operations (R115). -/
inductive MicroOp where
  /-- `RD_R(t, a)` (R111). -/
  | rdR (t : Temp) (a : RegAddr)
  /-- `RD_M(t, a)` (R111). -/
  | rdM (t : Temp) (a : MemAddr)
  /-- `WA_R(a)`, the address phase of a register write (R112). -/
  | waR (a : RegAddr)
  /-- `WD_R(v)`, the data phase of a register write (R112). -/
  | wdR (v : Source)
  /-- `WA_M(a)`, the address phase of a memory write (R112). -/
  | waM (a : MemAddr)
  /-- `WD_M(v)`, the data phase of a memory write (R112). -/
  | wdM (v : Source)
  /-- `ALU_LD`, with the instruction's sub-opcode (R114). -/
  | aluLd (op : AluOp)
  /-- `ALU_EV` (R114). -/
  | aluEv
deriving DecidableEq, Repr

/-- The steps of a class (R110). -/
def classSteps : InstrClass → Nat
  | .writeMemory => 2
  | .writeRegister => 2
  | .aluOperation => 6
  | .moveInMemory => 9
  | .moveInRegisters => 9
  | .registerToMemory => 3
  | .memoryToRegister => 3
  | .clearRegister => 2

/-- What performing a micro-operation gives (R107, R115). -/
inductive Performed where
  /-- The state with the step's commits. -/
  | commit (s : State)
  /-- `ArithmeticFault` with its detail; no commit. -/
  | arithmeticFault (d : Detail)
  /-- No step is given (log entry 6). -/
  | stop (f : Fault)
deriving DecidableEq, Repr

/-- `RD_R(t, a)`: `t <- R[a]` (R111, R57). -/
def performRdR (t : Temp) (a : RegAddr) (s : State) : Performed :=
  .commit (s.writeTemp t (s.readReg a))

/-- `RD_M(t, a)`: `t <- M[a]`, with `mem_we = 0` and `a < N` (R111, R54, R56, R58). -/
def performRdM (t : Temp) (a : MemAddr) (s : State) : Performed :=
  if s.mwl.isSome then .stop .memoryReadInWriteCycle
  else if s.memWords ≤ a.toNat then .stop (.noSuchMemoryWord a.toNat)
  else .commit (s.writeTemp t (s.mem.read a.toNat))

/-- `WA_R(a)`: `rwl <- some a` (R112). -/
def performWaR (a : RegAddr) (s : State) : Performed :=
  .commit { s with rwl := some a }

/-- `WD_R(v)`: `R[a] <- v`, `rwl <- none`, where `rwl = some a` (R112). -/
def performWdR (v : Source) (s : State) : Performed :=
  match s.rwl with
  | none => .stop .dataPhaseWithoutLatch
  | some a => .commit { s.writeReg a (s.sourceValue v) with rwl := none }

/-- `WA_M(a)`: `mwl <- some a`, with `a < N` (R112, R32, R58). -/
def performWaM (a : MemAddr) (s : State) : Performed :=
  if s.memWords ≤ a.toNat then .stop (.noSuchMemoryWord a.toNat)
  else .commit { s with mwl := some a }

/-- `WD_M(v)`: `M[a] <- v`, `mwl <- none`, where `mwl = some a` and `a < N` (R112, R55, R58). -/
def performWdM (v : Source) (s : State) : Performed :=
  match s.mwl with
  | none => .stop .dataPhaseWithoutLatch
  | some a =>
    if s.memWords ≤ a.toNat then .stop (.noSuchMemoryWord a.toNat)
    else .commit { s.writeMem a (s.sourceValue v) with mwl := none }

/-- `ALU_LD`: `(aop, aa, ab) <- (IR.aluop, T0, T1)` (R114, R176). -/
def performAluLd (op : AluOp) (s : State) : Performed :=
  .commit { s with aop := op.code, aa := s.t0, ab := s.t1 }

/-- `ALU_EV`: `alu_q <- AluF(aop, aa, ab)`, or `ArithmeticFault` with `alu_q` unchanged (R114, R176, R180). -/
def performAluEv (s : State) : Performed :=
  match AluOp.ofCode s.aop with
  | none => .stop .undefinedAluCode
  | some op =>
    match aluF op s.aa s.ab with
    | none => .arithmeticFault (.division s.aop 0)
    | some q => .commit { s with aluQ := q }

/-- `Perform(u, S)` (R115). -/
def perform (u : MicroOp) (s : State) : Performed :=
  match u with
  | .rdR t a => performRdR t a s
  | .rdM t a => performRdM t a s
  | .waR a => performWaR a s
  | .wdR v => performWdR v s
  | .waM a => performWaM a s
  | .wdM v => performWdM v s
  | .aluLd op => performAluLd op s
  | .aluEv => performAluEv s

/-- The micro-operations that are left, one after the other, then retirement (R107): the last step retires, a fault
reports and retires at once. -/
def runSteps : List MicroOp → State → Host.Outcome State Fault Refusal
  | [], s => .next s.retire
  | u :: rest, s =>
    match perform u s with
    | .commit s' => runSteps rest s'
    | .arithmeticFault d => .next (s.takeArithmeticFault d)
    | .stop f => .fault f

/-- An instruction from its `Decoding` edge to its retirement: the word at the head of the queue is `i`'s; an address field
that is not below N is the decode error of R86, otherwise IR is loaded and the class's table runs (R106, R107, R236). -/
def runInstr (i : Instr) (table : List MicroOp) (s : State) : Host.Outcome State Fault Refusal :=
  match s.queue with
  | [] => .fault .decodingEmptyQueue
  | w :: _ =>
    match firstOutOfRange s.memWords i.addrFields with
    | some (f, a) => .next (s.takeAddressOutOfRange w f a)
    | none => runSteps table (s.loadIr w i.cls)

end Sys2Proof.Machine
end

