-- ==== Sys2Proof/Machine/Alu.lean ====
section
/-! DEFINITION. The ALUOperation class (42_alu): one micro-step table for the class (R160), and a meaning for each of the
thirteen operations. -/

namespace Sys2Proof.Machine

/-- The table of ALUOperation (R160). It is the same for every operation: `not` reads `rs2` too (R174). -/
def stepsAlu (op : AluOp) (rs1 rs2 rd : RegAddr) : List MicroOp :=
  [.rdR .t0 rs1, .rdR .t1 rs2, .aluLd op, .aluEv, .waR rd, .wdR .aluLow]

/-- `add rd, rs1, rs2` (R160, R162). -/
def execAdd (rs1 rs2 rd : RegAddr) (s : State) : Host.Outcome State Fault Refusal :=
  runInstr (.add rs1 rs2 rd) (stepsAlu .add rs1 rs2 rd) s

/-- `sub rd, rs1, rs2` (R160, R163). -/
def execSub (rs1 rs2 rd : RegAddr) (s : State) : Host.Outcome State Fault Refusal :=
  runInstr (.sub rs1 rs2 rd) (stepsAlu .sub rs1 rs2 rd) s

/-- `mul rd, rs1, rs2` (R160, R164). -/
def execMul (rs1 rs2 rd : RegAddr) (s : State) : Host.Outcome State Fault Refusal :=
  runInstr (.mul rs1 rs2 rd) (stepsAlu .mul rs1 rs2 rd) s

/-- `div rd, rs1, rs2` (R160, R165, R180). -/
def execDiv (rs1 rs2 rd : RegAddr) (s : State) : Host.Outcome State Fault Refusal :=
  runInstr (.div rs1 rs2 rd) (stepsAlu .div rs1 rs2 rd) s

/-- `mod rd, rs1, rs2` (R160, R166, R180). -/
def execMod (rs1 rs2 rd : RegAddr) (s : State) : Host.Outcome State Fault Refusal :=
  runInstr (.mod rs1 rs2 rd) (stepsAlu .mod rs1 rs2 rd) s

/-- `pow rd, rs1, rs2` (R160, R167). -/
def execPow (rs1 rs2 rd : RegAddr) (s : State) : Host.Outcome State Fault Refusal :=
  runInstr (.pow rs1 rs2 rd) (stepsAlu .pow rs1 rs2 rd) s

/-- `and rd, rs1, rs2` (R160, R168). -/
def execAnd (rs1 rs2 rd : RegAddr) (s : State) : Host.Outcome State Fault Refusal :=
  runInstr (.and rs1 rs2 rd) (stepsAlu .and rs1 rs2 rd) s

/-- `or rd, rs1, rs2` (R160, R169). -/
def execOr (rs1 rs2 rd : RegAddr) (s : State) : Host.Outcome State Fault Refusal :=
  runInstr (.or rs1 rs2 rd) (stepsAlu .or rs1 rs2 rd) s

/-- `nand rd, rs1, rs2` (R160, R170). -/
def execNand (rs1 rs2 rd : RegAddr) (s : State) : Host.Outcome State Fault Refusal :=
  runInstr (.nand rs1 rs2 rd) (stepsAlu .nand rs1 rs2 rd) s

/-- `nor rd, rs1, rs2` (R160, R171). -/
def execNor (rs1 rs2 rd : RegAddr) (s : State) : Host.Outcome State Fault Refusal :=
  runInstr (.nor rs1 rs2 rd) (stepsAlu .nor rs1 rs2 rd) s

/-- `xor rd, rs1, rs2` (R160, R172). -/
def execXor (rs1 rs2 rd : RegAddr) (s : State) : Host.Outcome State Fault Refusal :=
  runInstr (.xor rs1 rs2 rd) (stepsAlu .xor rs1 rs2 rd) s

/-- `xnor rd, rs1, rs2` (R160, R173). -/
def execXnor (rs1 rs2 rd : RegAddr) (s : State) : Host.Outcome State Fault Refusal :=
  runInstr (.xnor rs1 rs2 rd) (stepsAlu .xnor rs1 rs2 rd) s

/-- `not rd, rs1` (R160, R174). -/
def execNot (rs1 rs2 rd : RegAddr) (s : State) : Host.Outcome State Fault Refusal :=
  runInstr (.not rs1 rs2 rd) (stepsAlu .not rs1 rs2 rd) s

end Sys2Proof.Machine
end

