-- ==== Sys2Proof/Machine/Literal.lean ====
section
/-! DEFINITION. The literal writes (41_literal_writes): WriteMemory, WriteRegister, ClearRegister, each with its micro-step
table and its meaning. -/

namespace Sys2Proof.Machine

/-- The table of WriteMemory (R140). -/
def stepsWmem (a : MemAddr) (d : Word) : List MicroOp := [.waM a, .wdM (.literal d)]

/-- The table of WriteRegister (R141). -/
def stepsWreg (rd : RegAddr) (d : Word) : List MicroOp := [.waR rd, .wdR (.literal d)]

/-- The table of ClearRegister (R142). -/
def stepsClr (rd : RegAddr) : List MicroOp := [.waR rd, .wdR (.literal 0)]

/-- `wmem mA, D` (R140, R143). -/
def execWmem (a : MemAddr) (d : Word) (s : State) : Host.Outcome State Fault Refusal :=
  runInstr (.wmem a d) (stepsWmem a d) s

/-- `wreg rd, D` (R141, R143). -/
def execWreg (rd : RegAddr) (d : Word) (s : State) : Host.Outcome State Fault Refusal :=
  runInstr (.wreg rd d) (stepsWreg rd d) s

/-- `clr rd` (R142, R143). -/
def execClr (rd : RegAddr) (s : State) : Host.Outcome State Fault Refusal :=
  runInstr (.clr rd) (stepsClr rd) s

end Sys2Proof.Machine
end

