-- ==== Sys2Proof/Machine/Moves.lean ====
section
/-! DEFINITION. The moves (43_moves): MoveInMemory, MoveInRegisters, RegisterToMemory, MemoryToRegister, each with its
micro-step table and its meaning. -/

namespace Sys2Proof.Machine

/-- The table of MoveInMemory (R200). -/
def stepsRotm (a b c : MemAddr) : List MicroOp :=
  [.rdM .t0 a, .rdM .t1 b, .rdM .t2 c,
   .waM b, .wdM (.temp .t0), .waM c, .wdM (.temp .t1), .waM a, .wdM (.temp .t2)]

/-- The table of MoveInRegisters (R201). -/
def stepsRotr (a b c : RegAddr) : List MicroOp :=
  [.rdR .t0 a, .rdR .t1 b, .rdR .t2 c,
   .waR b, .wdR (.temp .t0), .waR c, .wdR (.temp .t1), .waR a, .wdR (.temp .t2)]

/-- The table of RegisterToMemory (R202). -/
def stepsR2m (rs : RegAddr) (a : MemAddr) : List MicroOp :=
  [.rdR .t0 rs, .waM a, .wdM (.temp .t0)]

/-- The table of MemoryToRegister (R203). -/
def stepsM2r (a : MemAddr) (rd : RegAddr) : List MicroOp :=
  [.rdM .t0 a, .waR rd, .wdR (.temp .t0)]

/-- `rotm mA, mB, mC` (R200, R204). -/
def execRotm (a b c : MemAddr) (s : State) : Host.Outcome State Fault Refusal :=
  runInstr (.rotm a b c) (stepsRotm a b c) s

/-- `rotr rA, rB, rC` (R201, R204). -/
def execRotr (a b c : RegAddr) (s : State) : Host.Outcome State Fault Refusal :=
  runInstr (.rotr a b c) (stepsRotr a b c) s

/-- `r2m mA, rs` (R202). -/
def execR2m (rs : RegAddr) (a : MemAddr) (s : State) : Host.Outcome State Fault Refusal :=
  runInstr (.r2m rs a) (stepsR2m rs a) s

/-- `m2r rd, mA` (R203). -/
def execM2r (a : MemAddr) (rd : RegAddr) (s : State) : Host.Outcome State Fault Refusal :=
  runInstr (.m2r a rd) (stepsM2r a rd) s

end Sys2Proof.Machine
end

