-- ==== Sys2Proof/Machine/Dispatch.lean ====
section
/-! DEFINITION. From an instruction to its meaning. -/

namespace Sys2Proof.Machine

/-- The meaning of an instruction: what it does from its `Decoding` edge to its retirement, at a state whose queue has the
instruction's word at its head. -/
def exec (i : Instr) (s : State) : Host.Outcome State Fault Refusal :=
  match i with
  | .wmem a d => Sys2Proof.Machine.execWmem a d s
  | .wreg rd d => Sys2Proof.Machine.execWreg rd d s
  | .add rs1 rs2 rd => Sys2Proof.Machine.execAdd rs1 rs2 rd s
  | .sub rs1 rs2 rd => Sys2Proof.Machine.execSub rs1 rs2 rd s
  | .mul rs1 rs2 rd => Sys2Proof.Machine.execMul rs1 rs2 rd s
  | .div rs1 rs2 rd => Sys2Proof.Machine.execDiv rs1 rs2 rd s
  | .mod rs1 rs2 rd => Sys2Proof.Machine.execMod rs1 rs2 rd s
  | .pow rs1 rs2 rd => Sys2Proof.Machine.execPow rs1 rs2 rd s
  | .and rs1 rs2 rd => Sys2Proof.Machine.execAnd rs1 rs2 rd s
  | .or rs1 rs2 rd => Sys2Proof.Machine.execOr rs1 rs2 rd s
  | .nand rs1 rs2 rd => Sys2Proof.Machine.execNand rs1 rs2 rd s
  | .nor rs1 rs2 rd => Sys2Proof.Machine.execNor rs1 rs2 rd s
  | .xor rs1 rs2 rd => Sys2Proof.Machine.execXor rs1 rs2 rd s
  | .xnor rs1 rs2 rd => Sys2Proof.Machine.execXnor rs1 rs2 rd s
  | .not rs1 rs2 rd => Sys2Proof.Machine.execNot rs1 rs2 rd s
  | .rotm a b c => Sys2Proof.Machine.execRotm a b c s
  | .rotr a b c => Sys2Proof.Machine.execRotr a b c s
  | .r2m rs a => Sys2Proof.Machine.execR2m rs a s
  | .m2r a rd => Sys2Proof.Machine.execM2r a rd s
  | .clr rd => Sys2Proof.Machine.execClr rd s

end Sys2Proof.Machine
end

