-- ==== Sys2Proof/Machine/Sequencer.lean ====
section
/-! DEFINITION. The control FSM, one rising edge at a time (40_control_fsm R102 to R127). -/

namespace Sys2Proof.Machine

/-- `Micro(c, k)` is entry `k` of this list, for the instruction in IR (R107, R116). -/
def microOps : Instr → List MicroOp
  | .wmem a d => stepsWmem a d
  | .wreg rd d => stepsWreg rd d
  | .add rs1 rs2 rd => stepsAlu .add rs1 rs2 rd
  | .sub rs1 rs2 rd => stepsAlu .sub rs1 rs2 rd
  | .mul rs1 rs2 rd => stepsAlu .mul rs1 rs2 rd
  | .div rs1 rs2 rd => stepsAlu .div rs1 rs2 rd
  | .mod rs1 rs2 rd => stepsAlu .mod rs1 rs2 rd
  | .pow rs1 rs2 rd => stepsAlu .pow rs1 rs2 rd
  | .and rs1 rs2 rd => stepsAlu .and rs1 rs2 rd
  | .or rs1 rs2 rd => stepsAlu .or rs1 rs2 rd
  | .nand rs1 rs2 rd => stepsAlu .nand rs1 rs2 rd
  | .nor rs1 rs2 rd => stepsAlu .nor rs1 rs2 rd
  | .xor rs1 rs2 rd => stepsAlu .xor rs1 rs2 rd
  | .xnor rs1 rs2 rd => stepsAlu .xnor rs1 rs2 rd
  | .not rs1 rs2 rd => stepsAlu .not rs1 rs2 rd
  | .rotm a b c => stepsRotm a b c
  | .rotr a b c => stepsRotr a b c
  | .r2m rs a => stepsR2m rs a
  | .m2r a rd => stepsM2r a rd
  | .clr rd => stepsClr rd

/-- `StepIdle` (R105): an empty queue goes straight to the drain (R120). -/
def stepIdle (s : State) : State :=
  match s.queue with
  | [] => { s with fsm := .draining 0 }
  | _ :: _ => { s with fsm := .decoding }

/-- `StepDecode` (R106). -/
def stepDecode (s : State) : Host.Outcome State Fault Refusal :=
  match s.queue with
  | [] => .fault .decodingEmptyQueue
  | w :: _ =>
    match verdict s.memWords w with
    | .ok i => .next (s.loadIr w i.cls)
    | .unrecognizedOpcode p => .next (s.takeUnrecognizedOpcode w p)
    | .addressOutOfRange f a => .next (s.takeAddressOutOfRange w f a)

/-- What the head of the queue is, before the range check: the head is read, not removed (R28, R106). -/
inductive Fetched where
  /-- The queue is empty. -/
  | empty
  /-- A word that is no instruction: its sub-opcode is 13, 14 or 15 (R85). -/
  | unrecognized (w : IWord) (p : AluCode)
  /-- An instruction. -/
  | instr (i : Instr)
deriving DecidableEq, Repr

/-- The head of the queue, its class and fields decoded (R64, R106). -/
def State.fetchHead (s : State) : Fetched :=
  match s.queue with
  | [] => .empty
  | w :: _ =>
    match decodeFields w with
    | none => .unrecognized w (aluopField w)
    | some i => .instr i

/-- The micro-operation of step `k` of class `c`, for the instruction in IR; `none` where IR holds no such instruction
(R107). -/
def State.currentMicro (s : State) (c : InstrClass) (k : Nat) : Option MicroOp :=
  match verdict s.memWords s.ir with
  | .ok i => if i.cls = c then (microOps i)[k]? else none
  | .unrecognizedOpcode _ => none
  | .addressOutOfRange _ _ => none

/-- `StepExec` (R107). -/
def stepExec (c : InstrClass) (k : Nat) (s : State) : Host.Outcome State Fault Refusal :=
  match s.currentMicro c k with
  | none => .fault .executingWithoutInstruction
  | some u =>
    match perform u s with
    | .commit s' => if k + 1 = classSteps c then .next s'.retire else .next { s' with fsm := .executing c (k + 1) }
    | .arithmeticFault d => .next (s.takeArithmeticFault d)
    | .stop f => .fault f

/-- `StepDrain` (R121). -/
def stepDrain (i : Nat) (s : State) : Host.Outcome State Fault Refusal :=
  if s.drainLength ≤ i then .fault .drainPastEnd
  else .next { s with
    dump := s.dump ++ [s.dumpRecord i]
    fsm := if i + 1 = s.drainLength then .halted else .draining (i + 1) }

/-- `Edge`: the state after one rising edge (R104). `Halted` is terminal (R123). -/
def edge (s : State) : Host.Outcome State Fault Refusal :=
  match s.fsm with
  | .idle => .next (stepIdle s)
  | .decoding => stepDecode s
  | .executing c k => stepExec c k s
  | .draining i => stepDrain i s
  | .halted => .next s

/-- `n` rising edges (R6, R103). -/
def edges : Nat → State → Host.Outcome State Fault Refusal
  | 0, s => .next s
  | n + 1, s =>
    match edge s with
    | .next s' => edges n s'
    | .fault f => .fault f
    | .refused r => .refused r

/-- A rising edge with the input `rst`. Reset is applied once, before edge 1 (`State.resetWith`); afterwards the spec has no
step for it, and the run is refused (R100, R264, D30). -/
def clockEdge (rst : Bool) (s : State) : Host.Outcome State Fault Refusal :=
  if rst then .refused .resetDuringRun else edge s

/-- The edges an instruction occupies once it decodes `Ok`: its `Decoding` edge and its steps; 5 when it raises
`ArithmeticFault` (R127, R269). -/
def instrEdges (i : Instr) (s : State) : Nat :=
  match i with
  | .wmem _ _ => 3
  | .wreg _ _ => 3
  | .add _ _ _ => 7
  | .sub _ _ _ => 7
  | .mul _ _ _ => 7
  | .div _ rs2 _ => if s.readReg rs2 = 0 then 5 else 7
  | .mod _ rs2 _ => if s.readReg rs2 = 0 then 5 else 7
  | .pow _ _ _ => 7
  | .and _ _ _ => 7
  | .or _ _ _ => 7
  | .nand _ _ _ => 7
  | .nor _ _ _ => 7
  | .xor _ _ _ => 7
  | .xnor _ _ _ => 7
  | .not _ _ _ => 7
  | .rotm _ _ _ => 10
  | .rotr _ _ _ => 10
  | .r2m _ _ => 4
  | .m2r _ _ => 4
  | .clr _ => 3

/-- `E(w)`, the edges a queued word occupies: 1 with a decode error (R127, R269). -/
def wordEdges (w : IWord) (s : State) : Nat :=
  match verdict s.memWords w with
  | .ok i => instrEdges i s
  | .unrecognizedOpcode _ => 1
  | .addressOutOfRange _ _ => 1

end Sys2Proof.Machine
end

