-- ==== Sys2Proof/Machine/Step.lean ====
section
/-! DEFINITION. The step: in `Decoding` the head of the queue is decoded and its instruction runs to its retirement, all its
edges in one step; in every other FSM state a step is one rising edge (log entry 1). -/

namespace Sys2Proof.Machine

/-- The head of the queue, decoded and run: a word that is no instruction is the decode error of R85. -/
def runHead (s : State) : Host.Outcome State Fault Refusal :=
  match s.fetchHead with
  | .empty => .fault .decodingEmptyQueue
  | .unrecognized w p => .next (s.takeUnrecognizedOpcode w p)
  | .instr i => exec i s

/-- One step (log entry 1). -/
def step (s : State) : Host.Outcome State Fault Refusal :=
  match s.fsm with
  | .idle => edge s
  | .decoding => runHead s
  | .executing _ _ => edge s
  | .draining _ => edge s
  | .halted => edge s

/-- `n` steps. -/
def steps : Nat → State → Host.Outcome State Fault Refusal
  | 0, s => .next s
  | n + 1, s =>
    match step s with
    | .next s' => steps n s'
    | .fault f => .fault f
    | .refused r => .refused r

/-- The edges one step takes (R127, R269). -/
def stepEdges (s : State) : Nat :=
  match s.fsm with
  | .idle => 1
  | .decoding =>
    match s.queue with
    | [] => 1
    | w :: _ => wordEdges w s
  | .executing _ _ => 1
  | .draining _ => 1
  | .halted => 1

/-- The sum of the edges of the next `n` steps. -/
def stepsEdges : Nat → State → Nat
  | 0, _ => 0
  | n + 1, s =>
    match step s with
    | .next s' => stepEdges s + stepsEdges n s'
    | .fault _ => stepEdges s
    | .refused _ => stepEdges s

/-- `s` with the instruction word at the head of the queue and the FSM in `Decoding`, so that the next step runs it: it
stands for the load of PROG and the `Idle` edge (log entry 4). -/
def State.withFetchWord (s : State) (nbits w : Nat) : State :=
  { s with queue := BitVec.ofNat 32 (w % 2 ^ nbits) :: s.queue.tail, fsm := .decoding }

end Sys2Proof.Machine
end

