-- ==== Sys2Proof/Machine/Assembler.lean ====
section
/-! DEFINITION. The assembly notation of 30_encoding R90, one instruction a line: mnemonic, a space, the operands separated by
commas, destination first; filler bits assemble as 0 (R82). There are no pseudo-instructions (R91). White space is free
around operands (log entry 13). No step uses it: it names the words the spec's programs are written in. -/

namespace Sys2Proof.Machine

/-- A line without the blanks before its first other character. -/
def dropBlanks : List Char → List Char
  | [] => []
  | c :: rest => if c = ' ' then dropBlanks rest else c :: rest

/-- A line without blanks at either end. -/
def trimBlanks (cs : List Char) : List Char := (dropBlanks (dropBlanks cs).reverse).reverse

/-- A text cut at each `sep`. -/
def splitOn (sep : Char) : List Char → List (List Char)
  | [] => [[]]
  | c :: rest =>
    if c = sep then [] :: splitOn sep rest
    else
      match splitOn sep rest with
      | [] => [[c]]
      | part :: more => (c :: part) :: more

/-- The value of a digit in base 16. -/
def digitValue (c : Char) : Option Nat :=
  if 48 ≤ c.toNat ∧ c.toNat ≤ 57 then some (c.toNat - 48)
  else if 97 ≤ c.toNat ∧ c.toNat ≤ 102 then some (c.toNat - 87)
  else if 65 ≤ c.toNat ∧ c.toNat ≤ 70 then some (c.toNat - 55)
  else none

/-- The digits after the value `acc`, in a base. -/
def digitsValue (base : Nat) : List Char → Nat → Option Nat
  | [], acc => some acc
  | c :: rest, acc =>
    match digitValue c with
    | none => none
    | some d => if d < base then digitsValue base rest (base * acc + d) else none

/-- A number, decimal or `0x` hexadecimal (R90). -/
def parseNumber (cs : List Char) : Option Nat :=
  match cs with
  | [] => none
  | '0' :: 'x' :: d :: rest => digitsValue 16 (d :: rest) 0
  | _ => digitsValue 10 cs 0

/-- A number not above `max`, after the letter `letter`. -/
def parsePrefixed (letter : Char) (max : Nat) (cs : List Char) : Option Nat :=
  match cs with
  | [] => none
  | c :: rest =>
    if c = letter then (parseNumber rest).bind fun v => if v ≤ max then some v else none else none

/-- A register operand; a number outside [0, 31] is refused (R90). -/
def parseReg (cs : List Char) : Option RegAddr := (parsePrefixed 'r' 31 cs).map (BitVec.ofNat 5)

/-- A memory operand; an address outside [0, 255] is refused (R90). -/
def parseMem (cs : List Char) : Option MemAddr := (parsePrefixed 'm' 255 cs).map (BitVec.ofNat 8)

/-- A literal operand; a value outside [0, 65535] is refused (R90). -/
def parseLiteral (cs : List Char) : Option Word :=
  (parseNumber cs).bind fun v => if v ≤ 65535 then some (BitVec.ofNat 16 v) else none

/-- The mnemonic of an ALU operation (R84). -/
def AluOp.mnemonic : AluOp → List Char
  | .add => ['a', 'd', 'd']
  | .sub => ['s', 'u', 'b']
  | .mul => ['m', 'u', 'l']
  | .div => ['d', 'i', 'v']
  | .mod => ['m', 'o', 'd']
  | .pow => ['p', 'o', 'w']
  | .and => ['a', 'n', 'd']
  | .or => ['o', 'r']
  | .nand => ['n', 'a', 'n', 'd']
  | .nor => ['n', 'o', 'r']
  | .xor => ['x', 'o', 'r']
  | .xnor => ['x', 'n', 'o', 'r']
  | .not => ['n', 'o', 't']

/-- The ALU operation of a mnemonic (R84, R90). -/
def parseAluOp (mnemonic : List Char) : Option AluOp := aluOps.find? fun op => AluOp.mnemonic op == mnemonic

/-- An ALU instruction: `OP rd, rs1, rs2`, or `not rd, rs1` with `rs2 = 0` (R90). -/
def parseAlu (op : AluOp) (operands : List (List Char)) : Option Instr :=
  match op, operands with
  | .not, [d, a] => do
    let rd ← parseReg d
    let rs1 ← parseReg a
    some (.not rs1 0 rd)
  | .not, _ => none
  | op, [d, a, b] => do
    let rd ← parseReg d
    let rs1 ← parseReg a
    let rs2 ← parseReg b
    some (op.instr rs1 rs2 rd)
  | _, _ => none

/-- An instruction of another class (R90). -/
def parseOther (mnemonic : List Char) (operands : List (List Char)) : Option Instr :=
  match mnemonic, operands with
  | ['w', 'm', 'e', 'm'], [m, d] => do
    let a ← parseMem m
    let v ← parseLiteral d
    some (.wmem a v)
  | ['w', 'r', 'e', 'g'], [r, d] => do
    let rd ← parseReg r
    let v ← parseLiteral d
    some (.wreg rd v)
  | ['r', 'o', 't', 'm'], [x, y, z] => do
    let a ← parseMem x
    let b ← parseMem y
    let c ← parseMem z
    some (.rotm a b c)
  | ['r', 'o', 't', 'r'], [x, y, z] => do
    let a ← parseReg x
    let b ← parseReg y
    let c ← parseReg z
    some (.rotr a b c)
  | ['r', '2', 'm'], [m, r] => do
    let a ← parseMem m
    let rs ← parseReg r
    some (.r2m rs a)
  | ['m', '2', 'r'], [r, m] => do
    let rd ← parseReg r
    let a ← parseMem m
    some (.m2r a rd)
  | ['c', 'l', 'r'], [r] => do
    let rd ← parseReg r
    some (.clr rd)
  | _, _ => none

/-- A line cut at its first blank: the mnemonic and what follows it. -/
def splitMnemonic : List Char → List Char × List Char
  | [] => ([], [])
  | c :: rest => if c = ' ' then ([], rest) else (c :: (splitMnemonic rest).1, (splitMnemonic rest).2)

/-- The instruction of an assembly line; `none` where an assembler refuses it (R90). -/
def parseLine (line : List Char) : Option Instr :=
  let parts := splitMnemonic (trimBlanks line)
  let operands := (splitOn ',' parts.2).map trimBlanks
  match parseAluOp parts.1 with
  | some op => parseAlu op operands
  | none => parseOther parts.1 operands

/-- The word of an assembly line (R90). -/
def assemble (line : List Char) : Option IWord := (parseLine line).map encode

end Sys2Proof.Machine
end

