-- ==== Sys2Proof/Machine/Loader.lean ====
section
/-! DEFINITION. The stream loader: the instruction text is validated as a whole before edge 1 (60_exceptions R235,
70_reset_and_hazards R262), and its lines become PROG (30_encoding R70). -/

namespace Sys2Proof.Machine

/-- The lines of a text: it is split at each newline, and a newline at the very end starts no further line (R262). -/
def splitLines : List Char → List (List Char)
  | [] => []
  | c :: rest =>
    if c = '\n' then [] :: splitLines rest
    else
      match splitLines rest with
      | [] => [[c]]
      | line :: more => (c :: line) :: more

/-- The bit a character stands for. -/
def bitOfChar (c : Char) : Option Bool :=
  if c = '0' then some false else if c = '1' then some true else none

/-- The value of a line read left to right, most significant bit first, after the bits `acc` (R70). -/
def bitsValue : List Char → Nat → Option Nat
  | [], acc => some acc
  | c :: rest, acc =>
    match bitOfChar c with
    | none => none
    | some b => bitsValue rest (2 * acc + b.toNat)

/-- The word of a line of exactly 32 characters, each `0` or `1`; `none` for any other line (R70, R262). -/
def wordOfLine (line : List Char) : Option IWord :=
  if line.length = 32 then (bitsValue line 0).map (BitVec.ofNat 32) else none

/-- The loader's verdict on a text. -/
inductive StreamVerdict where
  /-- A validated program. -/
  | program (ws : List IWord)
  /-- `MalformedInstruction`, with the 0-based index of the first failing line (R235; log entry 12). -/
  | malformed (line : Nat)
deriving DecidableEq, Repr

/-- The verdict on the lines from the `k`-th on (R235). -/
def loadLines (k : Nat) : List (List Char) → StreamVerdict
  | [] => .program []
  | line :: rest =>
    match wordOfLine line with
    | none => .malformed k
    | some w =>
      match loadLines (k + 1) rest with
      | .program ws => .program (w :: ws)
      | .malformed j => .malformed j

/-- The verdict on a text (R262). -/
def loadStream (text : List Char) : StreamVerdict := loadLines 0 (splitLines text)

/-- What boot gives: a CORE in its reset state, or no run at all. -/
inductive Boot where
  | ready (s : State)
  | malformed (kind : ErrorKind) (line : Nat)
deriving DecidableEq, Repr

/-- Boot for given N and MEM_INIT: the text is validated, then the CORE is reset with it as PROG; a malformed text starts no
edge and makes no state (R235, R260, R262, R263). -/
def boot (n : Nat) (memInit : Nat → Word) (text : List Char) : Boot :=
  match loadStream text with
  | .program ws => .ready (State.resetWith n memInit ws)
  | .malformed k => .malformed .malformedInstruction k

/-- The `k` characters of a word from bit `k - 1` down (R70). -/
def lineChars (w : IWord) : Nat → List Char
  | 0 => []
  | k + 1 => (if w.getLsbD k then '1' else '0') :: lineChars w k

/-- The stream line of a word: character `j` is bit `31 - j` (R70). -/
def lineOfWord (w : IWord) : List Char := lineChars w 32

/-- The stream text of a program, one line a word, each ended by a newline (R262). -/
def textOfProgram : List IWord → List Char
  | [] => []
  | w :: rest => lineOfWord w ++ '\n' :: textOfProgram rest

end Sys2Proof.Machine
end

