-- ==== Sys2Proof/Machine/Ports.lean ====
section
/-! DEFINITION. The ports of the CORE and of its blocks (40_control_fsm R100, R101; 20_memory R54 to R57), each a function of
the state during the current step. No step of the model reads them: they say what hardware would show beside `edge`. A port
whose value the spec calls don't-care, or does not give, is `none` (log entry 11). -/

namespace Sys2Proof.Machine

/-! ### The step's signals -/

/-- The micro-operation of the current step, if the FSM is executing one (R107). -/
def State.activeMicro (s : State) : Option MicroOp :=
  match s.fsm with
  | .idle => none
  | .decoding => none
  | .executing c k => s.currentMicro c k
  | .draining _ => none
  | .halted => none

/-- `alu_fault`: an `ALU_EV` step whose latched operation is divide or modulo and whose latched `ab` is 0 (R101, R180). -/
def State.aluFault (s : State) : Bool :=
  decide (s.activeMicro = some .aluEv) && (decide (s.aop = 3) || decide (s.aop = 4)) && decide (s.ab = 0)

/-- The report the closing edge of this step appends, if any (R106, R107, R109, R234). -/
def State.raisedReport (s : State) : Option Report :=
  match s.fsm with
  | .idle => none
  | .decoding =>
    match s.queue with
    | [] => none
    | w :: _ =>
      match verdict s.memWords w with
      | .ok _ => none
      | .unrecognizedOpcode p =>
        some { kind := .unrecognizedOpcode, index := s.qidx, word := w, detail := .field .aluop p.toNat }
      | .addressOutOfRange f a =>
        some { kind := .addressOutOfRange, index := s.qidx, word := w, detail := .field f a.toNat }
  | .executing _ _ =>
    if s.aluFault then
      some { kind := .arithmeticFault, index := s.qidx, word := s.ir, detail := .division s.aop 0 }
    else none
  | .draining _ => none
  | .halted => none

/-- The step's closing edge retires the head (R108): a decode error, an arithmetic fault, or the last step of a class. -/
def State.retiresHead (s : State) : Bool :=
  match s.fsm with
  | .idle => false
  | .decoding => s.raisedReport.isSome
  | .executing c k => s.aluFault || decide (k + 1 = classSteps c)
  | .draining _ => false
  | .halted => false

/-- The dump record of this step, if the FSM is draining (R122). -/
def State.dumpedRecord (s : State) : Option DumpRecord :=
  match s.fsm with
  | .idle => none
  | .decoding => none
  | .executing _ _ => none
  | .draining i => some (s.dumpRecord i)
  | .halted => none

/-! ### External ports (R100) -/

/-- The ports of R100 other than `clk` and `rst`, which are `edge` and `clockEdge`. -/
structure ExternalPorts where
  qEmpty : Bool
  qHead : Option IWord
  qPop : Bool
  errValid : Bool
  errKind : Option (BitVec 3)
  errIndex : Option Nat
  errWord : Option IWord
  dumpValid : Bool
  dumpSpace : Option (BitVec 1)
  dumpIndex : Option (BitVec 8)
  dumpValue : Option Word
  halted : Bool
deriving DecidableEq, Repr

/-- The value of `dump_space`: 0 for a register, 1 for memory (R100, R122). -/
def Space.code : Space → BitVec 1
  | .reg => 0#1
  | .mem => 1#1

/-- The output `halted` (R39). -/
def State.halted (s : State) : Bool := decide (s.fsm = .halted)

/-- The external ports during the current step (R100). -/
def State.externalPorts (s : State) : ExternalPorts where
  qEmpty := s.queue.isEmpty
  qHead := s.queue.head?
  qPop := s.retiresHead
  errValid := s.raisedReport.isSome
  errKind := s.raisedReport.map fun r => r.kind.code
  errIndex := s.raisedReport.map fun r => r.index
  errWord := s.raisedReport.map fun r => r.word
  dumpValid := s.dumpedRecord.isSome
  dumpSpace := s.dumpedRecord.map fun d => d.space.code
  dumpIndex := s.dumpedRecord.map fun d => BitVec.ofNat 8 d.index
  dumpValue := s.dumpedRecord.map fun d => d.value
  halted := s.halted

/-! ### The register file's ports (R57, R101) -/

/-- One read port and one write port. -/
structure RegFilePorts where
  raddr : Option RegAddr
  we : Bool
  waddr : Option RegAddr
  wdata : Option Word
deriving DecidableEq, Repr

/-- `rf_rdata`: the committed value, also when the same step writes the same register (R57, R267). -/
def RegFilePorts.rdata (p : RegFilePorts) (regs : Vector Word 32) : Option Word :=
  p.raddr.map fun a => regs[a.toNat]

/-- The register file after the closing edge (R57). -/
def RegFilePorts.commit (p : RegFilePorts) (regs : Vector Word 32) : Vector Word 32 :=
  match p.we, p.waddr, p.wdata with
  | true, some a, some v => regs.set a.toNat v
  | true, some _, none => regs
  | true, none, _ => regs
  | false, _, _ => regs

/-- The register file's ports during the current step (R101). -/
def State.regFilePorts (s : State) : RegFilePorts where
  raddr :=
    match s.activeMicro with
    | some (.rdR _ a) => some a
    | _ => none
  we := s.rwl.isSome
  waddr := s.rwl
  wdata :=
    match s.activeMicro with
    | some (.wdR v) => some (s.sourceValue v)
    | _ => none

/-! ### The memory's ports (R54, R101) -/

/-- One address port, shared by reads and writes. -/
structure MemPorts where
  addr : Option MemAddr
  we : Bool
  wdata : Option Word
deriving DecidableEq, Repr

/-- `mem_rdata`: `M[mem_addr]` in a read cycle; in a write cycle the output is held, and its value is not given (R54, D27). -/
def MemPorts.rdata (p : MemPorts) (m : Memory) : Option Word :=
  if p.we then none else p.addr.map fun a => m.read a.toNat

/-- The memory after the closing edge (R55). -/
def MemPorts.commit (p : MemPorts) (m : Memory) : Memory :=
  match p.we, p.addr, p.wdata with
  | true, some a, some v => m.write a.toNat v
  | true, some _, none => m
  | true, none, _ => m
  | false, _, _ => m

/-- The memory's ports during the current step (R101). -/
def State.memPorts (s : State) : MemPorts where
  addr :=
    match s.mwl with
    | some a => some a
    | none =>
      match s.activeMicro with
      | some (.rdM _ a) => some a
      | _ => none
  we := s.mwl.isSome
  wdata :=
    match s.activeMicro with
    | some (.wdM v) => some (s.sourceValue v)
    | _ => none

/-! ### The ALU's ports (R101, R114) -/

/-- The ALU's inputs and outputs. -/
structure AluPorts where
  ld : Bool
  op : Option AluCode
  a : Option Word
  b : Option Word
  ev : Bool
  q : AluResult
  fault : Bool
deriving DecidableEq, Repr

/-- The ALU's ports during the current step (R101). -/
def State.aluPorts (s : State) : AluPorts :=
  match s.activeMicro with
  | some (.aluLd op) =>
    { ld := true, op := some op.code, a := some s.t0, b := some s.t1, ev := false, q := s.aluQ, fault := s.aluFault }
  | some .aluEv => { ld := false, op := none, a := none, b := none, ev := true, q := s.aluQ, fault := s.aluFault }
  | _ => { ld := false, op := none, a := none, b := none, ev := false, q := s.aluQ, fault := s.aluFault }

end Sys2Proof.Machine
end

