-- ==== Sys2Proof/Safety.lean ====
section
/-! DEFINITION. What holds of every state the CORE can be in, as the spec says it: the terms the claims use. -/

namespace Sys2Proof.Machine

/-- The register latch that step `k` of instruction `i` finds: `some a` exactly after an address phase `WA_R(a)` (R32,
R112). -/
def rwlBefore (i : Instr) (k : Nat) : Option RegAddr :=
  match k with
  | 0 => none
  | j + 1 =>
    match (microOps i)[j]? with
    | some (.waR a) => some a
    | _ => none

/-- The memory latch that step `k` of instruction `i` finds (R32, R112). -/
def mwlBefore (i : Instr) (k : Nat) : Option MemAddr :=
  match k with
  | 0 => none
  | j + 1 =>
    match (microOps i)[j]? with
    | some (.waM a) => some a
    | _ => none

/-- Both write-address latches are empty (R32). -/
def State.latchesClear (s : State) : Prop := s.rwl = none ∧ s.mwl = none

/-- What the FSM state says of the rest of the state (R28, R29, R30, R32, R106, R107, R120): `Decoding` has a head;
`Executing(c, k)` has in IR the head, which decodes to an instruction of class `c` with a step `k`, and the latches of that
step, and at `ALU_EV` the instruction's own sub-opcode is latched; the drain has an empty queue and an index below 32 + N. -/
def State.ControlOk (s : State) : Prop :=
  match s.fsm with
  | .idle => s.latchesClear
  | .decoding => s.queue ≠ [] ∧ s.latchesClear
  | .executing c k =>
    s.queue.head? = some s.ir ∧
      ∃ i, verdict s.memWords s.ir = .ok i ∧ i.cls = c ∧ k < classSteps c ∧
        s.rwl = rwlBefore i k ∧ s.mwl = mwlBefore i k ∧
        ((microOps i)[k]? = some .aluEv → s.aop = aluopField s.ir)
  | .draining i => s.queue = [] ∧ i < s.drainLength ∧ s.latchesClear
  | .halted => s.queue = [] ∧ s.latchesClear

/-- The invariant of the CORE: the memory in its form with N in its range, and the control state consistent. -/
def State.Inv (s : State) : Prop := s.mem.wf = true ∧ s.ControlOk

/-- The first `i` dump records of a state (R122). -/
def State.dumpPrefix (s : State) (i : Nat) : List DumpRecord := (List.range i).map s.dumpRecord

/-- The dump so far is what the FSM state says (R38, R121, R122): nothing before the drain, the first `i` records at
`Draining(i)`, all 32 + N of them in `Halted`. -/
def State.DumpOk (s : State) : Prop :=
  match s.fsm with
  | .idle => s.dump = []
  | .decoding => s.dump = []
  | .executing _ _ => s.dump = []
  | .draining i => s.dump = s.dumpPrefix i
  | .halted => s.dump = s.dumpPrefix s.drainLength

/-- Two states that a program cannot tell apart at an instruction boundary: all is equal but the hidden registers IR, T0, T1,
T2, the ALU latches and the ALU result (R30, R31, R33). -/
def State.SameArchitectural (s t : State) : Prop :=
  s.regs = t.regs ∧ s.mem = t.mem ∧ s.queue = t.queue ∧ s.qidx = t.qidx ∧ s.fsm = t.fsm ∧
    s.rwl = t.rwl ∧ s.mwl = t.mwl ∧ s.reports = t.reports ∧ s.dump = t.dump

/-- At an instruction boundary, outside any instruction: the FSM is not executing. -/
def State.atBoundary (s : State) : Prop :=
  match s.fsm with
  | .idle => True
  | .decoding => True
  | .executing _ _ => False
  | .draining _ => True
  | .halted => True

end Sys2Proof.Machine
end

