-- ==== Sys2Proof/Certificates/Slice0/Obligations.lean ====
section
/-! DEFINITION. The statements for the provers. The helpers under `Sys2Proof.Claims` write the spec's words out on their own,
so that a statement does not repeat the definition it speaks of. -/

namespace Sys2Proof.Claims

open Sys2Proof.Machine

/-- Where the FSM goes at a retirement that leaves the queue `rest` (R108). -/
def nextFsm (rest : List IWord) : Fsm := if rest = [] then .draining 0 else .decoding

/-- `s` with the head retired, the queue left being `rest` (R108). -/
def retired (s : State) (rest : List IWord) : State :=
  { s with queue := rest, qidx := s.qidx + 1, fsm := nextFsm rest }

/-- `s` after an instruction `w` that decodes `Ok` and changes no more than R143 calls common: IR and retirement. -/
def common (s : State) (w : IWord) (rest : List IWord) : State :=
  { retired s rest with ir := w }

/-- `s` after an instruction that raised `kind` with `detail` (R234, R236). -/
def reported (s : State) (rest : List IWord) (kind : ErrorKind) (w : IWord) (detail : Detail) : State :=
  { retired s rest with
    reports := s.reports ++ [{ kind := kind, index := s.qidx, word := w, detail := detail }] }

/-- `s` after an ALU instruction with sub-opcode `p` whose result is `q` (R160). The result register holds `q` modulo 2^32
and `rd` holds `q` modulo 2^16 (R161, R175). -/
def aluDone (s : State) (w : IWord) (rest : List IWord) (p : AluCode) (rs1 rs2 rd : RegAddr) (q : Nat) : State :=
  { common s w rest with
    regs := s.regs.set rd.toNat (BitVec.ofNat 16 q)
    t0 := s.regs[rs1.toNat]
    t1 := s.regs[rs2.toNat]
    rwl := none
    aop := p
    aa := s.regs[rs1.toNat]
    ab := s.regs[rs2.toNat]
    aluQ := BitVec.ofNat 32 q }

/-- `s` after an ALU instruction with sub-opcode `p` that raised `ArithmeticFault` (R180). -/
def aluFaulted (s : State) (w : IWord) (rest : List IWord) (p : AluCode) (rs1 rs2 : RegAddr) : State :=
  { reported s rest .arithmeticFault w (.division p 0) with
    ir := w
    t0 := s.regs[rs1.toNat]
    t1 := s.regs[rs2.toNat]
    aop := p
    aa := s.regs[rs1.toNat]
    ab := s.regs[rs2.toNat] }

/-- `s` after step `k` of class `c`, whose commits are already in `s`: the next step, or retirement (R107). -/
def advanced (s : State) (c : InstrClass) (k : Nat) : State :=
  if k + 1 = classSteps c then retired s s.queue.tail else { s with fsm := .executing c (k + 1) }

/-- `s` with `v` in a temporary. -/
def withTemp (s : State) (t : Temp) (v : Word) : State :=
  match t with
  | .t0 => { s with t0 := v }
  | .t1 => { s with t1 := v }
  | .t2 => { s with t2 := v }

/-- The decode function of R87, written out as it stands there: opcode in bits 31 to 29, the fields by their bit positions,
the range checks in the order the rule gives them. -/
def decodeR87 (n : Nat) (w : IWord) : Verdict :=
  let op := (w.extractLsb' 29 3).toNat
  let m28 : MemAddr := w.extractLsb' 21 8
  let m20 : MemAddr := w.extractLsb' 13 8
  let m12 : MemAddr := w.extractLsb' 5 8
  let m23 : MemAddr := w.extractLsb' 16 8
  let r28 : RegAddr := w.extractLsb' 24 5
  let r23 : RegAddr := w.extractLsb' 19 5
  let r18 : RegAddr := w.extractLsb' 14 5
  let r20 : RegAddr := w.extractLsb' 16 5
  let p : AluCode := w.extractLsb' 10 4
  let d : Word := w.extractLsb' 0 16
  if op = 0 then
    if n ≤ m28.toNat then .addressOutOfRange .maddr m28 else .ok (.wmem m28 d)
  else if op = 1 then .ok (.wreg r28 d)
  else if op = 2 then
    if p = 0 then .ok (.add r28 r23 r18)
    else if p = 1 then .ok (.sub r28 r23 r18)
    else if p = 2 then .ok (.mul r28 r23 r18)
    else if p = 3 then .ok (.div r28 r23 r18)
    else if p = 4 then .ok (.mod r28 r23 r18)
    else if p = 5 then .ok (.pow r28 r23 r18)
    else if p = 6 then .ok (.and r28 r23 r18)
    else if p = 7 then .ok (.or r28 r23 r18)
    else if p = 8 then .ok (.nand r28 r23 r18)
    else if p = 9 then .ok (.nor r28 r23 r18)
    else if p = 10 then .ok (.xor r28 r23 r18)
    else if p = 11 then .ok (.xnor r28 r23 r18)
    else if p = 12 then .ok (.not r28 r23 r18)
    else .unrecognizedOpcode p
  else if op = 3 then
    if n ≤ m28.toNat then .addressOutOfRange .ma m28
    else if n ≤ m20.toNat then .addressOutOfRange .mb m20
    else if n ≤ m12.toNat then .addressOutOfRange .mc m12
    else .ok (.rotm m28 m20 m12)
  else if op = 4 then .ok (.rotr r28 r23 r18)
  else if op = 5 then
    if n ≤ m23.toNat then .addressOutOfRange .maddr m23 else .ok (.r2m r28 m23)
  else if op = 6 then
    if n ≤ m28.toNat then .addressOutOfRange .maddr m28 else .ok (.m2r m28 r20)
  else .ok (.clr r28)

/-- `E(w)` at state `s` (R127): 1 with a decode error; 5 for a divide or modulo word whose operand-2 register holds 0;
otherwise 1 and the steps of its class (R110). -/
def wordCost (s : State) (w : IWord) : Nat :=
  match decodeR87 s.mem.size w with
  | .ok i =>
    let p := (w.extractLsb' 10 4).toNat
    let rs2 : RegAddr := w.extractLsb' 19 5
    if i.cls = .aluOperation ∧ (p = 3 ∨ p = 4) ∧ s.regs[rs2.toNat] = 0 then 5 else 1 + classSteps i.cls
  | .unrecognizedOpcode _ => 1
  | .addressOutOfRange _ _ => 1

/-- The edges of the next `n` queued words, each counted at the state in which it is decoded (R127). -/
def queueEdges : Nat → State → Nat
  | 0, _ => 0
  | n + 1, s =>
    match s.queue, step s with
    | w :: _, .next t => wordCost s w + queueEdges n t
    | _, _ => 0

/-- The dump record of drain index `i` (R122). -/
def recordR122 (s : State) (i : Nat) : DumpRecord :=
  if h : i < 32 then { space := .reg, index := i, value := s.regs[i] }
  else { space := .mem, index := i - 32, value := s.mem.read (i - 32) }

/-- The state after the `Idle` edge (R105). -/
def afterIdle (s : State) : State := { s with fsm := nextFsm s.queue }

end Sys2Proof.Claims

section Statements

open Sys2Proof Sys2Proof.Machine Sys2Proof.Claims

/-! ### Reset -/

/-- R24, R260: reset for any N, MEM_INIT and PROG. -/
def Obligations.ResetPutsEveryField : Prop :=
  ∀ (n : Nat) (f : Nat → Word) (prog : List IWord) (s : State), s = State.resetWith n f prog →
    s.fsm = .idle ∧ (∀ a : RegAddr, s.readReg a = 0) ∧
    s.mem.size = n ∧ (∀ a, a < n → s.mem.read a = f a) ∧
    s.queue = prog ∧ s.qidx = 0 ∧ s.ir = 0 ∧ s.t0 = 0 ∧ s.t1 = 0 ∧ s.t2 = 0 ∧
    s.rwl = none ∧ s.mwl = none ∧ s.aop = 0 ∧ s.aa = 0 ∧ s.ab = 0 ∧ s.aluQ = 0 ∧
    s.reports = [] ∧ s.dump = []

/-- The model's choice of the OPEN parameters for `State.reset` (log entries 2, 3 and 4): N = 16, zeros, no program. -/
def Obligations.DefaultResetParameters : Prop :=
  State.reset = State.resetWith 16 (fun _ => 0) []

/-! ### Encoding -/

/-- R74 to R81, R87: decoding an encoded well-formed instruction gives it back, for every N and every operand. -/
def Obligations.DecodeOfEncode : Prop :=
  ∀ (n : Nat) (i : Instr), i.wellFormed n = true → verdict n (encode i) = .ok i

/-- R87: the decoder is the rule's function, on every word and for every N. -/
def Obligations.DecoderIsRuleEightySeven : Prop :=
  ∀ (n : Nat) (w : IWord), verdict n w = decodeR87 n w

/-- R82: two words of one format that differ only in filler bits have one verdict; an encoded word's filler bits are 0. -/
def Obligations.FillerBitsIgnored : Prop :=
  (∀ (n : Nat) (v w : IWord), formatOf v = formatOf w →
    v &&& ~~~(formatOf v).fillerMask = w &&& ~~~(formatOf w).fillerMask → verdict n v = verdict n w) ∧
  (∀ i : Instr, encode i &&& i.cls.fillerMask = 0)

/-- R71 to R82: a word the decoder accepts is, but for its filler bits, the encoding of the instruction it decodes to. -/
def Obligations.AcceptedWordIsItsEncoding : Prop :=
  ∀ (n : Nat) (w : IWord) (i : Instr), verdict n w = .ok i →
    formatOf w = i.cls ∧ w &&& ~~~i.cls.fillerMask = encode i ∧ i.wellFormed n = true

/-- Words of the spec's own examples (30_encoding section 9, 41 to 43, 95 section 2.1), bit by bit. -/
def Obligations.ExampleWordsDecode : Prop :=
  verdict 16 0b00000000010000000001001000110100#32 = .ok (.wmem 2 0x1234) ∧
  verdict 16 0b00100011000000000000000000000101#32 = .ok (.wreg 3 5) ∧
  verdict 16 0b01000011001000010100000000000000#32 = .ok (.add 3 4 5) ∧
  verdict 16 0b01100000000000000010000001000000#32 = .ok (.rotm 0 1 2) ∧
  verdict 16 0b10000001000100001100000000000000#32 = .ok (.rotr 1 2 3) ∧
  verdict 16 0b10100011000001010000000000000000#32 = .ok (.r2m 3 5) ∧
  verdict 16 0b11000000101001000000000000000000#32 = .ok (.m2r 5 4) ∧
  verdict 16 0b11100111000000000000000000000000#32 = .ok (.clr 7) ∧
  verdict 16 0x40003C00#32 = .unrecognizedOpcode 15 ∧
  verdict 16 0x7FFFFFE0#32 = .addressOutOfRange .ma 255

/-! ### The step and the edge -/

/-- In `Decoding`, a head that decodes to an instruction makes the step that instruction's meaning. R106 and R107 give single
edges; that one step is the whole instruction is the model's choice (log entry 1, DESIGN CHOICE), and
`Obligations.StepIsItsEdges` ties it to the edges. -/
def Obligations.StepRunsDecodedInstruction : Prop :=
  ∀ (s : State) (w : IWord) (rest : List IWord) (i : Instr),
    s.fsm = .decoding → s.queue = w :: rest → verdict s.memWords w = .ok i → step s = exec i s

/-- R105: the `Idle` edge, which is also the step, changes the FSM state only; no edge enters `Idle`. -/
def Obligations.IdleEdge : Prop :=
  (∀ s : State, s.fsm = .idle →
    edge s = .next { s with fsm := if s.queue = [] then .draining 0 else .decoding } ∧ step s = edge s) ∧
  (∀ s t : State, edge s = .next t → t.fsm ≠ .idle)

/-- R106: the `Decoding` edge. The head is read, not removed, when it decodes `Ok`; an error is reported and the word
retired at this edge. The FSM is in `Decoding` only with a queued word. -/
def Obligations.DecodingEdge : Prop :=
  (∀ (s : State) (w : IWord) (rest : List IWord), s.fsm = .decoding → s.queue = w :: rest →
    edge s =
      match decodeR87 s.memWords w with
      | .ok i => .next { s with ir := w, fsm := .executing i.cls 0 }
      | .unrecognizedOpcode p => .next (reported s rest .unrecognizedOpcode w (.field .aluop p.toNat))
      | .addressOutOfRange f a => .next (reported s rest .addressOutOfRange w (.field f a.toNat))) ∧
  (∀ s t : State, edge s = .next t → t.fsm = .decoding → t.queue ≠ [])

/-- R111: a read step drives the store's address and puts the value committed before the step into a temporary. -/
def Obligations.ReadStepEdge : Prop :=
  (∀ (s : State) (c : InstrClass) (k : Nat) (t : Temp) (a : RegAddr),
    s.fsm = .executing c k → s.currentMicro c k = some (.rdR t a) →
    s.regFilePorts.raddr = some a ∧ edge s = .next (advanced (withTemp s t s.regs[a.toNat]) c k)) ∧
  (∀ (s : State) (c : InstrClass) (k : Nat) (t : Temp) (a : MemAddr),
    s.fsm = .executing c k → s.currentMicro c k = some (.rdM t a) → s.mwl = none → a.toNat < s.mem.size →
    s.memPorts.addr = some a ∧ s.memPorts.we = false ∧
    edge s = .next (advanced (withTemp s t (s.mem.read a.toNat)) c k))

/-- R112: an address phase sets the latch and writes nothing; a data phase asserts the write-enable with the latched address
and the value, writes it and clears the latch; in every table each address phase is followed at once by the data phase of
the same store. -/
def Obligations.WriteStepEdges : Prop :=
  (∀ (s : State) (c : InstrClass) (k : Nat) (a : RegAddr),
    s.fsm = .executing c k → s.currentMicro c k = some (.waR a) →
    edge s = .next (advanced { s with rwl := some a } c k)) ∧
  (∀ (s : State) (c : InstrClass) (k : Nat) (v : Source) (a : RegAddr),
    s.fsm = .executing c k → s.currentMicro c k = some (.wdR v) → s.rwl = some a →
    (s.regFilePorts.we = true ∧ s.regFilePorts.waddr = some a ∧ s.regFilePorts.wdata = some (s.sourceValue v)) ∧
    edge s = .next (advanced { s with regs := s.regs.set a.toNat (s.sourceValue v), rwl := none } c k)) ∧
  (∀ (s : State) (c : InstrClass) (k : Nat) (a : MemAddr),
    s.fsm = .executing c k → s.currentMicro c k = some (.waM a) → a.toNat < s.mem.size →
    edge s = .next (advanced { s with mwl := some a } c k)) ∧
  (∀ (s : State) (c : InstrClass) (k : Nat) (v : Source) (a : MemAddr),
    s.fsm = .executing c k → s.currentMicro c k = some (.wdM v) → s.mwl = some a → a.toNat < s.mem.size →
    (s.memPorts.we = true ∧ s.memPorts.addr = some a ∧ s.memPorts.wdata = some (s.sourceValue v)) ∧
    edge s = .next (advanced { s with mem := s.mem.write a.toNat (s.sourceValue v), mwl := none } c k)) ∧
  (∀ (i : Instr) (k : Nat) (a : RegAddr), (microOps i)[k]? = some (.waR a) →
    ∃ v, (microOps i)[k + 1]? = some (.wdR v)) ∧
  (∀ (i : Instr) (k : Nat) (a : MemAddr), (microOps i)[k]? = some (.waM a) →
    ∃ v, (microOps i)[k + 1]? = some (.wdM v))

/-- R114: `ALU_LD` drives `alu_ld` and latches the sub-opcode of the word in IR, T0 and T1; `ALU_EV` drives `alu_ev` and
loads the result register, or raises the fault and leaves it. -/
def Obligations.AluStepEdges : Prop :=
  (∀ (s : State) (c : InstrClass) (k : Nat) (op : AluOp),
    s.fsm = .executing c k → s.currentMicro c k = some (.aluLd op) →
    s.aluPorts.ld = true ∧
    edge s = .next (advanced { s with aop := aluopField s.ir, aa := s.t0, ab := s.t1 } c k)) ∧
  (∀ (s : State) (c : InstrClass) (k : Nat) (op : AluOp) (q : AluResult),
    s.fsm = .executing c k → s.currentMicro c k = some .aluEv → s.aop = op.code → aluF op s.aa s.ab = some q →
    s.aluPorts.ev = true ∧ edge s = .next (advanced { s with aluQ := q } c k)) ∧
  (∀ (s : State) (c : InstrClass) (k : Nat) (op : AluOp),
    s.fsm = .executing c k → s.currentMicro c k = some .aluEv → s.aop = op.code → aluF op s.aa s.ab = none →
    s.aluPorts.ev = true ∧
    edge s = .next (reported s s.queue.tail .arithmeticFault s.ir (.division s.aop 0)))

/-- R110: the number of micro-steps of every instruction. -/
def Obligations.MicroStepCounts : Prop :=
  (∀ a d, (microOps (.wmem a d)).length = 2) ∧
  (∀ r d, (microOps (.wreg r d)).length = 2) ∧
  (∀ (op : AluOp) (x y z : RegAddr), (microOps (op.instr x y z)).length = 6) ∧
  (∀ a b c, (microOps (.rotm a b c)).length = 9) ∧
  (∀ a b c, (microOps (.rotr a b c)).length = 9) ∧
  (∀ r a, (microOps (.r2m r a)).length = 3) ∧
  (∀ a r, (microOps (.m2r a r)).length = 3) ∧
  (∀ r, (microOps (.clr r)).length = 2) ∧
  (∀ i : Instr, (microOps i).length = classSteps i.cls)

/-- R113: no step reads a store in the data phase of a write to it, and every table has all its reads before its first
write. -/
def Obligations.ReadsComeBeforeWrites : Prop :=
  (∀ (i : Instr) (j k : Nat), j < k →
    ((∃ a, (microOps i)[j]? = some (.waR a)) ∨ (∃ a, (microOps i)[j]? = some (.waM a)) ∨
      (∃ v, (microOps i)[j]? = some (.wdR v)) ∨ (∃ v, (microOps i)[j]? = some (.wdM v))) →
    (∀ t a, (microOps i)[k]? ≠ some (.rdR t a)) ∧ (∀ t a, (microOps i)[k]? ≠ some (.rdM t a))) ∧
  (∀ s : State, s.Inv → s.rwl.isSome = true → ∀ t a, s.activeMicro ≠ some (.rdR t a)) ∧
  (∀ s : State, s.Inv → s.mwl.isSome = true → ∀ t a, s.activeMicro ≠ some (.rdM t a))

/-- R27, R28, R108: an edge leaves the queue and `qidx` alone, or removes the head and adds 1, exactly when it retires. -/
def Obligations.QueueChangesOnlyAtRetirement : Prop :=
  ∀ s t : State, edge s = .next t →
    (s.retiresHead = true →
      t.queue = s.queue.tail ∧ t.qidx = s.qidx + 1 ∧ t.fsm = nextFsm s.queue.tail) ∧
    (s.retiresHead = false → t.queue = s.queue ∧ t.qidx = s.qidx)

/-- R109: a report is appended only at a `Decoding` edge or an `ALU_EV` edge, at most one per edge, and the edge retires the
instruction, so at most one per instruction. -/
def Obligations.AtMostOneReportPerEdge : Prop :=
  ∀ s t : State, edge s = .next t →
    t.reports = s.reports ∨
    ∃ r : Report, t.reports = s.reports ++ [r] ∧ r.index = s.qidx ∧ t.qidx = s.qidx + 1 ∧
      (s.fsm = .decoding ∨ s.activeMicro = some .aluEv)

/-- R23: only the register whose write-enable is asserted can change at an edge; the same for memory words. -/
def Obligations.AtMostOneWritePerEdge : Prop :=
  ∀ s t : State, edge s = .next t →
    (∀ b : RegAddr, s.rwl ≠ some b → t.readReg b = s.readReg b) ∧
    (s.mem.wf = true → ∀ x : Nat, (∀ a, s.mwl = some a → a.toNat ≠ x) → t.mem.read x = s.mem.read x)

/-- R176: the result register changes only at an `ALU_EV` edge that does not fault, the input latch only at an `ALU_LD`
edge. -/
def Obligations.AluOutputIsRegistered : Prop :=
  ∀ s t : State, edge s = .next t →
    (t.aluQ ≠ s.aluQ → s.activeMicro = some .aluEv ∧ s.aluFault = false) ∧
    ((t.aop ≠ s.aop ∨ t.aa ≠ s.aa ∨ t.ab ≠ s.ab) → ∃ op, s.activeMicro = some (.aluLd op))

/-- R120: `Draining` is entered at index 0, from `Idle` with an empty queue and at the retirement of the last queued
instruction, and from nowhere else. -/
def Obligations.DrainEntry : Prop :=
  (∀ s t : State, edge s = .next t →
    (s.fsm = .idle ∧ s.queue = []) ∨ (s.retiresHead = true ∧ s.queue.tail = []) → t.fsm = .draining 0) ∧
  (∀ (s t : State) (j : Nat), edge s = .next t → t.fsm = .draining j → (∀ i, s.fsm ≠ .draining i) →
    j = 0 ∧ ((s.fsm = .idle ∧ s.queue = []) ∨ (s.retiresHead = true ∧ s.queue.tail = [])))

/-- R121: a `Draining(i)` edge appends the record of index `i` (R122); the drain takes 32 + N edges, one record each: the
registers 0 to 31, then the memory words 0 to N-1; then `Halted`. -/
def Obligations.DrainDumpsRegistersThenMemory : Prop :=
  (∀ (s : State) (i : Nat), s.fsm = .draining i → i < 32 + s.mem.size →
    edge s = .next { s with
      dump := s.dump ++ [recordR122 s i]
      fsm := if i + 1 = 32 + s.mem.size then .halted else .draining (i + 1) }) ∧
  (∀ s : State, s.fsm = .draining 0 →
    edges (32 + s.mem.size) s = .next { s with
      fsm := .halted
      dump := s.dump ++
        (List.finRange 32).map (fun i => { space := .reg, index := i.val, value := s.regs[i.val] }) ++
        (List.range s.mem.size).map (fun a => { space := .mem, index := a, value := s.mem.read a }) } ∧
    ∀ k, k < 32 + s.mem.size → ∃ t, edges k s = .next t ∧ t.fsm = .draining k ∧ t.dump.length = s.dump.length + k)

/-- R123: `Halted` is terminal, for the edge and for the step. -/
def Obligations.HaltedIsTerminal : Prop :=
  ∀ s : State, s.fsm = .halted → edge s = .next s ∧ step s = .next s

/-- R264: after reset is released, `rst` is refused; without it a clock edge is `Edge`. -/
def Obligations.LateResetRefused : Prop :=
  ∀ s : State, clockEdge true s = .refused .resetDuringRun ∧ clockEdge false s = edge s

/-- R104, R107, R127, R269: a step is the edges it stands for, from every state: the whole instruction's edges in
`Decoding`, one edge elsewhere. The grouping is the model's choice (log entry 1, DESIGN CHOICE). -/
def Obligations.StepIsItsEdges : Prop :=
  ∀ s : State, step s = edges (stepEdges s) s

/-- R127, R269: a queued word that decodes `Ok` occupies one `Decoding` edge and its class's steps, 5 edges in all when it
raises `ArithmeticFault`: in between, the FSM is at each step of the class in turn with the head still queued, and the last
of these edges, none before it, retires the head. -/
def Obligations.InstructionOccupiesItsEdges : Prop :=
  ∀ (s : State) (w : IWord) (rest : List IWord) (i : Instr), s.Inv → s.fsm = .decoding → s.queue = w :: rest →
    verdict s.memWords w = .ok i →
    (wordEdges w s = 1 + classSteps i.cls ∨
      (wordEdges w s = 5 ∧ ∃ x y z, (i = .div x y z ∨ i = .mod x y z) ∧ s.readReg y = 0)) ∧
    (∀ k, k + 1 < wordEdges w s →
      ∃ t, edges (k + 1) s = .next t ∧ t.fsm = .executing i.cls k ∧ t.queue = s.queue ∧ t.qidx = s.qidx) ∧
    ∃ t, edges (wordEdges w s) s = .next t ∧ t.queue = rest ∧ t.qidx = s.qidx + 1 ∧ t.fsm = nextFsm rest

/-! ### Invariants -/

/-- Reset meets the invariant, for every N in its range, every MEM_INIT and every PROG. -/
def Obligations.ResetMeetsInvariant : Prop :=
  ∀ (n : Nat) (f : Nat → Word) (prog : List IWord), 1 ≤ n → n ≤ 256 →
    (State.resetWith n f prog).Inv ∧ (State.resetWith n f prog).DumpOk

/-- Every edge keeps the invariant: the memory's form, and the control state as R29, R32, R106 and R107 describe it. -/
def Obligations.EdgeKeepsInvariant : Prop :=
  ∀ s t : State, s.Inv → edge s = .next t → t.Inv

/-- Every step keeps the invariant. What one step takes in is the model's choice (log entry 1). -/
def Obligations.StepKeepsInvariant : Prop :=
  ∀ s t : State, s.Inv → step s = .next t → t.Inv

/-- No fault and no refusal from a state that meets the invariant: the CORE never stops (R103, R239, R246). What one
step takes in is the model's choice (log entry 1). -/
def Obligations.InvariantNeverStops : Prop :=
  ∀ s : State, s.Inv → (∃ t, edge s = .next t) ∧ (∃ t, step s = .next t)

/-- R38, R121, R122: the dump is what the FSM state says, at every edge and every step. -/
def Obligations.DumpFollowsDrain : Prop :=
  (∀ s t : State, s.DumpOk → edge s = .next t → t.DumpOk) ∧
  (∀ s t : State, s.DumpOk → step s = .next t → t.DumpOk)

/-- R32: a write-address latch holds an address, a memory address below N, exactly during the data phase of a write to that
store; both are empty after reset. -/
def Obligations.LatchHoldsExactlyInDataPhase : Prop :=
  (∀ s : State, s.Inv →
    (s.rwl.isSome = true ↔ ∃ v, s.activeMicro = some (.wdR v)) ∧
    (s.mwl.isSome = true ↔ ∃ v, s.activeMicro = some (.wdM v)) ∧
    (∀ a, s.mwl = some a → a.toNat < s.mem.size) ∧
    (s.regFilePorts.we = s.rwl.isSome ∧ s.regFilePorts.waddr = s.rwl) ∧
    (s.memPorts.we = s.mwl.isSome ∧ ∀ a, s.mwl = some a → s.memPorts.addr = some a)) ∧
  (∀ (n : Nat) (f : Nat → Word) (prog : List IWord),
    (State.resetWith n f prog).rwl = none ∧ (State.resetWith n f prog).mwl = none)

/-- Every program ends (R270): from `Idle`, one step, one step for each queued word and 32 + N more reach `Halted` with the
queue used up, and no fewer do. R270 and R127 count edges, as `Obligations.RunLengthInEdges` does; that a queued word is one
step is the model's choice (log entry 1, DESIGN CHOICE). -/
def Obligations.EveryProgramHalts : Prop :=
  ∀ s : State, s.Inv → s.fsm = .idle →
    let total := 1 + s.queue.length + (32 + s.mem.size)
    (∃ t, steps total s = .next t ∧ t.fsm = .halted ∧ t.queue = [] ∧
      t.qidx = s.qidx + s.queue.length ∧ t.mem.size = s.mem.size) ∧
    ∀ k, k < total → ∃ t, steps k s = .next t ∧ t.fsm ≠ .halted

/-- R127: a run reaches `Halted` after exactly one `Idle` edge, the edges of its words, and 32 + N edges of drain. -/
def Obligations.RunLengthInEdges : Prop :=
  ∀ s : State, s.Inv → s.fsm = .idle →
    let total := 1 + queueEdges s.queue.length (afterIdle s) + (32 + s.mem.size)
    (∃ t, edges total s = .next t ∧ t.fsm = .halted) ∧
    ∀ k, k < total → ∃ t, edges k s = .next t ∧ t.fsm ≠ .halted

/-! ### Instructions: results, completion and frame

Each is an equation for the whole next state: what it does not name is unchanged. -/

/-- R140: `wmem`: its fields, its micro-steps, its net effect for every address below N and every literal, its error for
every other address. -/
def Obligations.WriteMemoryResult : Prop :=
  (∀ (n : Nat) (w : IWord), w.extractLsb' 29 3 = 0#3 → (w.extractLsb' 21 8).toNat < n →
    verdict n w = .ok (.wmem (w.extractLsb' 21 8) (w.extractLsb' 0 16))) ∧
  (∀ (a : MemAddr) (d : Word), microOps (.wmem a d) = [.waM a, .wdM (.literal d)]) ∧
  (∀ (s : State) (w : IWord) (rest : List IWord) (a : MemAddr) (d : Word), s.queue = w :: rest →
    (a.toNat < s.mem.size →
      exec (.wmem a d) s = .next { common s w rest with mem := s.mem.write a.toNat d, mwl := none }) ∧
    (s.mem.size ≤ a.toNat →
      exec (.wmem a d) s = .next (reported s rest .addressOutOfRange w (.field .maddr a.toNat))) ∧
    (s.mem.wf = true →
      (s.mem.write a.toNat d).read a.toNat = d ∧
      ∀ x, x ≠ a.toNat → (s.mem.write a.toNat d).read x = s.mem.read x))

/-- R141: `wreg`: its fields, its micro-steps, its net effect for every register, register 0 among them (R21). -/
def Obligations.WriteRegisterResult : Prop :=
  (∀ (n : Nat) (w : IWord), w.extractLsb' 29 3 = 1#3 →
    verdict n w = .ok (.wreg (w.extractLsb' 24 5) (w.extractLsb' 0 16))) ∧
  (∀ (rd : RegAddr) (d : Word), microOps (.wreg rd d) = [.waR rd, .wdR (.literal d)]) ∧
  (∀ (s : State) (w : IWord) (rest : List IWord) (rd : RegAddr) (d : Word), s.queue = w :: rest →
    exec (.wreg rd d) s = .next { common s w rest with regs := s.regs.set rd.toNat d, rwl := none })

/-- R142: `clr`: every word of its class, its micro-steps, its net effect. -/
def Obligations.ClearRegisterResult : Prop :=
  (∀ (n : Nat) (w : IWord), w.extractLsb' 29 3 = 7#3 → verdict n w = .ok (.clr (w.extractLsb' 24 5))) ∧
  (∀ rd : RegAddr, microOps (.clr rd) = [.waR rd, .wdR (.literal 0)]) ∧
  (∀ (s : State) (w : IWord) (rest : List IWord) (rd : RegAddr), s.queue = w :: rest →
    exec (.clr rd) s = .next { common s w rest with regs := s.regs.set rd.toNat 0, rwl := none })

/-- R162, R163, R164, R167: `add`, `sub`, `mul`, `pow`. `2^32 + a - b` is the natural number congruent to `a - b` modulo
2^32 and modulo 2^16. The first two clauses are the fields and the micro-step table that R160 gives all thirteen ALU
instructions. -/
def Obligations.ArithmeticResults : Prop :=
  (∀ (n : Nat) (w : IWord) (op : AluOp), w.extractLsb' 29 3 = 2#3 → w.extractLsb' 10 4 = op.code →
    verdict n w = .ok (op.instr (w.extractLsb' 24 5) (w.extractLsb' 19 5) (w.extractLsb' 14 5))) ∧
  (∀ (op : AluOp) (rs1 rs2 rd : RegAddr), microOps (op.instr rs1 rs2 rd) =
    [.rdR .t0 rs1, .rdR .t1 rs2, .aluLd op, .aluEv, .waR rd, .wdR .aluLow]) ∧
  (∀ (s : State) (w : IWord) (rest : List IWord) (rs1 rs2 rd : RegAddr) (a b : Nat), s.queue = w :: rest →
    a = (s.regs[rs1.toNat]).toNat → b = (s.regs[rs2.toNat]).toNat →
    exec (.add rs1 rs2 rd) s = .next (aluDone s w rest 0 rs1 rs2 rd (a + b)) ∧
    exec (.sub rs1 rs2 rd) s = .next (aluDone s w rest 1 rs1 rs2 rd (2 ^ 32 + a - b)) ∧
    exec (.mul rs1 rs2 rd) s = .next (aluDone s w rest 2 rs1 rs2 rd (a * b)) ∧
    exec (.pow rs1 rs2 rd) s = .next (aluDone s w rest 5 rs1 rs2 rd (a ^ b)))

/-- R165, R166: `div` and `mod`, for every divisor: floor quotient and remainder, or the fault for divisor 0. -/
def Obligations.DivisionResults : Prop :=
  ∀ (s : State) (w : IWord) (rest : List IWord) (rs1 rs2 rd : RegAddr) (a b : Nat), s.queue = w :: rest →
    a = (s.regs[rs1.toNat]).toNat → b = (s.regs[rs2.toNat]).toNat →
    exec (.div rs1 rs2 rd) s =
      .next (if b = 0 then aluFaulted s w rest 3 rs1 rs2 else aluDone s w rest 3 rs1 rs2 rd (a / b)) ∧
    exec (.mod rs1 rs2 rd) s =
      .next (if b = 0 then aluFaulted s w rest 4 rs1 rs2 else aluDone s w rest 4 rs1 rs2 rd (a % b)) ∧
    (b ≠ 0 → a % b < b ∧ a / b * b + a % b = a)

/-- R180: an `ALU_EV` step with a latched divide or modulo and a latched 0 reports and retires, with `alu_fault` asserted;
the instruction so ended took 5 edges, its report and retirement at the fifth and not before, changed no register and no
memory word, left the result register, and left the operands in the temporaries and the input latch. -/
def Obligations.ZeroDivisorFaults : Prop :=
  (∀ (s : State) (c : InstrClass) (k : Nat), s.fsm = .executing c k → s.currentMicro c k = some .aluEv →
    s.aop = 3 ∨ s.aop = 4 → s.ab = 0 →
    s.aluFault = true ∧
    edge s = .next (reported s s.queue.tail .arithmeticFault s.ir (.division s.aop 0))) ∧
  (∀ (s : State) (w : IWord) (rest : List IWord) (rs1 rs2 rd : RegAddr), s.queue = w :: rest →
    s.regs[rs2.toNat] = 0 →
    exec (.div rs1 rs2 rd) s = .next (aluFaulted s w rest 3 rs1 rs2) ∧
    exec (.mod rs1 rs2 rd) s = .next (aluFaulted s w rest 4 rs1 rs2) ∧
    instrEdges (.div rs1 rs2 rd) s = 5 ∧ instrEdges (.mod rs1 rs2 rd) s = 5) ∧
  (∀ (s : State) (w : IWord) (rest : List IWord) (p : AluCode) (rs1 rs2 rd : RegAddr), s.fsm = .decoding →
    s.queue = w :: rest →
    (verdict s.memWords w = .ok (.div rs1 rs2 rd) ∧ p = 3) ∨ (verdict s.memWords w = .ok (.mod rs1 rs2 rd) ∧ p = 4) →
    s.regs[rs2.toNat] = 0 →
    edges 5 s = .next (aluFaulted s w rest p rs1 rs2) ∧
    ∀ k, k < 5 → ∃ t, edges k s = .next t ∧ t.queue = s.queue ∧ t.reports = s.reports)

/-- R168 to R174: the logic operations; the complements are within 16 bits; `not` ignores operand 2 but reads and latches
it. -/
def Obligations.LogicResults : Prop :=
  ∀ (s : State) (w : IWord) (rest : List IWord) (rs1 rs2 rd : RegAddr) (a b : Nat), s.queue = w :: rest →
    a = (s.regs[rs1.toNat]).toNat → b = (s.regs[rs2.toNat]).toNat →
    exec (.and rs1 rs2 rd) s = .next (aluDone s w rest 6 rs1 rs2 rd (a &&& b)) ∧
    exec (.or rs1 rs2 rd) s = .next (aluDone s w rest 7 rs1 rs2 rd (a ||| b)) ∧
    exec (.nand rs1 rs2 rd) s = .next (aluDone s w rest 8 rs1 rs2 rd (65535 - (a &&& b))) ∧
    exec (.nor rs1 rs2 rd) s = .next (aluDone s w rest 9 rs1 rs2 rd (65535 - (a ||| b))) ∧
    exec (.xor rs1 rs2 rd) s = .next (aluDone s w rest 10 rs1 rs2 rd (a ^^^ b)) ∧
    exec (.xnor rs1 rs2 rd) s = .next (aluDone s w rest 11 rs1 rs2 rd (65535 - (a ^^^ b))) ∧
    exec (.not rs1 rs2 rd) s = .next (aluDone s w rest 12 rs1 rs2 rd (65535 - a))

/-- R200: `rotm`: its fields, its micro-steps, its net effect `M[B := a][C := b][A := c]` for all three addresses below N,
equal or not, the later update winning, and its error otherwise. The memory latch is empty at every `Decoding` edge of a run
(R32). -/
def Obligations.RotateMemoryResult : Prop :=
  (∀ (n : Nat) (w : IWord), w.extractLsb' 29 3 = 3#3 →
    (w.extractLsb' 21 8).toNat < n → (w.extractLsb' 13 8).toNat < n → (w.extractLsb' 5 8).toNat < n →
    verdict n w = .ok (.rotm (w.extractLsb' 21 8) (w.extractLsb' 13 8) (w.extractLsb' 5 8))) ∧
  (∀ a b c : MemAddr, microOps (.rotm a b c) =
    [.rdM .t0 a, .rdM .t1 b, .rdM .t2 c, .waM b, .wdM (.temp .t0), .waM c, .wdM (.temp .t1), .waM a,
      .wdM (.temp .t2)]) ∧
  (∀ (s : State) (w : IWord) (rest : List IWord) (ma mb mc : MemAddr) (a b c : Word), s.queue = w :: rest →
    s.mwl = none → ma.toNat < s.mem.size → mb.toNat < s.mem.size → mc.toNat < s.mem.size →
    a = s.mem.read ma.toNat → b = s.mem.read mb.toNat → c = s.mem.read mc.toNat →
    ∀ m : Memory, m = ((s.mem.write mb.toNat a).write mc.toNat b).write ma.toNat c →
      exec (.rotm ma mb mc) s = .next { common s w rest with mem := m, t0 := a, t1 := b, t2 := c, mwl := none } ∧
      (s.mem.wf = true → m.wf = true ∧ ∀ x,
        m.read x =
          if x = ma.toNat then c else if x = mc.toNat then b else if x = mb.toNat then a else s.mem.read x)) ∧
  (∀ (s : State) (w : IWord) (rest : List IWord) (ma mb mc : MemAddr), s.queue = w :: rest →
    s.mem.size ≤ ma.toNat ∨ s.mem.size ≤ mb.toNat ∨ s.mem.size ≤ mc.toNat →
    ∃ d, exec (.rotm ma mb mc) s = .next (reported s rest .addressOutOfRange w d))

/-- R201: `rotr`: its fields, its micro-steps, its net effect for all registers, equal or not. -/
def Obligations.RotateRegistersResult : Prop :=
  (∀ (n : Nat) (w : IWord), w.extractLsb' 29 3 = 4#3 →
    verdict n w = .ok (.rotr (w.extractLsb' 24 5) (w.extractLsb' 19 5) (w.extractLsb' 14 5))) ∧
  (∀ a b c : RegAddr, microOps (.rotr a b c) =
    [.rdR .t0 a, .rdR .t1 b, .rdR .t2 c, .waR b, .wdR (.temp .t0), .waR c, .wdR (.temp .t1), .waR a,
      .wdR (.temp .t2)]) ∧
  (∀ (s : State) (w : IWord) (rest : List IWord) (ra rb rc : RegAddr) (a b c : Word), s.queue = w :: rest →
    a = s.regs[ra.toNat] → b = s.regs[rb.toNat] → c = s.regs[rc.toNat] →
    ∀ v : Vector Word 32, v = ((s.regs.set rb.toNat a).set rc.toNat b).set ra.toNat c →
      exec (.rotr ra rb rc) s = .next { common s w rest with regs := v, t0 := a, t1 := b, t2 := c, rwl := none } ∧
      ∀ x : RegAddr,
        v[x.toNat] = if x = ra then c else if x = rc then b else if x = rb then a else s.regs[x.toNat])

/-- R205: a rotation of pairwise distinct operands permutes the three words, C to A, A to B, B to C, and leaves every other
word. -/
def Obligations.DistinctRotationPermutes : Prop :=
  (∀ (s t : State) (ma mb mc : MemAddr), s.mem.wf = true → ma ≠ mb → ma ≠ mc → mb ≠ mc →
    ma.toNat < s.mem.size → mb.toNat < s.mem.size → mc.toNat < s.mem.size →
    exec (.rotm ma mb mc) s = .next t →
    List.Perm [t.mem.read ma.toNat, t.mem.read mb.toNat, t.mem.read mc.toNat]
      [s.mem.read ma.toNat, s.mem.read mb.toNat, s.mem.read mc.toNat] ∧
    t.mem.read ma.toNat = s.mem.read mc.toNat ∧ t.mem.read mb.toNat = s.mem.read ma.toNat ∧
    t.mem.read mc.toNat = s.mem.read mb.toNat ∧
    ∀ x, x ≠ ma.toNat → x ≠ mb.toNat → x ≠ mc.toNat → t.mem.read x = s.mem.read x) ∧
  (∀ (s t : State) (ra rb rc : RegAddr), ra ≠ rb → ra ≠ rc → rb ≠ rc →
    exec (.rotr ra rb rc) s = .next t →
    List.Perm [t.readReg ra, t.readReg rb, t.readReg rc] [s.readReg ra, s.readReg rb, s.readReg rc] ∧
    t.readReg ra = s.readReg rc ∧ t.readReg rb = s.readReg ra ∧ t.readReg rc = s.readReg rb ∧
    ∀ x, x ≠ ra → x ≠ rb → x ≠ rc → t.readReg x = s.readReg x)

/-- R204: rotations with equal operands, row by row. -/
def Obligations.AliasedRotationTable : Prop :=
  (∀ (s t : State) (x z : RegAddr), exec (.rotr x x z) s = .next t →
    t.readReg x = s.readReg z ∧ t.readReg z = s.readReg x) ∧
  (∀ (s t : State) (x y : RegAddr), exec (.rotr x y x) s = .next t →
    t.readReg x = s.readReg x ∧ t.readReg y = s.readReg x) ∧
  (∀ (s t : State) (x y : RegAddr), exec (.rotr x y y) s = .next t →
    t.readReg x = s.readReg y ∧ t.readReg y = s.readReg y) ∧
  (∀ (s t : State) (x z : MemAddr), s.mem.wf = true → x.toNat < s.mem.size → z.toNat < s.mem.size →
    exec (.rotm x x z) s = .next t →
    t.mem.read x.toNat = s.mem.read z.toNat ∧ t.mem.read z.toNat = s.mem.read x.toNat) ∧
  (∀ (s t : State) (x y : MemAddr), s.mem.wf = true → x.toNat < s.mem.size → y.toNat < s.mem.size →
    exec (.rotm x y x) s = .next t →
    t.mem.read x.toNat = s.mem.read x.toNat ∧ t.mem.read y.toNat = s.mem.read x.toNat) ∧
  (∀ (s t : State) (x y : MemAddr), s.mem.wf = true → x.toNat < s.mem.size → y.toNat < s.mem.size →
    exec (.rotm x y y) s = .next t →
    t.mem.read x.toNat = s.mem.read y.toNat ∧ t.mem.read y.toNat = s.mem.read y.toNat)

/-- R202: `r2m`: its fields, its micro-steps, its net effect for every register and every address below N, its error for
every other address. -/
def Obligations.RegisterToMemoryResult : Prop :=
  (∀ (n : Nat) (w : IWord), w.extractLsb' 29 3 = 5#3 → (w.extractLsb' 16 8).toNat < n →
    verdict n w = .ok (.r2m (w.extractLsb' 24 5) (w.extractLsb' 16 8))) ∧
  (∀ (rs : RegAddr) (a : MemAddr), microOps (.r2m rs a) = [.rdR .t0 rs, .waM a, .wdM (.temp .t0)]) ∧
  (∀ (s : State) (w : IWord) (rest : List IWord) (rs : RegAddr) (a : MemAddr) (v : Word), s.queue = w :: rest →
    v = s.regs[rs.toNat] →
    (a.toNat < s.mem.size →
      exec (.r2m rs a) s = .next { common s w rest with mem := s.mem.write a.toNat v, t0 := v, mwl := none }) ∧
    (s.mem.size ≤ a.toNat →
      exec (.r2m rs a) s = .next (reported s rest .addressOutOfRange w (.field .maddr a.toNat))) ∧
    (s.mem.wf = true →
      (s.mem.write a.toNat v).read a.toNat = v ∧
      ∀ x, x ≠ a.toNat → (s.mem.write a.toNat v).read x = s.mem.read x))

/-- R203: `m2r`: its fields, its micro-steps, its net effect for every address below N and every register, its error for
every other address. The memory latch is empty at every `Decoding` edge of a run (R32). -/
def Obligations.MemoryToRegisterResult : Prop :=
  (∀ (n : Nat) (w : IWord), w.extractLsb' 29 3 = 6#3 → (w.extractLsb' 21 8).toNat < n →
    verdict n w = .ok (.m2r (w.extractLsb' 21 8) (w.extractLsb' 16 5))) ∧
  (∀ (a : MemAddr) (rd : RegAddr), microOps (.m2r a rd) = [.rdM .t0 a, .waR rd, .wdR (.temp .t0)]) ∧
  (∀ (s : State) (w : IWord) (rest : List IWord) (a : MemAddr) (rd : RegAddr) (v : Word), s.queue = w :: rest →
    v = s.mem.read a.toNat →
    (s.mwl = none → a.toNat < s.mem.size →
      exec (.m2r a rd) s = .next { common s w rest with regs := s.regs.set rd.toNat v, t0 := v, rwl := none }) ∧
    (s.mem.size ≤ a.toNat →
      exec (.m2r a rd) s = .next (reported s rest .addressOutOfRange w (.field .maddr a.toNat))))

/-- R86, R232, R237: an address field that is not below N is reported at decode, the first in the order A, B, C, and nothing
else changes but the retirement. -/
def Obligations.OutOfRangeAddressReported : Prop :=
  ∀ (s : State) (w : IWord) (rest : List IWord), s.queue = w :: rest →
    (∀ (a : MemAddr) (d : Word), s.mem.size ≤ a.toNat →
      exec (.wmem a d) s = .next (reported s rest .addressOutOfRange w (.field .maddr a.toNat))) ∧
    (∀ (r : RegAddr) (a : MemAddr), s.mem.size ≤ a.toNat →
      exec (.r2m r a) s = .next (reported s rest .addressOutOfRange w (.field .maddr a.toNat)) ∧
      exec (.m2r a r) s = .next (reported s rest .addressOutOfRange w (.field .maddr a.toNat))) ∧
    (∀ a b c : MemAddr, s.mem.size ≤ a.toNat →
      exec (.rotm a b c) s = .next (reported s rest .addressOutOfRange w (.field .ma a.toNat))) ∧
    (∀ a b c : MemAddr, a.toNat < s.mem.size → s.mem.size ≤ b.toNat →
      exec (.rotm a b c) s = .next (reported s rest .addressOutOfRange w (.field .mb b.toNat))) ∧
    (∀ a b c : MemAddr, a.toNat < s.mem.size → b.toNat < s.mem.size → s.mem.size ≤ c.toNat →
      exec (.rotm a b c) s = .next (reported s rest .addressOutOfRange w (.field .mc c.toNat)))

/-- R231: an ALU word with sub-opcode 13, 14 or 15 is reported at its `Decoding` edge and retired, in one edge and one step;
no other word raises this error. -/
def Obligations.UnrecognizedOpcodeReported : Prop :=
  (∀ (s : State) (w : IWord) (rest : List IWord) (p : AluCode), s.fsm = .decoding → s.queue = w :: rest →
    w.extractLsb' 29 3 = 2#3 → p = w.extractLsb' 10 4 → 13 ≤ p.toNat →
    edge s = .next (reported s rest .unrecognizedOpcode w (.field .aluop p.toNat)) ∧ step s = edge s) ∧
  (∀ (s t : State) (r : Report), edge s = .next t → t.reports = s.reports ++ [r] → r.kind = .unrecognizedOpcode →
    r.word.extractLsb' 29 3 = 2#3 ∧ 13 ≤ (r.word.extractLsb' 10 4).toNat ∧
    r.detail = .field .aluop (r.word.extractLsb' 10 4).toNat)

/-! ### Errors -/

/-- R233: `ArithmeticFault` is raised at step 3 of an ALUOperation whose latched operation is divide or modulo and whose
latched operand 2 is 0, and by nothing else; the report has IR and the operation. -/
def Obligations.ArithmeticFaultExactly : Prop :=
  (∀ (s t : State) (r : Report), edge s = .next t → t.reports = s.reports ++ [r] → r.kind = .arithmeticFault →
    s.fsm = .executing .aluOperation 3 ∧ (s.aop = 3 ∨ s.aop = 4) ∧ s.ab = 0 ∧
    r = { kind := .arithmeticFault, index := s.qidx, word := s.ir, detail := .division s.aop 0 }) ∧
  (∀ s : State, s.Inv → s.fsm = .executing .aluOperation 3 → (s.aop = 3 ∨ s.aop = 4) → s.ab = 0 →
    ∃ t, edge s = .next t ∧
      t.reports = s.reports ++
        [{ kind := .arithmeticFault, index := s.qidx, word := s.ir, detail := .division s.aop 0 }])

/-- R236: the edge that detects an error reports it and retires the instruction, and changes nothing else; the whole
instruction changes no register and no memory word. -/
def Obligations.ErrorsArePrecise : Prop :=
  (∀ s t : State, edge s = .next t → t.reports ≠ s.reports →
    ∃ (kind : ErrorKind) (w : IWord) (d : Detail), t = reported s s.queue.tail kind w d) ∧
  (∀ s t : State, s.fsm = .decoding → step s = .next t → t.reports ≠ s.reports →
    t.regs = s.regs ∧ t.mem = s.mem ∧ t.rwl = s.rwl ∧ t.mwl = s.mwl ∧ t.aluQ = s.aluQ ∧ t.dump = s.dump ∧
    (∃ r : Report, t.reports = s.reports ++ [r] ∧ r.index = s.qidx ∧ s.queue.head? = some r.word) ∧
    t.queue = s.queue.tail ∧ t.qidx = s.qidx + 1 ∧ t.fsm = nextFsm s.queue.tail)

/-- R239: the reports made so far do not affect how anything later executes. -/
def Obligations.EarlierErrorsDoNotMatter : Prop :=
  ∀ (s t : State) (earlier : List Report), step s = .next t →
    ∃ new, t.reports = s.reports ++ new ∧
      step { s with reports := earlier } = .next { t with reports := earlier ++ new }

/-- R31, R33, R174: what earlier instructions left in IR, the temporaries, the ALU latches and the result register is never
observed: two states alike in all else step to states alike in all else. -/
def Obligations.HiddenStateUnobservable : Prop :=
  ∀ s s' t : State, s.SameArchitectural s' → s.atBoundary → step s = .next t →
    ∃ t', step s' = .next t' ∧ t.SameArchitectural t' ∧ t.atBoundary

/-! ### Ports and the loader -/

/-- R100, R122, R234: the external ports of a step show what its closing edge does: the error ports the report it appends,
the dump ports the record it appends. -/
def Obligations.ExternalPortsShowTheEdge : Prop :=
  ∀ s t : State, s.Inv → edge s = .next t →
    t.reports = s.reports ++ s.raisedReport.toList ∧ t.dump = s.dump ++ s.dumpedRecord.toList ∧
    (s.externalPorts.errValid = true ↔ t.reports ≠ s.reports) ∧
    (∀ r, t.reports = s.reports ++ [r] →
      s.externalPorts.errKind = some r.kind.code ∧ s.externalPorts.errIndex = some r.index ∧
      s.externalPorts.errWord = some r.word) ∧
    (s.externalPorts.qPop = true ↔ t.qidx = s.qidx + 1) ∧
    (s.externalPorts.dumpValid = true ↔ ∃ i, s.fsm = .draining i) ∧
    (s.externalPorts.dumpValid = true ↔ t.dump ≠ s.dump) ∧
    (∀ d, t.dump = s.dump ++ [d] →
      s.externalPorts.dumpSpace = some (if d.space = .reg then 0#1 else 1#1) ∧
      (∃ x, s.externalPorts.dumpIndex = some x ∧ x.toNat = d.index) ∧ s.externalPorts.dumpValue = some d.value) ∧
    (∀ i, s.fsm = .draining i → t.dump = s.dump ++ [recordR122 s i]) ∧
    (s.externalPorts.halted = true ↔ s.fsm = .halted)

/-- R55, R57, R101: an edge changes the register file and the memory exactly as their ports say. -/
def Obligations.StorePortsCommitTheEdge : Prop :=
  ∀ s t : State, edge s = .next t →
    t.regs = s.regFilePorts.commit s.regs ∧ t.mem = s.memPorts.commit s.mem

/-- At the register file's ports a read in the cycle of a write to the same register gives the old value, the next cycle the
new one (R57, R267). At the memory's ports a write cycle performs no read (R54, R267), whatever the step. That the model has
no value of `mem_rdata` there, where R54 says that the output is held, is the model's own reading (log entry 9, DEDUCED; log
entry 11, DESIGN CHOICE). -/
def Obligations.ReadDuringWriteGivesOldValue : Prop :=
  (∀ (regs : Vector Word 32) (a b : RegAddr) (v : Word) (p : RegFilePorts),
    p = { raddr := some b, we := true, waddr := some a, wdata := some v } →
    p.rdata regs = some regs[b.toNat] ∧
    p.rdata (p.commit regs) = some (if b = a then v else regs[b.toNat])) ∧
  (∀ s : State, s.mwl.isSome = true → s.memPorts.rdata s.mem = none)

/-- R70, R262: the text of a program loads as that program, and boot resets the CORE with it. -/
def Obligations.ProgramTextLoads : Prop :=
  ∀ ws : List IWord, loadStream (textOfProgram ws) = .program ws ∧
    ∀ (n : Nat) (f : Nat → Word), boot n f (textOfProgram ws) = .ready (State.resetWith n f ws)

/-- R262: the text is split at each newline, a newline at its very end starting no further line; it is accepted exactly when
each line is 32 characters, each 0 or 1, and PROG is then the words of its lines; otherwise the run is refused with the index
of a failing line, and there is no state. -/
def Obligations.MalformedTextRefused : Prop :=
  (∀ lines : List (List Char), (∀ line ∈ lines, '\n' ∉ line) →
    splitLines (lines.flatMap fun line => line ++ ['\n']) = lines ∧
    ∀ last : List Char, '\n' ∉ last → last ≠ [] →
      splitLines ((lines.flatMap fun line => line ++ ['\n']) ++ last) = lines ++ [last]) ∧
  (∀ (text : List Char) (n : Nat) (f : Nat → Word),
    ((∃ s, boot n f text = .ready s) ↔
      ∀ line ∈ splitLines text, line.length = 32 ∧ ∀ c ∈ line, c = '0' ∨ c = '1') ∧
    (∀ s, boot n f text = .ready s →
      ∃ ws : List IWord, s = State.resetWith n f ws ∧ splitLines text = ws.map lineOfWord) ∧
    (∀ (kind : ErrorKind) (k : Nat), boot n f text = .malformed kind k →
      kind.code = 1 ∧
      ∃ line, (splitLines text)[k]? = some line ∧ ¬(line.length = 32 ∧ ∀ c ∈ line, c = '0' ∨ c = '1')))

/-- The line a refused run names is the first that fails: the model's choice (log entry 12). -/
def Obligations.FirstFailingLineNamed : Prop :=
  ∀ (text : List Char) (k : Nat), loadStream text = .malformed k →
    ∀ j line, j < k → (splitLines text)[j]? = some line → line.length = 32 ∧ ∀ c ∈ line, c = '0' ∨ c = '1'

end Statements
end

