-- ==== Sys2Proof/Laws/Decode.lean ====
section
/-! SUPPORT. The decoder's and the encoder's small lemmas: classes and sub-opcodes, the range check, the verdict, and the
fields of each encoded format. -/

namespace Sys2Proof

@[simp] theorem ofCode_classCode (c : InstrClass) : InstrClass.ofCode c.code = c := by cases c <;> rfl

theorem classCode_ofCode : ∀ c : ClassCode, (InstrClass.ofCode c).code = c := by decide

@[simp] theorem ofCode_aluCode (op : AluOp) : AluOp.ofCode op.code = some op := by cases op <;> rfl

/-- A concatenation as a number. -/
theorem toNat_append_eq {m n : Nat} (x : BitVec m) (y : BitVec n) :
    (x ++ y).toNat = x.toNat * 2 ^ n + y.toNat := by
  rw [BitVec.toNat_append, ← Nat.shiftLeft_add_eq_or_of_lt y.isLt, Nat.shiftLeft_eq]

/-- A sub-opcode selects an operation exactly when it is that operation's (R84). -/
theorem aluOfCode_eq_some (c : AluCode) (op : AluOp) : AluOp.ofCode c = some op ↔ c = op.code := by
  revert c
  cases op <;> decide

/-- A sub-opcode selects none exactly when it is 13, 14 or 15 (R85). -/
theorem aluOfCode_eq_none : ∀ c : AluCode, AluOp.ofCode c = none ↔ 13 ≤ c.toNat := by decide

@[simp] theorem cls_aluInstr (op : AluOp) (a b d : RegAddr) : (op.instr a b d).cls = .aluOperation := by
  cases op <;> rfl

@[simp] theorem addrFields_aluInstr (op : AluOp) (a b d : RegAddr) : (op.instr a b d).addrFields = [] := by
  cases op <;> rfl

@[simp] theorem encode_aluInstr (op : AluOp) (a b d : RegAddr) : encode (op.instr a b d) = encodeAlu op a b d := by
  cases op <;> rfl

/-- The range check passes exactly on the well-formed instructions (R86). -/
theorem firstOutOfRange_eq_none (n : Nat) (i : Instr) :
    firstOutOfRange n i.addrFields = none ↔ i.wellFormed n = true := by
  cases i <;> simp [Instr.addrFields, firstOutOfRange, Instr.wellFormed]
  case rotm a b c =>
    by_cases ha : n ≤ a.toNat <;> by_cases hb : n ≤ b.toNat <;> by_cases hc : n ≤ c.toNat <;> simp [ha, hb, hc]
    all_goals omega

/-- What an `Ok` verdict says (R87). -/
theorem verdict_eq_ok (n : Nat) (w : IWord) (i : Instr) :
    verdict n w = .ok i ↔ decodeFields w = some i ∧ i.wellFormed n = true := by
  unfold verdict
  cases h : decodeFields w with
  | none => simp
  | some j =>
    rw [← firstOutOfRange_eq_none]
    cases hr : firstOutOfRange n j.addrFields with
    | none => simpa [hr] using fun e => e ▸ hr
    | some p => simpa [hr] using fun e => e ▸ (by simp [hr])

/-- What an `UnrecognizedOpcode` verdict says (R85). -/
theorem verdict_eq_unrecognized (n : Nat) (w : IWord) (p : AluCode) :
    verdict n w = .unrecognizedOpcode p ↔ decodeFields w = none ∧ p = aluopField w := by
  unfold verdict
  cases h : decodeFields w with
  | none => simp [eq_comm]
  | some j => cases hr : firstOutOfRange n j.addrFields <;> simp [hr]

/-- What an `AddressOutOfRange` verdict says (R86, R237). -/
theorem verdict_eq_outOfRange (n : Nat) (w : IWord) (f : Field) (a : MemAddr) :
    verdict n w = .addressOutOfRange f a ↔
      ∃ i, decodeFields w = some i ∧ firstOutOfRange n i.addrFields = some (f, a) := by
  unfold verdict
  cases h : decodeFields w with
  | none => simp
  | some j => cases hr : firstOutOfRange n j.addrFields <;> simp [hr, Prod.ext_iff]

/-- A word decodes to no instruction exactly when it is an ALU word with sub-opcode 13, 14 or 15 (R85). -/
theorem decodeFields_eq_none (w : IWord) :
    decodeFields w = none ↔ opcodeField w = 0b010#3 ∧ 13 ≤ (aluopField w).toNat := by
  have key : InstrClass.ofCode (opcodeField w) = .aluOperation ↔ opcodeField w = 0b010#3 := by
    generalize opcodeField w = c
    revert c
    decide
  rw [← key, ← aluOfCode_eq_none]
  unfold decodeFields
  cases h : InstrClass.ofCode (opcodeField w) <;> simp

/-- A word's fields decode to an instruction of the class its opcode selects. -/
theorem cls_of_decodeFields {w : IWord} {i : Instr} (h : decodeFields w = some i) : i.cls = formatOf w := by
  unfold decodeFields at h
  unfold formatOf
  cases hc : InstrClass.ofCode (opcodeField w) <;> simp only [hc] at h
  case aluOperation =>
    obtain ⟨op, -, rfl⟩ := Option.map_eq_some_iff.1 h
    simp
  all_goals
    cases h
    rfl

/-- The sub-opcode of a decoded ALU word is its operation's (R84). -/
theorem aluopField_of_decodeFields {w : IWord} {op : AluOp} {a b d : RegAddr}
    (h : decodeFields w = some (op.instr a b d)) : aluopField w = op.code := by
  unfold decodeFields at h
  cases hc : InstrClass.ofCode (opcodeField w) <;> simp only [hc] at h
  case aluOperation =>
    obtain ⟨op', hop, e⟩ := Option.map_eq_some_iff.1 h
    have : op' = op := by
      cases op' <;> cases op <;> simp_all [AluOp.instr]
    rw [← this]
    exact (aluOfCode_eq_some _ _).1 hop
  all_goals
    cases op <;> simp [AluOp.instr] at h

end Sys2Proof
end

