-- ==== Sys2Proof/Laws/Memory.lean ====
section
/-! SUPPORT. What a memory reads as after a write, and that every memory operation keeps the canonical form. -/

namespace Sys2Proof.Machine

/-- A cell in front of a list whose addresses lie above it. -/
theorem lookup_consCell (a : Nat) (v : Word) (cells : List WordCell) (x : Nat)
    (habove : x = a → v = Memory.unlisted → Memory.lookup cells a = Memory.unlisted) :
    Memory.lookup (Memory.consCell a v cells) x = if x = a then v else Memory.lookup cells x := by
  by_cases hv : v = Memory.unlisted <;> by_cases hx : x = a <;>
    simp_all [Memory.consCell, Memory.lookup]

/-- An address below every listed one reads as an unlisted address. -/
theorem lookup_below {lo hi : Nat} {cells : List WordCell} (h : Memory.cellsOk lo hi cells = true) {x : Nat}
    (hx : x < lo) : Memory.lookup cells x = Memory.unlisted := by
  induction cells generalizing lo with
  | nil => rfl
  | cons c rest ih =>
    obtain ⟨a, v⟩ := c
    simp only [Memory.cellsOk, Bool.and_eq_true, decide_eq_true_eq] at h
    have hne : x ≠ a := by omega
    simp only [Memory.lookup, hne, if_false]
    exact ih h.2 (by omega)

/-- An address at or above the bound reads as an unlisted address. -/
theorem lookup_above {lo hi : Nat} {cells : List WordCell} (h : Memory.cellsOk lo hi cells = true) {x : Nat}
    (hx : hi ≤ x) : Memory.lookup cells x = Memory.unlisted := by
  induction cells generalizing lo with
  | nil => rfl
  | cons c rest ih =>
    obtain ⟨a, v⟩ := c
    simp only [Memory.cellsOk, Bool.and_eq_true, decide_eq_true_eq] at h
    have hne : x ≠ a := by omega
    simp only [Memory.lookup, hne, if_false]
    exact ih h.2

/-- The form with a lower first bound. -/
theorem cellsOk_mono {lo lo' hi : Nat} {cells : List WordCell} (h : Memory.cellsOk lo hi cells = true)
    (hle : lo' ≤ lo) : Memory.cellsOk lo' hi cells = true := by
  cases cells with
  | nil => rfl
  | cons c rest =>
    obtain ⟨a, v⟩ := c
    simp only [Memory.cellsOk, Bool.and_eq_true, decide_eq_true_eq] at h ⊢
    exact ⟨⟨⟨by omega, h.1.1.2⟩, h.1.2⟩, h.2⟩

/-- A cell in front keeps the form. -/
theorem cellsOk_consCell {a hi lo : Nat} {cells : List WordCell} (v : Word) (hlo : lo ≤ a) (hhi : a < hi)
    (h : Memory.cellsOk (a + 1) hi cells = true) : Memory.cellsOk lo hi (Memory.consCell a v cells) = true := by
  by_cases hv : v = Memory.unlisted
  · simp only [Memory.consCell, hv, if_true]
    exact cellsOk_mono h (by omega)
  · simp [Memory.consCell, hv, Memory.cellsOk, hlo, hhi, h]

/-- A write keeps the form. -/
theorem cellsOk_place {lo hi : Nat} {cells : List WordCell} (a : Nat) (v : Word)
    (h : Memory.cellsOk lo hi cells = true) (hlo : lo ≤ a) (hhi : a < hi) :
    Memory.cellsOk lo hi (Memory.place cells a v) = true := by
  induction cells generalizing lo with
  | nil => exact cellsOk_consCell v hlo hhi rfl
  | cons c rest ih =>
    obtain ⟨b, x⟩ := c
    have h' := h
    simp only [Memory.cellsOk, Bool.and_eq_true, decide_eq_true_eq] at h
    unfold Memory.place
    split
    · refine cellsOk_consCell v hlo hhi ?_
      simp only [Memory.cellsOk, Bool.and_eq_true, decide_eq_true_eq]
      exact ⟨⟨⟨by omega, h.1.1.2⟩, h.1.2⟩, h.2⟩
    · split
      · next heq => exact cellsOk_consCell v hlo hhi (heq ▸ h.2)
      · simp only [Memory.cellsOk, Bool.and_eq_true, decide_eq_true_eq]
        exact ⟨h.1, ih h.2 (by omega)⟩

/-- A word reads as last written, every other word as before. -/
theorem lookup_place {lo hi : Nat} {cells : List WordCell} (a : Nat) (v : Word)
    (h : Memory.cellsOk lo hi cells = true) (x : Nat) :
    Memory.lookup (Memory.place cells a v) x = if x = a then v else Memory.lookup cells x := by
  induction cells generalizing lo with
  | nil => exact lookup_consCell a v [] x fun _ _ => rfl
  | cons c rest ih =>
    obtain ⟨b, y⟩ := c
    have h' := h
    simp only [Memory.cellsOk, Bool.and_eq_true, decide_eq_true_eq] at h
    unfold Memory.place
    split
    · next hlt =>
      refine lookup_consCell a v _ x fun _ _ => ?_
      have hne : a ≠ b := by omega
      simp only [Memory.lookup, hne, if_false]
      exact lookup_below h.2 (by omega)
    · split
      · next heq =>
        subst heq
        rw [lookup_consCell a v rest x fun _ _ => lookup_below h.2 (by omega)]
        by_cases hx : x = a <;> simp [hx, Memory.lookup]
      · next hne =>
        have hne' : a ≠ b := hne
        by_cases hxb : x = b
        · have : x ≠ a := by omega
          simp [Memory.lookup, hxb, show b ≠ a from fun e => hne' e.symm]
        · simp only [Memory.lookup, hxb, if_false]
          exact ih h.2

/-- The cells of an initial contents are in the form. -/
theorem cellsOk_initCells (f : Nat → Word) (start count : Nat) :
    Memory.cellsOk start (start + count) (Memory.initCells f start count) = true := by
  induction count generalizing start with
  | zero => rfl
  | succ n ih =>
    refine cellsOk_consCell (f start) (Nat.le_refl _) (by omega) ?_
    have := ih (start + 1)
    rwa [show start + 1 + n = start + (n + 1) by omega] at this

/-- The cells of an initial contents read as it. -/
theorem lookup_initCells (f : Nat → Word) (start count x : Nat) (hlo : start ≤ x) (hhi : x < start + count) :
    Memory.lookup (Memory.initCells f start count) x = f x := by
  induction count generalizing start with
  | zero => omega
  | succ n ih =>
    unfold Memory.initCells
    rw [lookup_consCell]
    · by_cases hx : x = start
      · simp [hx]
      · simp only [hx, if_false]
        exact ih (start + 1) (by omega) (by omega)
    · intro _ _
      exact lookup_below (cellsOk_initCells f (start + 1) n) (by omega)

/-- What the form says. -/
theorem wf_iff (m : Memory) :
    m.wf = true ↔ 1 ≤ m.size ∧ m.size ≤ 256 ∧ Memory.cellsOk 0 m.size m.cells = true := by
  simp only [Memory.wf, Bool.and_eq_true, decide_eq_true_eq, and_assoc]

/-- A write below N keeps the memory's form. -/
theorem wf_write {m : Memory} (h : m.wf = true) {a : Nat} (ha : a < m.size) (v : Word) : (m.write a v).wf = true := by
  rw [wf_iff] at h ⊢
  exact ⟨h.1, h.2.1, cellsOk_place a v h.2.2 (Nat.zero_le _) ha⟩

/-- The memory's read after a write. -/
theorem read_write {m : Memory} (h : m.wf = true) (a : Nat) (v : Word) (x : Nat) :
    (m.write a v).read x = if x = a then v else m.read x :=
  lookup_place a v ((wf_iff m).1 h).2.2 x

/-- A memory built from an initial contents has the form, for N in its range. -/
theorem wf_ofInit {n : Nat} (h1 : 1 ≤ n) (h2 : n ≤ 256) (f : Nat → Word) : (Memory.ofInit n f).wf = true := by
  rw [wf_iff]
  refine ⟨h1, h2, ?_⟩
  have := cellsOk_initCells f 0 n
  rwa [Nat.zero_add] at this

/-- A memory built from an initial contents reads as it (R26). -/
theorem read_ofInit (n : Nat) (f : Nat → Word) {x : Nat} (hx : x < n) : (Memory.ofInit n f).read x = f x :=
  lookup_initCells f 0 n x (Nat.zero_le _) (by omega)

/-- Equal memories are equal data: two lists in the form that read alike are the same list. -/
theorem cells_ext {lo hi : Nat} {xs ys : List WordCell} (hx : Memory.cellsOk lo hi xs = true)
    (hy : Memory.cellsOk lo hi ys = true) (h : ∀ a, Memory.lookup xs a = Memory.lookup ys a) : xs = ys := by
  induction xs generalizing lo ys with
  | nil =>
    cases ys with
    | nil => rfl
    | cons c rest =>
      obtain ⟨b, v⟩ := c
      simp only [Memory.cellsOk, Bool.and_eq_true, decide_eq_true_eq] at hy
      have := h b
      simp only [Memory.lookup, if_true] at this
      exact absurd this.symm hy.1.2
  | cons c rest ih =>
    obtain ⟨a, v⟩ := c
    have hx' := hx
    simp only [Memory.cellsOk, Bool.and_eq_true, decide_eq_true_eq] at hx
    cases ys with
    | nil =>
      have := h a
      simp only [Memory.lookup, if_true] at this
      exact absurd this hx.1.2
    | cons d more =>
      obtain ⟨b, u⟩ := d
      have hy' := hy
      simp only [Memory.cellsOk, Bool.and_eq_true, decide_eq_true_eq] at hy
      have hab : a = b := by
        rcases Nat.lt_trichotomy a b with hlt | heq | hgt
        · have e := h a
          have hne : a ≠ b := by omega
          simp only [Memory.lookup, if_true, hne, if_false] at e
          rw [lookup_below hy.2 (by omega)] at e
          exact absurd e hx.1.2
        · exact heq
        · have e := h b
          have hne : b ≠ a := by omega
          simp only [Memory.lookup, if_true, hne, if_false] at e
          rw [lookup_below hx.2 (by omega)] at e
          exact absurd e.symm hy.1.2
      subst hab
      have huv : v = u := by
        have e := h a
        simpa only [Memory.lookup, if_true] using e
      subst huv
      congr 1
      refine ih hx.2 hy.2 fun x => ?_
      by_cases hxa : x = a
      · rw [hxa, lookup_below hx.2 (by omega), lookup_below hy.2 (by omega)]
      · have e := h x
        simpa only [Memory.lookup, hxa, if_false] using e

/-- Equal memories are equal data. -/
theorem memory_ext {m k : Memory} (hm : m.wf = true) (hk : k.wf = true) (hsize : m.size = k.size)
    (h : ∀ a, m.read a = k.read a) : m = k := by
  obtain ⟨n, xs⟩ := m
  obtain ⟨n', ys⟩ := k
  simp only at hsize
  subst hsize
  have hx := ((wf_iff _).1 hm).2.2
  have hy := ((wf_iff _).1 hk).2.2
  simp only at hx hy
  rw [cells_ext hx hy h]

end Sys2Proof.Machine
end

