-- ==== Sys2Proof/Laws/State.lean ====
section
/-! SUPPORT. One lemma per field per update of the state, each true by rfl, so that no proof unfolds a record update. -/

namespace Sys2Proof.Machine

/-! ### writeReg -/

@[simp] theorem writeReg_regs (s : State) (a : RegAddr) (v : Word) : (s.writeReg a v).regs = s.regs.set a.toNat v := rfl

@[simp] theorem writeReg_mem (s : State) (a : RegAddr) (v : Word) : (s.writeReg a v).mem = s.mem := rfl

@[simp] theorem writeReg_queue (s : State) (a : RegAddr) (v : Word) : (s.writeReg a v).queue = s.queue := rfl

@[simp] theorem writeReg_qidx (s : State) (a : RegAddr) (v : Word) : (s.writeReg a v).qidx = s.qidx := rfl

@[simp] theorem writeReg_fsm (s : State) (a : RegAddr) (v : Word) : (s.writeReg a v).fsm = s.fsm := rfl

@[simp] theorem writeReg_ir (s : State) (a : RegAddr) (v : Word) : (s.writeReg a v).ir = s.ir := rfl

@[simp] theorem writeReg_t0 (s : State) (a : RegAddr) (v : Word) : (s.writeReg a v).t0 = s.t0 := rfl

@[simp] theorem writeReg_t1 (s : State) (a : RegAddr) (v : Word) : (s.writeReg a v).t1 = s.t1 := rfl

@[simp] theorem writeReg_t2 (s : State) (a : RegAddr) (v : Word) : (s.writeReg a v).t2 = s.t2 := rfl

@[simp] theorem writeReg_rwl (s : State) (a : RegAddr) (v : Word) : (s.writeReg a v).rwl = s.rwl := rfl

@[simp] theorem writeReg_mwl (s : State) (a : RegAddr) (v : Word) : (s.writeReg a v).mwl = s.mwl := rfl

@[simp] theorem writeReg_aop (s : State) (a : RegAddr) (v : Word) : (s.writeReg a v).aop = s.aop := rfl

@[simp] theorem writeReg_aa (s : State) (a : RegAddr) (v : Word) : (s.writeReg a v).aa = s.aa := rfl

@[simp] theorem writeReg_ab (s : State) (a : RegAddr) (v : Word) : (s.writeReg a v).ab = s.ab := rfl

@[simp] theorem writeReg_aluQ (s : State) (a : RegAddr) (v : Word) : (s.writeReg a v).aluQ = s.aluQ := rfl

@[simp] theorem writeReg_reports (s : State) (a : RegAddr) (v : Word) : (s.writeReg a v).reports = s.reports := rfl

@[simp] theorem writeReg_dump (s : State) (a : RegAddr) (v : Word) : (s.writeReg a v).dump = s.dump := rfl

/-! ### writeMem -/

@[simp] theorem writeMem_regs (s : State) (a : MemAddr) (v : Word) : (s.writeMem a v).regs = s.regs := rfl

@[simp] theorem writeMem_mem (s : State) (a : MemAddr) (v : Word) : (s.writeMem a v).mem = s.mem.write a.toNat v := rfl

@[simp] theorem writeMem_queue (s : State) (a : MemAddr) (v : Word) : (s.writeMem a v).queue = s.queue := rfl

@[simp] theorem writeMem_qidx (s : State) (a : MemAddr) (v : Word) : (s.writeMem a v).qidx = s.qidx := rfl

@[simp] theorem writeMem_fsm (s : State) (a : MemAddr) (v : Word) : (s.writeMem a v).fsm = s.fsm := rfl

@[simp] theorem writeMem_ir (s : State) (a : MemAddr) (v : Word) : (s.writeMem a v).ir = s.ir := rfl

@[simp] theorem writeMem_t0 (s : State) (a : MemAddr) (v : Word) : (s.writeMem a v).t0 = s.t0 := rfl

@[simp] theorem writeMem_t1 (s : State) (a : MemAddr) (v : Word) : (s.writeMem a v).t1 = s.t1 := rfl

@[simp] theorem writeMem_t2 (s : State) (a : MemAddr) (v : Word) : (s.writeMem a v).t2 = s.t2 := rfl

@[simp] theorem writeMem_rwl (s : State) (a : MemAddr) (v : Word) : (s.writeMem a v).rwl = s.rwl := rfl

@[simp] theorem writeMem_mwl (s : State) (a : MemAddr) (v : Word) : (s.writeMem a v).mwl = s.mwl := rfl

@[simp] theorem writeMem_aop (s : State) (a : MemAddr) (v : Word) : (s.writeMem a v).aop = s.aop := rfl

@[simp] theorem writeMem_aa (s : State) (a : MemAddr) (v : Word) : (s.writeMem a v).aa = s.aa := rfl

@[simp] theorem writeMem_ab (s : State) (a : MemAddr) (v : Word) : (s.writeMem a v).ab = s.ab := rfl

@[simp] theorem writeMem_aluQ (s : State) (a : MemAddr) (v : Word) : (s.writeMem a v).aluQ = s.aluQ := rfl

@[simp] theorem writeMem_reports (s : State) (a : MemAddr) (v : Word) : (s.writeMem a v).reports = s.reports := rfl

@[simp] theorem writeMem_dump (s : State) (a : MemAddr) (v : Word) : (s.writeMem a v).dump = s.dump := rfl

/-! ### retire -/

@[simp] theorem retire_regs (s : State) : (s.retire).regs = s.regs := rfl

@[simp] theorem retire_mem (s : State) : (s.retire).mem = s.mem := rfl

@[simp] theorem retire_queue (s : State) : (s.retire).queue = s.queue.tail := rfl

@[simp] theorem retire_qidx (s : State) : (s.retire).qidx = s.qidx + 1 := rfl

@[simp] theorem retire_fsm (s : State) : (s.retire).fsm = fsmAfterRetire s.queue.tail := rfl

@[simp] theorem retire_ir (s : State) : (s.retire).ir = s.ir := rfl

@[simp] theorem retire_t0 (s : State) : (s.retire).t0 = s.t0 := rfl

@[simp] theorem retire_t1 (s : State) : (s.retire).t1 = s.t1 := rfl

@[simp] theorem retire_t2 (s : State) : (s.retire).t2 = s.t2 := rfl

@[simp] theorem retire_rwl (s : State) : (s.retire).rwl = s.rwl := rfl

@[simp] theorem retire_mwl (s : State) : (s.retire).mwl = s.mwl := rfl

@[simp] theorem retire_aop (s : State) : (s.retire).aop = s.aop := rfl

@[simp] theorem retire_aa (s : State) : (s.retire).aa = s.aa := rfl

@[simp] theorem retire_ab (s : State) : (s.retire).ab = s.ab := rfl

@[simp] theorem retire_aluQ (s : State) : (s.retire).aluQ = s.aluQ := rfl

@[simp] theorem retire_reports (s : State) : (s.retire).reports = s.reports := rfl

@[simp] theorem retire_dump (s : State) : (s.retire).dump = s.dump := rfl

/-! ### loadIr -/

@[simp] theorem loadIr_regs (s : State) (w : IWord) (c : InstrClass) : (s.loadIr w c).regs = s.regs := rfl

@[simp] theorem loadIr_mem (s : State) (w : IWord) (c : InstrClass) : (s.loadIr w c).mem = s.mem := rfl

@[simp] theorem loadIr_queue (s : State) (w : IWord) (c : InstrClass) : (s.loadIr w c).queue = s.queue := rfl

@[simp] theorem loadIr_qidx (s : State) (w : IWord) (c : InstrClass) : (s.loadIr w c).qidx = s.qidx := rfl

@[simp] theorem loadIr_fsm (s : State) (w : IWord) (c : InstrClass) : (s.loadIr w c).fsm = .executing c 0 := rfl

@[simp] theorem loadIr_ir (s : State) (w : IWord) (c : InstrClass) : (s.loadIr w c).ir = w := rfl

@[simp] theorem loadIr_t0 (s : State) (w : IWord) (c : InstrClass) : (s.loadIr w c).t0 = s.t0 := rfl

@[simp] theorem loadIr_t1 (s : State) (w : IWord) (c : InstrClass) : (s.loadIr w c).t1 = s.t1 := rfl

@[simp] theorem loadIr_t2 (s : State) (w : IWord) (c : InstrClass) : (s.loadIr w c).t2 = s.t2 := rfl

@[simp] theorem loadIr_rwl (s : State) (w : IWord) (c : InstrClass) : (s.loadIr w c).rwl = s.rwl := rfl

@[simp] theorem loadIr_mwl (s : State) (w : IWord) (c : InstrClass) : (s.loadIr w c).mwl = s.mwl := rfl

@[simp] theorem loadIr_aop (s : State) (w : IWord) (c : InstrClass) : (s.loadIr w c).aop = s.aop := rfl

@[simp] theorem loadIr_aa (s : State) (w : IWord) (c : InstrClass) : (s.loadIr w c).aa = s.aa := rfl

@[simp] theorem loadIr_ab (s : State) (w : IWord) (c : InstrClass) : (s.loadIr w c).ab = s.ab := rfl

@[simp] theorem loadIr_aluQ (s : State) (w : IWord) (c : InstrClass) : (s.loadIr w c).aluQ = s.aluQ := rfl

@[simp] theorem loadIr_reports (s : State) (w : IWord) (c : InstrClass) : (s.loadIr w c).reports = s.reports := rfl

@[simp] theorem loadIr_dump (s : State) (w : IWord) (c : InstrClass) : (s.loadIr w c).dump = s.dump := rfl

/-! ### takeError -/

@[simp] theorem takeError_regs (s : State) (k : ErrorKind) (w : IWord) (d : Detail) :
    (s.takeError k w d).regs =
      s.regs := rfl

@[simp] theorem takeError_mem (s : State) (k : ErrorKind) (w : IWord) (d : Detail) : (s.takeError k w d).mem = s.mem := rfl

@[simp] theorem takeError_queue (s : State) (k : ErrorKind) (w : IWord) (d : Detail) :
    (s.takeError k w d).queue =
      s.queue.tail := rfl

@[simp] theorem takeError_qidx (s : State) (k : ErrorKind) (w : IWord) (d : Detail) :
    (s.takeError k w d).qidx =
      s.qidx + 1 := rfl

@[simp] theorem takeError_fsm (s : State) (k : ErrorKind) (w : IWord) (d : Detail) :
    (s.takeError k w d).fsm =
      fsmAfterRetire s.queue.tail := rfl

@[simp] theorem takeError_ir (s : State) (k : ErrorKind) (w : IWord) (d : Detail) : (s.takeError k w d).ir = s.ir := rfl

@[simp] theorem takeError_t0 (s : State) (k : ErrorKind) (w : IWord) (d : Detail) : (s.takeError k w d).t0 = s.t0 := rfl

@[simp] theorem takeError_t1 (s : State) (k : ErrorKind) (w : IWord) (d : Detail) : (s.takeError k w d).t1 = s.t1 := rfl

@[simp] theorem takeError_t2 (s : State) (k : ErrorKind) (w : IWord) (d : Detail) : (s.takeError k w d).t2 = s.t2 := rfl

@[simp] theorem takeError_rwl (s : State) (k : ErrorKind) (w : IWord) (d : Detail) : (s.takeError k w d).rwl = s.rwl := rfl

@[simp] theorem takeError_mwl (s : State) (k : ErrorKind) (w : IWord) (d : Detail) : (s.takeError k w d).mwl = s.mwl := rfl

@[simp] theorem takeError_aop (s : State) (k : ErrorKind) (w : IWord) (d : Detail) : (s.takeError k w d).aop = s.aop := rfl

@[simp] theorem takeError_aa (s : State) (k : ErrorKind) (w : IWord) (d : Detail) : (s.takeError k w d).aa = s.aa := rfl

@[simp] theorem takeError_ab (s : State) (k : ErrorKind) (w : IWord) (d : Detail) : (s.takeError k w d).ab = s.ab := rfl

@[simp] theorem takeError_aluQ (s : State) (k : ErrorKind) (w : IWord) (d : Detail) :
    (s.takeError k w d).aluQ =
      s.aluQ := rfl

@[simp] theorem takeError_reports (s : State) (k : ErrorKind) (w : IWord) (d : Detail) :
    (s.takeError k w d).reports =
      s.reports ++ [{ kind := k, index := s.qidx, word := w, detail := d }] := rfl

@[simp] theorem takeError_dump (s : State) (k : ErrorKind) (w : IWord) (d : Detail) :
    (s.takeError k w d).dump =
      s.dump := rfl

/-! ### writeTemp -/

@[simp] theorem writeTemp_t0_regs (s : State) (v : Word) : (s.writeTemp .t0 v).regs = s.regs := rfl

@[simp] theorem writeTemp_t0_mem (s : State) (v : Word) : (s.writeTemp .t0 v).mem = s.mem := rfl

@[simp] theorem writeTemp_t0_queue (s : State) (v : Word) : (s.writeTemp .t0 v).queue = s.queue := rfl

@[simp] theorem writeTemp_t0_qidx (s : State) (v : Word) : (s.writeTemp .t0 v).qidx = s.qidx := rfl

@[simp] theorem writeTemp_t0_fsm (s : State) (v : Word) : (s.writeTemp .t0 v).fsm = s.fsm := rfl

@[simp] theorem writeTemp_t0_ir (s : State) (v : Word) : (s.writeTemp .t0 v).ir = s.ir := rfl

@[simp] theorem writeTemp_t0_t0 (s : State) (v : Word) : (s.writeTemp .t0 v).t0 = v := rfl

@[simp] theorem writeTemp_t0_t1 (s : State) (v : Word) : (s.writeTemp .t0 v).t1 = s.t1 := rfl

@[simp] theorem writeTemp_t0_t2 (s : State) (v : Word) : (s.writeTemp .t0 v).t2 = s.t2 := rfl

@[simp] theorem writeTemp_t0_rwl (s : State) (v : Word) : (s.writeTemp .t0 v).rwl = s.rwl := rfl

@[simp] theorem writeTemp_t0_mwl (s : State) (v : Word) : (s.writeTemp .t0 v).mwl = s.mwl := rfl

@[simp] theorem writeTemp_t0_aop (s : State) (v : Word) : (s.writeTemp .t0 v).aop = s.aop := rfl

@[simp] theorem writeTemp_t0_aa (s : State) (v : Word) : (s.writeTemp .t0 v).aa = s.aa := rfl

@[simp] theorem writeTemp_t0_ab (s : State) (v : Word) : (s.writeTemp .t0 v).ab = s.ab := rfl

@[simp] theorem writeTemp_t0_aluQ (s : State) (v : Word) : (s.writeTemp .t0 v).aluQ = s.aluQ := rfl

@[simp] theorem writeTemp_t0_reports (s : State) (v : Word) : (s.writeTemp .t0 v).reports = s.reports := rfl

@[simp] theorem writeTemp_t0_dump (s : State) (v : Word) : (s.writeTemp .t0 v).dump = s.dump := rfl

@[simp] theorem writeTemp_t1_regs (s : State) (v : Word) : (s.writeTemp .t1 v).regs = s.regs := rfl

@[simp] theorem writeTemp_t1_mem (s : State) (v : Word) : (s.writeTemp .t1 v).mem = s.mem := rfl

@[simp] theorem writeTemp_t1_queue (s : State) (v : Word) : (s.writeTemp .t1 v).queue = s.queue := rfl

@[simp] theorem writeTemp_t1_qidx (s : State) (v : Word) : (s.writeTemp .t1 v).qidx = s.qidx := rfl

@[simp] theorem writeTemp_t1_fsm (s : State) (v : Word) : (s.writeTemp .t1 v).fsm = s.fsm := rfl

@[simp] theorem writeTemp_t1_ir (s : State) (v : Word) : (s.writeTemp .t1 v).ir = s.ir := rfl

@[simp] theorem writeTemp_t1_t0 (s : State) (v : Word) : (s.writeTemp .t1 v).t0 = s.t0 := rfl

@[simp] theorem writeTemp_t1_t1 (s : State) (v : Word) : (s.writeTemp .t1 v).t1 = v := rfl

@[simp] theorem writeTemp_t1_t2 (s : State) (v : Word) : (s.writeTemp .t1 v).t2 = s.t2 := rfl

@[simp] theorem writeTemp_t1_rwl (s : State) (v : Word) : (s.writeTemp .t1 v).rwl = s.rwl := rfl

@[simp] theorem writeTemp_t1_mwl (s : State) (v : Word) : (s.writeTemp .t1 v).mwl = s.mwl := rfl

@[simp] theorem writeTemp_t1_aop (s : State) (v : Word) : (s.writeTemp .t1 v).aop = s.aop := rfl

@[simp] theorem writeTemp_t1_aa (s : State) (v : Word) : (s.writeTemp .t1 v).aa = s.aa := rfl

@[simp] theorem writeTemp_t1_ab (s : State) (v : Word) : (s.writeTemp .t1 v).ab = s.ab := rfl

@[simp] theorem writeTemp_t1_aluQ (s : State) (v : Word) : (s.writeTemp .t1 v).aluQ = s.aluQ := rfl

@[simp] theorem writeTemp_t1_reports (s : State) (v : Word) : (s.writeTemp .t1 v).reports = s.reports := rfl

@[simp] theorem writeTemp_t1_dump (s : State) (v : Word) : (s.writeTemp .t1 v).dump = s.dump := rfl

@[simp] theorem writeTemp_t2_regs (s : State) (v : Word) : (s.writeTemp .t2 v).regs = s.regs := rfl

@[simp] theorem writeTemp_t2_mem (s : State) (v : Word) : (s.writeTemp .t2 v).mem = s.mem := rfl

@[simp] theorem writeTemp_t2_queue (s : State) (v : Word) : (s.writeTemp .t2 v).queue = s.queue := rfl

@[simp] theorem writeTemp_t2_qidx (s : State) (v : Word) : (s.writeTemp .t2 v).qidx = s.qidx := rfl

@[simp] theorem writeTemp_t2_fsm (s : State) (v : Word) : (s.writeTemp .t2 v).fsm = s.fsm := rfl

@[simp] theorem writeTemp_t2_ir (s : State) (v : Word) : (s.writeTemp .t2 v).ir = s.ir := rfl

@[simp] theorem writeTemp_t2_t0 (s : State) (v : Word) : (s.writeTemp .t2 v).t0 = s.t0 := rfl

@[simp] theorem writeTemp_t2_t1 (s : State) (v : Word) : (s.writeTemp .t2 v).t1 = s.t1 := rfl

@[simp] theorem writeTemp_t2_t2 (s : State) (v : Word) : (s.writeTemp .t2 v).t2 = v := rfl

@[simp] theorem writeTemp_t2_rwl (s : State) (v : Word) : (s.writeTemp .t2 v).rwl = s.rwl := rfl

@[simp] theorem writeTemp_t2_mwl (s : State) (v : Word) : (s.writeTemp .t2 v).mwl = s.mwl := rfl

@[simp] theorem writeTemp_t2_aop (s : State) (v : Word) : (s.writeTemp .t2 v).aop = s.aop := rfl

@[simp] theorem writeTemp_t2_aa (s : State) (v : Word) : (s.writeTemp .t2 v).aa = s.aa := rfl

@[simp] theorem writeTemp_t2_ab (s : State) (v : Word) : (s.writeTemp .t2 v).ab = s.ab := rfl

@[simp] theorem writeTemp_t2_aluQ (s : State) (v : Word) : (s.writeTemp .t2 v).aluQ = s.aluQ := rfl

@[simp] theorem writeTemp_t2_reports (s : State) (v : Word) : (s.writeTemp .t2 v).reports = s.reports := rfl

@[simp] theorem writeTemp_t2_dump (s : State) (v : Word) : (s.writeTemp .t2 v).dump = s.dump := rfl

/-! ### Readers -/

@[simp] theorem memWords_eq_size (s : State) : s.memWords = s.mem.size := rfl

@[simp] theorem write_size (m : Memory) (a : Nat) (v : Word) : (m.write a v).size = m.size := rfl

@[simp] theorem readTemp_t0 (s : State) : s.readTemp .t0 = s.t0 := rfl

@[simp] theorem readTemp_t1 (s : State) : s.readTemp .t1 = s.t1 := rfl

@[simp] theorem readTemp_t2 (s : State) : s.readTemp .t2 = s.t2 := rfl

@[simp] theorem sourceValue_literal (s : State) (d : Word) : s.sourceValue (.literal d) = d := rfl

@[simp] theorem sourceValue_temp (s : State) (t : Temp) : s.sourceValue (.temp t) = s.readTemp t := rfl

@[simp] theorem sourceValue_aluLow (s : State) : s.sourceValue .aluLow = truncW s.aluQ := rfl

@[simp] theorem fsmAfterRetire_nil : fsmAfterRetire [] = .draining 0 := rfl

@[simp] theorem fsmAfterRetire_cons (w : IWord) (rest : List IWord) : fsmAfterRetire (w :: rest) = .decoding := rfl

/-- A written register reads as written, and every other register as before (R34, R57). -/
theorem readReg_writeReg (s : State) (a b : RegAddr) (v : Word) :
    (s.writeReg a v).readReg b = if b = a then v else s.readReg b := by
  by_cases h : b = a
  · simp [h, State.readReg]
  · have hne : a.toNat ≠ b.toNat := fun e => h (BitVec.eq_of_toNat_eq e.symm)
    simp [h, State.readReg, hne]

end Sys2Proof.Machine
end

