-- ==== Sys2Proof/Laws/Exec.lean ====
section
/-! SUPPORT. One lemma per shared operation that says once what it can do: the micro-operations, the ALU function, the table
runner, the edge and the step. -/

namespace Sys2Proof.Machine

/-! ### ALU -/

/-- The ALU function has no value exactly for divide and modulo by 0 (R161, R178, R180). -/
theorem aluF_eq_none (op : AluOp) (a b : Word) :
    aluF op a b = none ↔ (op = .div ∨ op = .mod) ∧ b = 0 := by
  cases op <;> simp [aluF, aluFaults]

/-- Where the ALU function has a value, it is the exact one modulo 2^32 (R161). -/
theorem aluF_eq_some {op : AluOp} {a b : Word} {q : AluResult} (h : aluF op a b = some q) :
    q = BitVec.ofInt 32 (exactAlu op a.toNat b.toNat) := by
  unfold aluF at h
  split at h
  · cases h
  · exact (Option.some.inj h).symm

/-! ### Micro-operations -/

theorem perform_rdR (t : Temp) (a : RegAddr) (s : State) :
    perform (.rdR t a) s = .commit (s.writeTemp t (s.readReg a)) := rfl

theorem perform_waR (a : RegAddr) (s : State) : perform (.waR a) s = .commit { s with rwl := some a } := rfl

theorem perform_aluLd (op : AluOp) (s : State) :
    perform (.aluLd op) s = .commit { s with aop := op.code, aa := s.t0, ab := s.t1 } := rfl

/-- A memory read in range, outside a write cycle (R111). -/
theorem perform_rdM {t : Temp} {a : MemAddr} {s : State} (hl : s.mwl = none) (ha : a.toNat < s.mem.size) :
    perform (.rdM t a) s = .commit (s.writeTemp t (s.mem.read a.toNat)) := by
  simp [perform, performRdM, hl, ha]

/-- The address phase of a memory write in range (R112). -/
theorem perform_waM {a : MemAddr} {s : State} (ha : a.toNat < s.mem.size) :
    perform (.waM a) s = .commit { s with mwl := some a } := by
  simp [perform, performWaM, ha]

/-- The data phase of a register write (R112). -/
theorem perform_wdR {v : Source} {a : RegAddr} {s : State} (hl : s.rwl = some a) :
    perform (.wdR v) s = .commit { s with regs := s.regs.set a.toNat (s.sourceValue v), rwl := none } := by
  simp [perform, performWdR, hl, State.writeReg]

/-- The data phase of a memory write in range (R112). -/
theorem perform_wdM {v : Source} {a : MemAddr} {s : State} (hl : s.mwl = some a) (ha : a.toNat < s.mem.size) :
    perform (.wdM v) s = .commit { s with mem := s.mem.write a.toNat (s.sourceValue v), mwl := none } := by
  simp [perform, performWdM, hl, ha, State.writeMem]

/-- `ALU_EV` without a fault (R114). -/
theorem perform_aluEv_some {op : AluOp} {q : AluResult} {s : State} (hop : s.aop = op.code)
    (hq : aluF op s.aa s.ab = some q) : perform .aluEv s = .commit { s with aluQ := q } := by
  simp [perform, performAluEv, hop, hq]

/-- `ALU_EV` with a fault (R114, R180). -/
theorem perform_aluEv_none {op : AluOp} {s : State} (hop : s.aop = op.code) (hq : aluF op s.aa s.ab = none) :
    perform .aluEv s = .arithmeticFault (.division s.aop 0) := by
  simp [perform, performAluEv, hop, hq]

/-- All a micro-operation can do when it commits. -/
theorem perform_commit_cases {u : MicroOp} {s s' : State} (h : perform u s = .commit s') :
    (∃ t a, u = .rdR t a ∧ s' = s.writeTemp t (s.readReg a)) ∨
    (∃ t a, u = .rdM t a ∧ s.mwl = none ∧ a.toNat < s.mem.size ∧ s' = s.writeTemp t (s.mem.read a.toNat)) ∨
    (∃ a, u = .waR a ∧ s' = { s with rwl := some a }) ∨
    (∃ v a, u = .wdR v ∧ s.rwl = some a ∧
      s' = { s with regs := s.regs.set a.toNat (s.sourceValue v), rwl := none }) ∨
    (∃ a, u = .waM a ∧ a.toNat < s.mem.size ∧ s' = { s with mwl := some a }) ∨
    (∃ v a, u = .wdM v ∧ s.mwl = some a ∧ a.toNat < s.mem.size ∧
      s' = { s with mem := s.mem.write a.toNat (s.sourceValue v), mwl := none }) ∨
    (∃ op, u = .aluLd op ∧ s' = { s with aop := op.code, aa := s.t0, ab := s.t1 }) ∨
    (∃ op q, u = .aluEv ∧ s.aop = op.code ∧ aluF op s.aa s.ab = some q ∧ s' = { s with aluQ := q }) := by
  cases u with
  | rdR t a => exact .inl ⟨t, a, rfl, (Performed.commit.inj h).symm⟩
  | rdM t a =>
    simp only [perform, performRdM, memWords_eq_size] at h
    split at h
    · cases h
    split at h
    · cases h
    next hm ha =>
      exact .inr (.inl ⟨t, a, rfl, by simpa using hm, by omega, (Performed.commit.inj h).symm⟩)
  | waR a => exact .inr (.inr (.inl ⟨a, rfl, (Performed.commit.inj h).symm⟩))
  | wdR v =>
    simp only [perform, performWdR] at h
    split at h
    · cases h
    next a hl => exact .inr (.inr (.inr (.inl ⟨v, a, rfl, hl, (Performed.commit.inj h).symm⟩)))
  | waM a =>
    simp only [perform, performWaM, memWords_eq_size] at h
    split at h
    · cases h
    next ha => exact .inr (.inr (.inr (.inr (.inl ⟨a, rfl, by omega, (Performed.commit.inj h).symm⟩))))
  | wdM v =>
    simp only [perform, performWdM, memWords_eq_size] at h
    split at h
    · cases h
    next a hl =>
      split at h
      · cases h
      next ha =>
        exact .inr (.inr (.inr (.inr (.inr (.inl ⟨v, a, rfl, hl, by omega, (Performed.commit.inj h).symm⟩)))))
  | aluLd op => exact .inr (.inr (.inr (.inr (.inr (.inr (.inl ⟨op, rfl, (Performed.commit.inj h).symm⟩))))))
  | aluEv =>
    simp only [perform, performAluEv] at h
    split at h
    · cases h
    next op hop =>
      split at h
      · cases h
      next q hq =>
        exact .inr (.inr (.inr (.inr (.inr (.inr (.inr
          ⟨op, q, rfl, (aluOfCode_eq_some _ _).1 hop, hq, (Performed.commit.inj h).symm⟩))))))

/-- All a micro-operation can do when it raises the arithmetic fault (R180, R233). -/
theorem perform_fault_cases {u : MicroOp} {s : State} {d : Detail} (h : perform u s = .arithmeticFault d) :
    u = .aluEv ∧ d = .division s.aop 0 ∧ (s.aop = 3 ∨ s.aop = 4) ∧ s.ab = 0 := by
  cases u with
  | rdR t a => cases h
  | rdM t a =>
    simp only [perform, performRdM] at h
    split at h
    · cases h
    split at h <;> cases h
  | waR a => cases h
  | wdR v =>
    simp only [perform, performWdR] at h
    split at h <;> cases h
  | waM a =>
    simp only [perform, performWaM] at h
    split at h <;> cases h
  | wdM v =>
    simp only [perform, performWdM] at h
    split at h
    · cases h
    · split at h <;> cases h
  | aluLd op => cases h
  | aluEv =>
    simp only [perform, performAluEv] at h
    split at h
    · cases h
    next op hop =>
      split at h
      next hq =>
        have hcode := (aluOfCode_eq_some _ _).1 hop
        obtain ⟨hdm, hb⟩ := (aluF_eq_none _ _ _).1 hq
        refine ⟨rfl, (Performed.arithmeticFault.inj h).symm, ?_, hb⟩
        rcases hdm with rfl | rfl
        · exact .inl hcode
        · exact .inr hcode
      · cases h

/-- What no micro-operation touches. -/
theorem perform_commit_frame {u : MicroOp} {s s' : State} (h : perform u s = .commit s') :
    s'.queue = s.queue ∧ s'.qidx = s.qidx ∧ s'.fsm = s.fsm ∧ s'.ir = s.ir ∧ s'.reports = s.reports ∧
      s'.dump = s.dump ∧ s'.mem.size = s.mem.size := by
  rcases perform_commit_cases h with ⟨t, a, -, rfl⟩ | ⟨t, a, -, -, -, rfl⟩ | ⟨a, -, rfl⟩ | ⟨v, a, -, -, rfl⟩ |
    ⟨a, -, -, rfl⟩ | ⟨v, a, -, -, -, rfl⟩ | ⟨op, -, rfl⟩ | ⟨op, q, -, -, -, rfl⟩
  · cases t <;> exact ⟨rfl, rfl, rfl, rfl, rfl, rfl, rfl⟩
  · cases t <;> exact ⟨rfl, rfl, rfl, rfl, rfl, rfl, rfl⟩
  all_goals exact ⟨rfl, rfl, rfl, rfl, rfl, rfl, rfl⟩

/-- A micro-operation keeps the memory's form (R25, R58). -/
theorem perform_commit_wf {u : MicroOp} {s s' : State} (h : perform u s = .commit s') (hm : s.mem.wf = true) :
    s'.mem.wf = true := by
  rcases perform_commit_cases h with ⟨t, a, -, rfl⟩ | ⟨t, a, -, -, -, rfl⟩ | ⟨a, -, rfl⟩ | ⟨v, a, -, -, rfl⟩ |
    ⟨a, -, -, rfl⟩ | ⟨v, a, -, -, ha, rfl⟩ | ⟨op, -, rfl⟩ | ⟨op, q, -, -, -, rfl⟩
  · cases t <;> exact hm
  · cases t <;> exact hm
  · exact hm
  · exact hm
  · exact hm
  · exact wf_write hm ha _
  · exact hm
  · exact hm

/-! ### The table runner -/

theorem runSteps_nil (s : State) : runSteps [] s = .next s.retire := rfl

theorem runSteps_commit {u : MicroOp} {rest : List MicroOp} {s s' : State} (h : perform u s = .commit s') :
    runSteps (u :: rest) s = runSteps rest s' := by
  simp [runSteps, h]

theorem runSteps_fault {u : MicroOp} {rest : List MicroOp} {s : State} {d : Detail}
    (h : perform u s = .arithmeticFault d) : runSteps (u :: rest) s = .next (s.takeArithmeticFault d) := by
  simp [runSteps, h]

/-- All a table can do when it answers a next state: retire after its last step, or take the arithmetic fault; either way
the queue and the dump are as at its start but for the retirement. -/
theorem runSteps_next_cases {table : List MicroOp} {s t : State} (h : runSteps table s = .next t) :
    ∃ s' : State, s'.queue = s.queue ∧ s'.qidx = s.qidx ∧ s'.ir = s.ir ∧ s'.reports = s.reports ∧
      s'.dump = s.dump ∧ s'.mem.size = s.mem.size ∧ (s.mem.wf = true → s'.mem.wf = true) ∧
      (t = s'.retire ∨ ∃ d, t = s'.takeArithmeticFault d) := by
  induction table generalizing s with
  | nil =>
    cases h
    exact ⟨s, rfl, rfl, rfl, rfl, rfl, rfl, id, .inl rfl⟩
  | cons u rest ih =>
    simp only [runSteps] at h
    split at h
    next s' hp =>
      obtain ⟨hq, hi, -, hir, hr, hd, hn⟩ := perform_commit_frame hp
      obtain ⟨x, xq, xi, xir, xr, xd, xn, xw, hx⟩ := ih h
      exact ⟨x, xq.trans hq, xi.trans hi, xir.trans hir, xr.trans hr, xd.trans hd, xn.trans hn,
        fun w => xw (perform_commit_wf hp w), hx⟩
    next d hp =>
      cases h
      exact ⟨s, rfl, rfl, rfl, rfl, rfl, rfl, id, .inr ⟨d, rfl⟩⟩
    · cases h

/-- An instruction whose addresses are in range runs its table, IR loaded with the head (R106, R107). -/
theorem runInstr_inRange {i : Instr} {table : List MicroOp} {s : State} {w : IWord} {rest : List IWord}
    (hq : s.queue = w :: rest) (hr : i.wellFormed s.mem.size = true) :
    runInstr i table s = runSteps table (s.loadIr w i.cls) := by
  simp [runInstr, hq, (firstOutOfRange_eq_none _ _).2 hr]

/-- An instruction with an address out of range is reported and retired (R86, R236). -/
theorem runInstr_outOfRange {i : Instr} {table : List MicroOp} {s : State} {w : IWord} {rest : List IWord} {f : Field}
    {a : MemAddr} (hq : s.queue = w :: rest) (hr : firstOutOfRange s.mem.size i.addrFields = some (f, a)) :
    runInstr i table s = .next (s.takeAddressOutOfRange w f a) := by
  simp [runInstr, hq, hr]

/-- Every meaning is the run of its instruction's table: the tables the edges read are the ones the meanings run. -/
theorem exec_eq_runInstr (i : Instr) (s : State) : exec i s = runInstr i (microOps i) s := by
  cases i <;> rfl

/-! ### The edge and the step -/

/-- All an edge can do (R104). -/
theorem edge_next_cases {s t : State} (h : edge s = .next t) :
    (s.fsm = .idle ∧ t = stepIdle s) ∨
    (∃ w rest i, s.fsm = .decoding ∧ s.queue = w :: rest ∧ verdict s.memWords w = .ok i ∧ t = s.loadIr w i.cls) ∨
    (∃ w rest p, s.fsm = .decoding ∧ s.queue = w :: rest ∧ verdict s.memWords w = .unrecognizedOpcode p ∧
      t = s.takeUnrecognizedOpcode w p) ∨
    (∃ w rest f a, s.fsm = .decoding ∧ s.queue = w :: rest ∧ verdict s.memWords w = .addressOutOfRange f a ∧
      t = s.takeAddressOutOfRange w f a) ∨
    (∃ c k u s', s.fsm = .executing c k ∧ s.currentMicro c k = some u ∧ perform u s = .commit s' ∧
      t = if k + 1 = classSteps c then s'.retire else { s' with fsm := .executing c (k + 1) }) ∨
    (∃ c k u d, s.fsm = .executing c k ∧ s.currentMicro c k = some u ∧ perform u s = .arithmeticFault d ∧
      t = s.takeArithmeticFault d) ∨
    (∃ i, s.fsm = .draining i ∧ i < s.drainLength ∧
      t = { s with
        dump := s.dump ++ [s.dumpRecord i]
        fsm := if i + 1 = s.drainLength then .halted else .draining (i + 1) }) ∨
    (s.fsm = .halted ∧ t = s) := by
  unfold edge at h
  split at h
  next hf => exact .inl ⟨hf, (Host.Outcome.next.inj h).symm⟩
  next hf =>
    unfold stepDecode at h
    split at h
    · cases h
    next w rest hq =>
      split at h
      next i hv => exact .inr (.inl ⟨w, rest, i, hf, hq, hv, (Host.Outcome.next.inj h).symm⟩)
      next p hv => exact .inr (.inr (.inl ⟨w, rest, p, hf, hq, hv, (Host.Outcome.next.inj h).symm⟩))
      next f a hv =>
        exact .inr (.inr (.inr (.inl ⟨w, rest, f, a, hf, hq, hv, (Host.Outcome.next.inj h).symm⟩)))
  next c k hf =>
    unfold stepExec at h
    split at h
    · cases h
    next u hu =>
      split at h
      next s' hp =>
        refine .inr (.inr (.inr (.inr (.inl ⟨c, k, u, s', hf, hu, hp, ?_⟩))))
        split at h
        next hk => rw [if_pos hk]; exact (Host.Outcome.next.inj h).symm
        next hk => rw [if_neg hk]; exact (Host.Outcome.next.inj h).symm
      next d hp =>
        exact .inr (.inr (.inr (.inr (.inr (.inl ⟨c, k, u, d, hf, hu, hp, (Host.Outcome.next.inj h).symm⟩)))))
      · cases h
  next i hf =>
    unfold stepDrain at h
    split at h
    · cases h
    next hi =>
      exact .inr (.inr (.inr (.inr (.inr (.inr (.inl ⟨i, hf, by omega, (Host.Outcome.next.inj h).symm⟩))))))
  next hf => exact .inr (.inr (.inr (.inr (.inr (.inr (.inr ⟨hf, (Host.Outcome.next.inj h).symm⟩))))))

/-- Outside `Decoding`, a step is one edge. -/
theorem step_eq_edge {s : State} (h : s.fsm ≠ .decoding) : step s = edge s := by
  unfold step
  cases hf : s.fsm <;> simp_all

/-- In `Decoding`, a step is what the head is. -/
theorem step_eq_runHead {s : State} (h : s.fsm = .decoding) : step s = runHead s := by
  simp [step, h]

end Sys2Proof.Machine
end

