-- ==== Sys2Proof/Laws/PerInstr.lean ====
section
/-! SUPPORT. Statements about every instruction, one lemma per constructor. -/

namespace Sys2Proof.Laws

/-- The opcode field of an encoded instruction is its class's (R71, R72), so its word has its class's format. -/
def EncodedClass.Statement (i : Instr) : Prop := formatOf (encode i) = i.cls

/-- A word has the format of a class when its opcode field is that class's. -/
theorem formatOf_eq {w : IWord} {c : InstrClass} (h : w.toNat / 2 ^ 29 = c.code.toNat) : formatOf w = c := by
  have hop : opcodeField w = c.code := by
    apply BitVec.eq_of_toNat_eq
    have hw := w.isLt
    simp only [opcodeField, BitVec.extractLsb'_toNat, Nat.shiftRight_eq_div_pow, h]
    exact Nat.mod_eq_of_lt c.code.isLt
  rw [formatOf, hop, ofCode_classCode]

/-- The opcode of an ALU word. -/
theorem formatOf_encodeAlu (op : AluOp) (rs1 rs2 rd : RegAddr) : formatOf (encodeAlu op rs1 rs2 rd) = .aluOperation := by
  apply formatOf_eq
  simp only [encodeAlu, toNat_append_eq]
  have h1 := rs1.isLt
  have h2 := rs2.isLt
  have h3 := rd.isLt
  have h4 := op.code.isLt
  simp only [InstrClass.code, BitVec.toNat_ofNat]
  omega

theorem EncodedClass.wmem (a : MemAddr) (d : Word) : EncodedClass.Statement (.wmem a d) := by
  apply formatOf_eq
  have h0 := a.isLt
  have h1 := d.isLt
  simp only [encode, toNat_append_eq, InstrClass.code, Instr.cls, BitVec.toNat_ofNat]
  omega

theorem EncodedClass.wreg (r : RegAddr) (d : Word) : EncodedClass.Statement (.wreg r d) := by
  apply formatOf_eq
  have h0 := r.isLt
  have h1 := d.isLt
  simp only [encode, toNat_append_eq, InstrClass.code, Instr.cls, BitVec.toNat_ofNat]
  omega

theorem EncodedClass.add (rs1 rs2 rd : RegAddr) : EncodedClass.Statement (.add rs1 rs2 rd) :=
  formatOf_encodeAlu .add rs1 rs2 rd

theorem EncodedClass.sub (rs1 rs2 rd : RegAddr) : EncodedClass.Statement (.sub rs1 rs2 rd) :=
  formatOf_encodeAlu .sub rs1 rs2 rd

theorem EncodedClass.mul (rs1 rs2 rd : RegAddr) : EncodedClass.Statement (.mul rs1 rs2 rd) :=
  formatOf_encodeAlu .mul rs1 rs2 rd

theorem EncodedClass.div (rs1 rs2 rd : RegAddr) : EncodedClass.Statement (.div rs1 rs2 rd) :=
  formatOf_encodeAlu .div rs1 rs2 rd

theorem EncodedClass.mod (rs1 rs2 rd : RegAddr) : EncodedClass.Statement (.mod rs1 rs2 rd) :=
  formatOf_encodeAlu .mod rs1 rs2 rd

theorem EncodedClass.pow (rs1 rs2 rd : RegAddr) : EncodedClass.Statement (.pow rs1 rs2 rd) :=
  formatOf_encodeAlu .pow rs1 rs2 rd

theorem EncodedClass.and (rs1 rs2 rd : RegAddr) : EncodedClass.Statement (.and rs1 rs2 rd) :=
  formatOf_encodeAlu .and rs1 rs2 rd

theorem EncodedClass.or (rs1 rs2 rd : RegAddr) : EncodedClass.Statement (.or rs1 rs2 rd) :=
  formatOf_encodeAlu .or rs1 rs2 rd

theorem EncodedClass.nand (rs1 rs2 rd : RegAddr) : EncodedClass.Statement (.nand rs1 rs2 rd) :=
  formatOf_encodeAlu .nand rs1 rs2 rd

theorem EncodedClass.nor (rs1 rs2 rd : RegAddr) : EncodedClass.Statement (.nor rs1 rs2 rd) :=
  formatOf_encodeAlu .nor rs1 rs2 rd

theorem EncodedClass.xor (rs1 rs2 rd : RegAddr) : EncodedClass.Statement (.xor rs1 rs2 rd) :=
  formatOf_encodeAlu .xor rs1 rs2 rd

theorem EncodedClass.xnor (rs1 rs2 rd : RegAddr) : EncodedClass.Statement (.xnor rs1 rs2 rd) :=
  formatOf_encodeAlu .xnor rs1 rs2 rd

theorem EncodedClass.not (rs1 rs2 rd : RegAddr) : EncodedClass.Statement (.not rs1 rs2 rd) :=
  formatOf_encodeAlu .not rs1 rs2 rd

theorem EncodedClass.rotm (a : MemAddr) (b : MemAddr) (c : MemAddr) : EncodedClass.Statement (.rotm a b c) := by
  apply formatOf_eq
  have h0 := a.isLt
  have h1 := b.isLt
  have h2 := c.isLt
  simp only [encode, toNat_append_eq, InstrClass.code, Instr.cls, BitVec.toNat_ofNat]
  omega

theorem EncodedClass.rotr (a : RegAddr) (b : RegAddr) (c : RegAddr) : EncodedClass.Statement (.rotr a b c) := by
  apply formatOf_eq
  have h0 := a.isLt
  have h1 := b.isLt
  have h2 := c.isLt
  simp only [encode, toNat_append_eq, InstrClass.code, Instr.cls, BitVec.toNat_ofNat]
  omega

theorem EncodedClass.r2m (r : RegAddr) (a : MemAddr) : EncodedClass.Statement (.r2m r a) := by
  apply formatOf_eq
  have h0 := r.isLt
  have h1 := a.isLt
  simp only [encode, toNat_append_eq, InstrClass.code, Instr.cls, BitVec.toNat_ofNat]
  omega

theorem EncodedClass.m2r (a : MemAddr) (r : RegAddr) : EncodedClass.Statement (.m2r a r) := by
  apply formatOf_eq
  have h0 := a.isLt
  have h1 := r.isLt
  simp only [encode, toNat_append_eq, InstrClass.code, Instr.cls, BitVec.toNat_ofNat]
  omega

theorem EncodedClass.clr (r : RegAddr) : EncodedClass.Statement (.clr r) := by
  apply formatOf_eq
  have h0 := r.isLt
  simp only [encode, toNat_append_eq, InstrClass.code, Instr.cls, BitVec.toNat_ofNat]
  omega

end Sys2Proof.Laws
end

