-- ==== Sys2Proof/Laws/Sequencer.lean ====
section
/-! SUPPORT. The micro-step tables and the runs: what an `Executing` edge does with its micro-operation, where the tables have
their ALU steps, which latch a step finds, and that runs compose. -/

namespace Sys2Proof.Machine

/-! ### The `Executing` edge -/

/-- An `Executing` edge whose micro-operation commits (R107). -/
theorem edge_of_commit {s s' : State} {c : InstrClass} {k : Nat} {u : MicroOp} (hf : s.fsm = .executing c k)
    (hu : s.currentMicro c k = some u) (hp : perform u s = .commit s') :
    edge s = .next (if k + 1 = classSteps c then s'.retire else { s' with fsm := .executing c (k + 1) }) := by
  simp only [edge, hf, stepExec, hu, hp]
  split <;> rfl

/-- An `Executing` edge whose micro-operation raises the arithmetic fault (R107, R180). -/
theorem edge_of_arithmeticFault {s : State} {c : InstrClass} {k : Nat} {u : MicroOp} {d : Detail}
    (hf : s.fsm = .executing c k) (hu : s.currentMicro c k = some u) (hp : perform u s = .arithmeticFault d) :
    edge s = .next (s.takeArithmeticFault d) := by
  simp only [edge, hf, stepExec, hu, hp]

/-- An `Executing` edge whose micro-operation has no step. -/
theorem edge_of_stop {s : State} {c : InstrClass} {k : Nat} {u : MicroOp} {f : Fault} (hf : s.fsm = .executing c k)
    (hu : s.currentMicro c k = some u) (hp : perform u s = .stop f) : edge s = .fault f := by
  simp only [edge, hf, stepExec, hu, hp]

/-- The micro-operation of a step, where IR holds an instruction of the class (R107). -/
theorem currentMicro_of_verdict {s : State} {i : Instr} (k : Nat) (hv : verdict s.mem.size s.ir = .ok i) :
    s.currentMicro i.cls k = (microOps i)[k]? := by
  simp [State.currentMicro, hv]

/-- Where a micro-operation comes from (R107). -/
theorem currentMicro_eq_some {s : State} {c : InstrClass} {k : Nat} {u : MicroOp} (h : s.currentMicro c k = some u) :
    ∃ i, verdict s.mem.size s.ir = .ok i ∧ i.cls = c ∧ (microOps i)[k]? = some u := by
  unfold State.currentMicro at h
  split at h
  next i hv =>
    split at h
    next hc => exact ⟨i, hv, hc, h⟩
    next => cases h
  next => cases h
  next => cases h

/-- The micro-operation of the current step, in `Executing`. -/
theorem activeMicro_executing {s : State} {c : InstrClass} {k : Nat} (hf : s.fsm = .executing c k) :
    s.activeMicro = s.currentMicro c k := by
  simp only [State.activeMicro, hf]

/-! ### The tables -/

@[simp] theorem microOps_aluInstr (op : AluOp) (a b d : RegAddr) : microOps (op.instr a b d) = stepsAlu op a b d := by
  cases op <;> rfl

@[simp] theorem wellFormed_aluInstr (n : Nat) (op : AluOp) (a b d : RegAddr) :
    (op.instr a b d).wellFormed n = true := by
  cases op <;> rfl

/-- An instruction is an ALU operation's, or its table has no ALU step. -/
theorem aluInstr_or_no_alu_step (i : Instr) :
    (∃ (op : AluOp) (a b d : RegAddr), i = op.instr a b d) ∨
      ∀ u ∈ microOps i, u ≠ .aluEv ∧ ∀ op, u ≠ .aluLd op := by
  cases i
  case add a b d => exact .inl ⟨.add, a, b, d, rfl⟩
  case sub a b d => exact .inl ⟨.sub, a, b, d, rfl⟩
  case mul a b d => exact .inl ⟨.mul, a, b, d, rfl⟩
  case div a b d => exact .inl ⟨.div, a, b, d, rfl⟩
  case mod a b d => exact .inl ⟨.mod, a, b, d, rfl⟩
  case pow a b d => exact .inl ⟨.pow, a, b, d, rfl⟩
  case and a b d => exact .inl ⟨.and, a, b, d, rfl⟩
  case or a b d => exact .inl ⟨.or, a, b, d, rfl⟩
  case nand a b d => exact .inl ⟨.nand, a, b, d, rfl⟩
  case nor a b d => exact .inl ⟨.nor, a, b, d, rfl⟩
  case xor a b d => exact .inl ⟨.xor, a, b, d, rfl⟩
  case xnor a b d => exact .inl ⟨.xnor, a, b, d, rfl⟩
  case not a b d => exact .inl ⟨.not, a, b, d, rfl⟩
  all_goals
    right
    simp [microOps, stepsWmem, stepsWreg, stepsRotm, stepsRotr, stepsR2m, stepsM2r, stepsClr]

/-- The memory addresses a table presents are the instruction's own, so a well-formed instruction's are below N (R58). -/
theorem microOps_inRange {n : Nat} {i : Instr} (h : i.wellFormed n = true) {k : Nat} {u : MicroOp}
    (hu : (microOps i)[k]? = some u) :
    (∀ t a, u = .rdM t a → a.toNat < n) ∧ ∀ a, u = .waM a → a.toNat < n := by
  have hm := List.mem_of_getElem? hu
  cases i <;>
    simp only [microOps, stepsWmem, stepsWreg, stepsAlu, stepsRotm, stepsRotr, stepsR2m, stepsM2r, stepsClr,
      List.mem_cons, List.not_mem_nil, or_false] at hm <;>
    simp only [Instr.wellFormed, Bool.and_eq_true, decide_eq_true_eq] at h <;>
    (repeat' rcases hm with rfl | hm) <;> simp_all

/-- The latches that the step after `u` finds (R112). -/
theorem latchesBefore_succ {i : Instr} {k : Nat} {u : MicroOp} (h : (microOps i)[k]? = some u) :
    rwlBefore i (k + 1) = (match u with | .waR a => some a | _ => none) ∧
      mwlBefore i (k + 1) = (match u with | .waM a => some a | _ => none) := by
  simp only [rwlBefore, mwlBefore, h]
  cases u <;> exact ⟨rfl, rfl⟩

/-! ### Runs compose -/

theorem edges_one (s : State) : edges 1 s = edge s := by
  simp only [edges]
  cases edge s <;> rfl

/-- A run of edges, cut in two. -/
theorem edges_add {m : Nat} (n : Nat) {s t : State} (h : edges m s = .next t) : edges (m + n) s = edges n t := by
  induction m generalizing s with
  | zero =>
    cases h
    rw [Nat.zero_add]
  | succ m ih =>
    rw [Nat.succ_add]
    simp only [edges] at h ⊢
    split at h
    next x hx => exact ih h
    next => cases h
    next => cases h

/-- A run of steps, cut in two. -/
theorem steps_add {m : Nat} (n : Nat) {s t : State} (h : steps m s = .next t) : steps (m + n) s = steps n t := by
  induction m generalizing s with
  | zero =>
    cases h
    rw [Nat.zero_add]
  | succ m ih =>
    rw [Nat.succ_add]
    simp only [steps] at h ⊢
    split at h
    next x hx => exact ih h
    next => cases h
    next => cases h

end Sys2Proof.Machine
end

