-- ==== Sys2Proof/Tests/Slice0.lean ====
section
/-! SUPPORT. Tests: ill-formed instructions, words written out from the spec's formats, one-step vectors of
95_test_vectors.md, and for every statement with hypotheses a concrete case that meets them. Expected values are the spec's
own; the rule or section is named beside each group. -/

namespace Sys2Proof.Tests

open Sys2Proof.Machine Sys2Proof.Claims

/-! ### Small states -/

/-- The reset state, in `Decoding`, with these words queued. N = 16, all zeros. -/
def heads (q : List IWord) : State := { State.reset with queue := q, fsm := .decoding }

/-- A state with three registers set: r1, r2, r3. -/
def regs3 (s : State) (a b c : Word) : State := { s with regs := ((s.regs.set 1 a).set 2 b).set 3 c }

/-- A state with memory words 0 to 3 set. -/
def mem4 (s : State) (a b c d : Word) : State :=
  { s with mem := (((s.mem.write 0 a).write 1 b).write 2 c).write 3 d }

/-- At step `k` of instruction `i`, the latches as the tables leave them. -/
def mid (i : Instr) (k : Nat) : State :=
  { State.reset with
    queue := [encode i]
    ir := encode i
    fsm := .executing i.cls k
    rwl := rwlBefore i k
    mwl := mwlBefore i k
    aop := aluopField (encode i) }

/-- The next state of an outcome. -/
def after : Host.Outcome State Fault Refusal → Option State
  | .next t => some t
  | .fault _ => none
  | .refused _ => none

/-- Registers 1 to 3 after one step. -/
def regsAfter (s : State) : Option (Word × Word × Word) :=
  (after (step s)).map fun t => (t.readReg 1, t.readReg 2, t.readReg 3)

/-- Memory words 0 to 3 after one step. -/
def memAfter (s : State) : Option (Word × Word × Word × Word) :=
  (after (step s)).map fun t => (t.mem.read 0, t.mem.read 1, t.mem.read 2, t.mem.read 3)

/-- `alu_q` and register 3 after one step of an ALU word on r1 = a, r2 = b. -/
def aluAfter (w : IWord) (a b : Word) : Option (AluResult × Word) :=
  (after (step (regs3 (heads [w]) a b 9))).map fun t => (t.aluQ, t.readReg 3)

/-- The reports after one step. -/
def reportsAfter (s : State) : Option (List Report) := (after (step s)).map fun t => t.reports

/-! ### WellFormed refuses each ill-formed field (R86), N = 16 -/

theorem test_wf_wmem : (Instr.wmem 16 0).wellFormed 16 = false ∧ (Instr.wmem 15 0).wellFormed 16 = true := by decide
theorem test_wf_rotm_a : (Instr.rotm 16 0 0).wellFormed 16 = false := by decide
theorem test_wf_rotm_b : (Instr.rotm 0 16 0).wellFormed 16 = false := by decide
theorem test_wf_rotm_c : (Instr.rotm 0 0 16).wellFormed 16 = false := by decide
theorem test_wf_rotm : (Instr.rotm 15 15 15).wellFormed 16 = true := by decide
theorem test_wf_r2m : (Instr.r2m 3 200).wellFormed 16 = false ∧ (Instr.r2m 3 15).wellFormed 16 = true := by decide
theorem test_wf_m2r : (Instr.m2r 16 4).wellFormed 16 = false ∧ (Instr.m2r 15 31).wellFormed 16 = true := by decide

/-! ### Decoding, words written out from the formats R74 to R81 -/

theorem test_decode_wmem : verdict 16 0b00000000010000000001001000110100#32 = .ok (.wmem 2 0x1234) := by decide
theorem test_decode_wreg : verdict 16 0b00111111000000001111111111111111#32 = .ok (.wreg 31 0xFFFF) := by decide
theorem test_decode_add : verdict 16 0b01000001000100001100000000000000#32 = .ok (.add 1 2 3) := by decide
theorem test_decode_sub : verdict 16 0b01000001000100001100010000000000#32 = .ok (.sub 1 2 3) := by decide
theorem test_decode_mul : verdict 16 0b01000001000100001100100000000000#32 = .ok (.mul 1 2 3) := by decide
theorem test_decode_div : verdict 16 0b01000001000100001100110000000000#32 = .ok (.div 1 2 3) := by decide
theorem test_decode_mod : verdict 16 0b01000001000100001101000000000000#32 = .ok (.mod 1 2 3) := by decide
theorem test_decode_pow : verdict 16 0b01000001000100001101010000000000#32 = .ok (.pow 1 2 3) := by decide
theorem test_decode_and : verdict 16 0b01000001000100001101100000000000#32 = .ok (.and 1 2 3) := by decide
theorem test_decode_or : verdict 16 0b01000001000100001101110000000000#32 = .ok (.or 1 2 3) := by decide
theorem test_decode_nand : verdict 16 0b01000001000100001110000000000000#32 = .ok (.nand 1 2 3) := by decide
theorem test_decode_nor : verdict 16 0b01000001000100001110010000000000#32 = .ok (.nor 1 2 3) := by decide
theorem test_decode_xor : verdict 16 0b01000001000100001110100000000000#32 = .ok (.xor 1 2 3) := by decide
theorem test_decode_xnor : verdict 16 0b01000001000100001110110000000000#32 = .ok (.xnor 1 2 3) := by decide
theorem test_decode_not : verdict 16 0b01000001000000001111000000000000#32 = .ok (.not 1 0 3) := by decide
theorem test_decode_rotm : verdict 16 0b01100000010000000010000000000000#32 = .ok (.rotm 2 1 0) := by decide
theorem test_decode_rotr : verdict 16 0b10000001000100001100000000000000#32 = .ok (.rotr 1 2 3) := by decide
theorem test_decode_r2m : verdict 16 0b10100011000001010000000000000000#32 = .ok (.r2m 3 5) := by decide
theorem test_decode_m2r : verdict 16 0b11000000101001000000000000000000#32 = .ok (.m2r 5 4) := by decide
theorem test_decode_clr : verdict 16 0b11100111000000000000000000000000#32 = .ok (.clr 7) := by decide

/-- Filler bits set (95 section 2.1). -/
theorem test_decode_filler :
    verdict 16 0x005F1234#32 = .ok (.wmem 2 0x1234) ∧ verdict 16 0x20FF0007#32 = .ok (.wreg 0 7) ∧
    verdict 16 0x4110C3FF#32 = .ok (.add 1 2 3) ∧ verdict 16 0x5FFFF3FF#32 = .ok (.not 31 31 31) ∧
    verdict 16 0x9FFFFFFF#32 = .ok (.rotr 31 31 31) ∧ verdict 16 0xFFFFFFFF#32 = .ok (.clr 31) := by decide

/-- Error verdicts (95 section 2.1). -/
theorem test_decode_errors :
    verdict 16 0x02000005#32 = .addressOutOfRange .maddr 16 ∧ verdict 16 0x40003400#32 = .unrecognizedOpcode 13 ∧
    verdict 16 0x40003800#32 = .unrecognizedOpcode 14 ∧ verdict 16 0x62002040#32 = .addressOutOfRange .ma 16 ∧
    verdict 16 0x60020040#32 = .addressOutOfRange .mb 16 ∧ verdict 16 0x60002200#32 = .addressOutOfRange .mc 16 ∧
    verdict 16 0xBF10FFFF#32 = .addressOutOfRange .maddr 16 ∧ verdict 16 0xC2040000#32 = .addressOutOfRange .maddr 16 ∧
    verdict 1 0x00200000#32 = .addressOutOfRange .maddr 1 ∧ verdict 256 0x1FE00000#32 = .ok (.wmem 255 0) := by decide

/-- Words of 30_encoding section 9 and of the examples of 42 and 43. -/
theorem test_encode :
    encode (.wreg 3 5) = 0x23000005#32 ∧ encode (.add 3 4 5) = 0x43214000#32 ∧ encode (.not 1 0 3) = 0x4100F000#32 ∧
    encode (.rotm 0 1 2) = 0x60002040#32 ∧ encode (.rotr 1 2 3) = 0x8110C000#32 ∧ encode (.r2m 3 5) = 0xA3050000#32 ∧
    encode (.m2r 5 4) = 0xC0A40000#32 ∧ encode (.clr 7) = 0xE7000000#32 := by decide

/-! ### One step of each instruction (95 sections 2.2 to 2.4) -/

theorem test_wmem : memAfter (heads [0x00401234#32]) = some (0, 0, 0x1234, 0) := by decide
theorem test_wmem_zero : memAfter (mem4 (heads [0x00400000#32]) 0 0 7 0) = some (0, 0, 0, 0) := by decide
theorem test_wreg_r0 : (after (step (heads [0x20000007#32]))).map (fun t => t.readReg 0) = some 7 := by decide
theorem test_wreg : regsAfter (heads [0x21000007#32]) = some (7, 0, 0) := by decide
theorem test_clr : regsAfter (regs3 (heads [0xE2000000#32]) 8 9 7) = some (8, 0, 7) := by decide
theorem test_add : aluAfter 0x4110C000#32 0xFFFF 1 = some (0x10000, 0) := by decide
theorem test_add_alias : regsAfter (regs3 (heads [0x41084000#32]) 5 0 0) = some (0xA, 0, 0) := by decide
theorem test_sub : aluAfter 0x4110C400#32 5 7 = some (0xFFFFFFFE, 0xFFFE) := by decide
theorem test_mul : aluAfter 0x4110C800#32 0x12C 0x12C = some (0x15F90, 0x5F90) := by decide
theorem test_mul_max : aluAfter 0x4110C800#32 0xFFFF 0xFFFF = some (0xFFFE0001, 1) := by decide
theorem test_div : aluAfter 0x4110CC00#32 7 2 = some (3, 3) := by decide
theorem test_div_zero :
    aluAfter 0x4110CC00#32 5 0 = some (0, 9) ∧ reportsAfter (regs3 (heads [0x4110CC00#32]) 5 0 9) =
      some [⟨.arithmeticFault, 0, 0x4110CC00#32, .division 3 0⟩] := by decide
theorem test_mod : aluAfter 0x4110D000#32 7 2 = some (1, 1) := by decide
theorem test_mod_zero :
    reportsAfter (regs3 (heads [0x4110D000#32]) 5 0 9) =
      some [⟨.arithmeticFault, 0, 0x4110D000#32, .division 4 0⟩] := by decide
theorem test_pow : aluAfter 0x4110D400#32 3 0x14 = some (0xCFD41B91, 0x1B91) := by decide
theorem test_pow_zero : aluAfter 0x4110D400#32 0 0 = some (1, 1) := by decide
theorem test_and : aluAfter 0x4110D800#32 0xF0F0 0x0FF0 = some (0x00F0, 0x00F0) := by decide
theorem test_or : aluAfter 0x4110DC00#32 0xF0F0 0x0FF0 = some (0xFFF0, 0xFFF0) := by decide
theorem test_nand : aluAfter 0x4110E000#32 0xF0F0 0x0FF0 = some (0xFF0F, 0xFF0F) := by decide
theorem test_nor : aluAfter 0x4110E400#32 0xF0F0 0x0FF0 = some (0x000F, 0x000F) := by decide
theorem test_xor : aluAfter 0x4110E800#32 0xF0F0 0x0FF0 = some (0xFF00, 0xFF00) := by decide
theorem test_xnor : aluAfter 0x4110EC00#32 0xF0F0 0x0FF0 = some (0x00FF, 0x00FF) := by decide
theorem test_not : aluAfter 0x4110F000#32 0xF0F0 0x1234 = some (0x0F0F, 0x0F0F) := by decide
theorem test_rotm : memAfter (mem4 (heads [0x60204060#32]) 10 20 30 40) = some (10, 40, 20, 30) := by decide
theorem test_rotm_alias : memAfter (mem4 (heads [0x60002000#32]) 10 20 30 40) = some (10, 10, 30, 40) := by decide
theorem test_rotr : regsAfter (regs3 (heads [0x83104000#32]) 1 2 3) = some (2, 3, 1) := by decide
theorem test_rotr_alias : regsAfter (regs3 (heads [0x8108C000#32]) 1 2 3) = some (3, 2, 1) := by decide
theorem test_r2m :
    (after (step (regs3 (heads [0xA3050000#32]) 0 0 0xBEEF))).map (fun t => t.mem.read 5) = some 0xBEEF := by decide
theorem test_r2m_out_of_range :
    reportsAfter (heads [0xA3C80000#32]) =
      some [⟨.addressOutOfRange, 0, 0xA3C80000#32, .field .maddr 200⟩] := by decide
theorem test_m2r : regsAfter (mem4 (heads [0xC0630000#32]) 0 0 0 0xBEEF) = some (0, 0, 0xBEEF) := by decide
theorem test_unrecognized :
    reportsAfter (heads [0x40003C00#32]) = some [⟨.unrecognizedOpcode, 0, 0x40003C00#32, .field .aluop 15⟩] := by decide

/-! ### The host's two functions -/

theorem test_decodeTableWord : decodeTableWord 32 0x1FE00000 = some (.wmem 255 0) := by decide
theorem test_withFetchWord :
    (after (step (State.reset.withFetchWord 32 0x23000005))).map (fun t => t.readReg 3) = some 5 := by decide

/-! ### The loader (95 section 2.6) and the assembler (R90) -/

theorem test_load_empty : loadStream "".toList = .program [] := by decide
theorem test_load_newline : loadStream "00100011000000000000000000000101\n".toList = .program [0x23000005#32] := by decide
theorem test_load_blank_line : loadStream "00100011000000000000000000000101\n\n".toList = .malformed 1 := by decide
theorem test_load_short : loadStream "00100011000000000000".toList = .malformed 0 := by decide
theorem test_load_long : loadStream "001000110000000000000000000001011".toList = .malformed 0 := by decide
theorem test_load_character : loadStream "0010001100000000000000000000010x".toList = .malformed 0 := by decide
theorem test_assemble_wmem : assemble "wmem m2, 0x1234".toList = some 0x00401234#32 := by decide
theorem test_assemble_add : assemble "add r5, r3, r4".toList = some 0x43214000#32 := by decide
theorem test_assemble_not : assemble "not r3, r1".toList = some 0x4100F000#32 := by decide
theorem test_assemble_r2m : assemble "r2m m5, r3".toList = some 0xA3050000#32 := by decide
theorem test_assemble_refused :
    assemble "wreg r32, 5".toList = none ∧ assemble "wreg r3, 65536".toList = none ∧
      assemble "wmem m256, 0".toList = none := by decide

/-! ### Every statement's hypotheses can be met -/

theorem inv_heads (w : IWord) (q : List IWord) : (heads (w :: q)).Inv :=
  ⟨rfl, by simp [heads], rfl, rfl⟩

theorem inv_mid {i : Instr} {k : Nat} (h : verdict 16 (encode i) = .ok i) (hk : k < classSteps i.cls) : (mid i k).Inv :=
  ⟨rfl, rfl, i, h, rfl, hk, rfl, rfl, fun _ => rfl⟩

theorem witness_ResetPutsEveryField :
    ∃ s : State, s = State.resetWith 1 (fun _ => 7) [0] ∧ 0 < 1 ∧ s.mem.read 0 = 7 := ⟨_, rfl, by decide, by decide⟩

theorem witness_DecodeOfEncode :
    (Instr.rotm 15 0 15).wellFormed 16 = true ∧ (Instr.wmem 0 0xFFFF).wellFormed 1 = true := by decide

theorem witness_FillerBitsIgnored :
    formatOf 0x00401234#32 = formatOf 0x005F1234#32 ∧
      0x00401234#32 &&& ~~~(formatOf 0x00401234#32).fillerMask =
        0x005F1234#32 &&& ~~~(formatOf 0x005F1234#32).fillerMask := by decide

theorem witness_AcceptedWordIsItsEncoding : verdict 16 0x5FFFF3FF#32 = .ok (.not 31 31 31) := by decide

theorem witness_StepRunsDecodedInstruction :
    (heads [0x01E0FFFF#32]).fsm = .decoding ∧ verdict (heads [0x01E0FFFF#32]).memWords 0x01E0FFFF#32 =
      .ok (.wmem 15 0xFFFF) := by decide

theorem witness_IdleEdge :
    State.reset.fsm = .idle ∧ ({ State.reset with queue := [0] } : State).fsm = .idle ∧
      (after (edge State.reset)).isSome = true := by decide

/-- The three verdicts, and an edge into `Decoding`. -/
theorem witness_DecodingEdge :
    ((heads [0]).fsm = .decoding ∧ verdict 16 0 = .ok (.wmem 0 0)) ∧
    verdict 16 0x40003400#32 = .unrecognizedOpcode 13 ∧ verdict 16 0x02000005#32 = .addressOutOfRange .maddr 16 ∧
    (after (edge { State.reset with queue := [0] })).map (fun t => t.fsm) = some .decoding := by decide

theorem witness_ReadStepEdge :
    (mid (.rotr 0 1 31) 2).currentMicro .moveInRegisters 2 = some (.rdR .t2 31) ∧
    (mid (.rotm 0 1 15) 2).currentMicro .moveInMemory 2 = some (.rdM .t2 15) ∧ (mid (.rotm 0 1 15) 2).mwl = none ∧
    (15 : MemAddr).toNat < (mid (.rotm 0 1 15) 2).mem.size := by decide

theorem witness_WriteStepEdges :
    (mid (.wreg 31 7) 0).currentMicro .writeRegister 0 = some (.waR 31) ∧
    ((mid (.wreg 31 7) 1).currentMicro .writeRegister 1 = some (.wdR (.literal 7)) ∧
      (mid (.wreg 31 7) 1).rwl = some 31) ∧
    ((mid (.wmem 15 7) 0).currentMicro .writeMemory 0 = some (.waM 15) ∧
      (15 : MemAddr).toNat < (mid (.wmem 15 7) 0).mem.size) ∧
    ((mid (.wmem 15 7) 1).currentMicro .writeMemory 1 = some (.wdM (.literal 7)) ∧
      (mid (.wmem 15 7) 1).mwl = some 15) ∧
    (microOps (.clr 0))[0]? = some (.waR 0) ∧ (microOps (.r2m 0 255))[1]? = some (.waM 255) := by decide

theorem witness_AluStepEdges :
    (mid (.not 1 2 3) 2).currentMicro .aluOperation 2 = some (.aluLd .not) ∧
    ((mid (.add 1 2 3) 3).currentMicro .aluOperation 3 = some .aluEv ∧ (mid (.add 1 2 3) 3).aop = AluOp.add.code ∧
      aluF .add (mid (.add 1 2 3) 3).aa (mid (.add 1 2 3) 3).ab = some 0) ∧
    ((mid (.mod 1 2 3) 3).currentMicro .aluOperation 3 = some .aluEv ∧ (mid (.mod 1 2 3) 3).aop = AluOp.mod.code ∧
      aluF .mod (mid (.mod 1 2 3) 3).aa (mid (.mod 1 2 3) 3).ab = none) := by decide

theorem witness_ReadsComeBeforeWrites :
    ((microOps (.rotm 0 1 2))[3]? = some (.waM 1) ∧ (microOps (.rotr 0 1 2))[3]? = some (.waR 1) ∧
      (microOps (.wmem 0 7))[1]? = some (.wdM (.literal 7)) ∧ (microOps (.clr 0))[1]? = some (.wdR (.literal 0))) ∧
    ((mid (.clr 0) 1).Inv ∧ (mid (.clr 0) 1).rwl.isSome = true) ∧
    ((mid (.wmem 15 7) 1).Inv ∧ (mid (.wmem 15 7) 1).mwl.isSome = true) :=
  ⟨by decide, ⟨inv_mid (by decide) (by decide), by decide⟩, inv_mid (by decide) (by decide), by decide⟩

/-- An edge that retires and one that does not. -/
theorem witness_QueueChangesOnlyAtRetirement :
    ((after (edge (mid (.clr 0) 1))).isSome = true ∧ (mid (.clr 0) 1).retiresHead = true) ∧
    ((after (edge (mid (.clr 0) 0))).isSome = true ∧ (mid (.clr 0) 0).retiresHead = false) ∧
    ((after (edge (heads [0x40003C00#32]))).isSome = true ∧ (heads [0x40003C00#32]).retiresHead = true) := by decide

theorem witness_AtMostOneReportPerEdge :
    (after (edge (heads [0x40003C00#32]))).map (fun t => t.reports) =
      some [⟨.unrecognizedOpcode, 0, 0x40003C00#32, .field .aluop 15⟩] := by decide

theorem witness_StorePortsCommitTheEdge :
    (after (edge (mid (.wreg 31 7) 1))).map (fun t => t.readReg 31) = some 7 ∧
      (after (edge (mid (.wmem 15 7) 1))).map (fun t => t.mem.read 15) = some 7 := by decide

theorem witness_AtMostOneWritePerEdge :
    ((after (edge (mid (.wreg 31 7) 1))).isSome = true ∧ (mid (.wreg 31 7) 1).rwl ≠ some 30) ∧
    ((after (edge (mid (.wmem 15 7) 1))).isSome = true ∧ (mid (.wmem 15 7) 1).mem.wf = true ∧
      ∀ a, (mid (.wmem 15 7) 1).mwl = some a → a.toNat ≠ 14) := by
  refine ⟨by decide, by decide, by decide, ?_⟩
  intro a ha
  cases ha
  decide

theorem witness_AluOutputIsRegistered :
    (after (edge { mid (.not 1 2 3) 3 with aa := 1 })).map (fun t => decide (t.aluQ ≠ 0)) = some true ∧
    (after (edge { mid (.not 1 2 3) 2 with t0 := 1 })).map (fun t => decide (t.aa ≠ 0)) = some true := by decide

theorem witness_DrainEntry :
    ((State.reset.fsm = .idle ∧ State.reset.queue = []) ∧
      (after (edge State.reset)).map (fun t => t.fsm) = some (.draining 0)) ∧
    (((mid (.clr 0) 1).retiresHead = true ∧ (mid (.clr 0) 1).queue.tail = []) ∧
      (after (edge (mid (.clr 0) 1))).map (fun t => t.fsm) = some (.draining 0)) := by decide

/-- The first, the last register, the first memory and the last index. -/
theorem witness_DrainDumpsRegistersThenMemory :
    ({ State.reset with fsm := .draining 0 } : State).fsm = .draining 0 ∧ 31 < 32 + State.reset.mem.size ∧
      32 < 32 + State.reset.mem.size ∧ 47 < 32 + State.reset.mem.size := by decide

theorem witness_HaltedIsTerminal : ({ State.reset with fsm := .halted } : State).fsm = .halted := rfl

/-- Seven edges, and five for a zero divisor. -/
theorem witness_InstructionOccupiesItsEdges :
    ((heads [0x4110C000#32]).Inv ∧ verdict 16 0x4110C000#32 = .ok (.add 1 2 3) ∧
      wordEdges 0x4110C000#32 (heads [0x4110C000#32]) = 7) ∧
    ((heads [0x4110CC00#32]).Inv ∧ verdict 16 0x4110CC00#32 = .ok (.div 1 2 3) ∧
      wordEdges 0x4110CC00#32 (heads [0x4110CC00#32]) = 5) :=
  ⟨⟨inv_heads _ _, by decide, by decide⟩, inv_heads _ _, by decide, by decide⟩

theorem witness_ResetMeetsInvariant : (1 ≤ 1 ∧ 1 ≤ 256) ∧ (1 ≤ 256 ∧ 256 ≤ 256) := by decide

theorem witness_EdgeKeepsInvariant :
    (mid (.wmem 15 7) 1).Inv ∧ (after (edge (mid (.wmem 15 7) 1))).isSome = true ∧ (mid (.wmem 15 7) 1).mwl = some 15 :=
  ⟨inv_mid (by decide) (by decide), by decide, by decide⟩

theorem witness_InvariantNeverStops : State.reset.Inv ∧ (mid (.div 1 2 3) 3).Inv :=
  ⟨⟨rfl, rfl, rfl⟩, inv_mid (by decide) (by decide)⟩

/-- A drain at the largest memory, N = 256. -/
def draining256 (i : Nat) : State :=
  { State.reset with fsm := .draining i, mem := { size := 256, cells := [] } }

/-- An edge that reports, one that does not, and the drain's register and memory records at the ends of their ranges. -/
theorem witness_ExternalPortsShowTheEdge :
    ((heads [0x40003C00#32]).Inv ∧ (after (edge (heads [0x40003C00#32]))).map (fun t => t.reports) =
      some ((heads [0x40003C00#32]).reports ++ [⟨.unrecognizedOpcode, 0, 0x40003C00#32, .field .aluop 15⟩])) ∧
    ((mid (.clr 0) 0).Inv ∧ (after (edge (mid (.clr 0) 0))).isSome = true) ∧
    ((draining256 31).Inv ∧ (draining256 287).Inv ∧
      (after (edge (draining256 31))).map (fun t => t.dump) = some ((draining256 31).dump ++ [⟨.reg, 31, 0⟩]) ∧
      (after (edge (draining256 287))).map (fun t => t.dump) = some ((draining256 287).dump ++ [⟨.mem, 255, 0⟩])) :=
  ⟨⟨inv_heads _ _, by decide⟩, ⟨inv_mid (by decide) (by decide), by decide⟩,
    ⟨rfl, rfl, by decide, rfl, rfl⟩, ⟨rfl, rfl, by decide, rfl, rfl⟩, by decide, by decide⟩

/-- Both latches, and the largest memory address. -/
theorem witness_LatchHoldsExactlyInDataPhase :
    ((mid (.clr 31) 1).Inv ∧ (mid (.clr 31) 1).rwl = some 31) ∧
    ((mid (.wmem 15 7) 1).Inv ∧ (mid (.wmem 15 7) 1).mwl = some 15) :=
  ⟨⟨inv_mid (by decide) (by decide), by decide⟩, inv_mid (by decide) (by decide), by decide⟩

theorem witness_StepKeepsInvariant :
    (heads [0x01E0FFFF#32]).Inv ∧ (after (step (heads [0x01E0FFFF#32]))).isSome = true :=
  ⟨inv_heads _ _, by decide⟩

theorem witness_DumpFollowsDrain : State.reset.DumpOk ∧ (after (edge State.reset)).isSome = true := ⟨rfl, by decide⟩

theorem witness_EveryProgramHalts :
    ({ State.reset with queue := [0x4110CC00#32, 0x40003C00#32] } : State).Inv ∧
      ({ State.reset with queue := [0x4110CC00#32, 0x40003C00#32] } : State).fsm = .idle :=
  ⟨⟨by decide, rfl, rfl⟩, rfl⟩

theorem witness_RunLengthInEdges :
    (State.resetWith 1 (fun _ => 7) []).Inv ∧ (State.resetWith 1 (fun _ => 7) []).fsm = .idle :=
  ⟨⟨by decide, rfl, rfl⟩, rfl⟩

/-- Both sides of N = 16, and the decode clause at the largest address. -/
theorem witness_WriteMemoryResult :
    ((0x01E0FFFF#32).extractLsb' 29 3 = 0#3 ∧ ((0x01E0FFFF#32).extractLsb' 21 8).toNat < 16) ∧
    (heads [0]).queue = 0 :: [] ∧ (15 : MemAddr).toNat < (heads [0]).mem.size ∧
      (heads [0]).mem.size ≤ (16 : MemAddr).toNat ∧ (heads [0]).mem.wf = true := by decide

theorem witness_WriteRegisterResult :
    (0x3F00FFFF#32).extractLsb' 29 3 = 1#3 ∧ (heads [0x3F00FFFF#32, 0]).queue = 0x3F00FFFF#32 :: [0] := by decide

theorem witness_ClearRegisterResult :
    (0xFFFFFFFF#32).extractLsb' 29 3 = 7#3 ∧ (heads [0xFFFFFFFF#32]).queue = 0xFFFFFFFF#32 :: [] := by decide

theorem witness_ArithmeticResults :
    ((0x5FFFF3FF#32).extractLsb' 29 3 = 2#3 ∧ (0x5FFFF3FF#32).extractLsb' 10 4 = AluOp.not.code) ∧
    (regs3 (heads [0]) 0 0xFFFF 0).queue = 0 :: [] ∧
    ((regs3 (heads [0]) 0 0xFFFF 0).regs[(1 : RegAddr).toNat]).toNat = 0 ∧
      ((regs3 (heads [0]) 0 0xFFFF 0).regs[(2 : RegAddr).toNat]).toNat = 0xFFFF := by decide

theorem witness_LogicResults :
    (regs3 (heads [0]) 0 0xFFFF 0).queue = 0 :: [] ∧
      ((regs3 (heads [0]) 0 0xFFFF 0).regs[(1 : RegAddr).toNat]).toNat = 0 ∧
      ((regs3 (heads [0]) 0 0xFFFF 0).regs[(2 : RegAddr).toNat]).toNat = 0xFFFF := by decide

/-- A zero divisor and one that is not. -/
theorem witness_DivisionResults :
    (regs3 (heads [0]) 5 0 0).queue = 0 :: [] ∧ (regs3 (heads [0]) 5 1 0).queue = 0 :: [] ∧
    ((regs3 (heads [0]) 5 0 0).regs[(2 : RegAddr).toNat] = 0 ∧
      ((regs3 (heads [0]) 5 0 0).regs[(2 : RegAddr).toNat]).toNat = 0) ∧
    ((regs3 (heads [0]) 5 1 0).regs[(2 : RegAddr).toNat]).toNat ≠ 0 := by decide

theorem witness_ZeroDivisorFaults :
    ((regs3 (heads [0x4110CC00#32]) 5 0 0).fsm = .decoding ∧
      (regs3 (heads [0x4110CC00#32]) 5 0 0).queue = 0x4110CC00#32 :: [] ∧
      verdict (regs3 (heads [0x4110CC00#32]) 5 0 0).memWords 0x4110CC00#32 = .ok (.div 1 2 3) ∧
      verdict (regs3 (heads [0x4110D000#32]) 5 0 0).memWords 0x4110D000#32 = .ok (.mod 1 2 3)) ∧
    (regs3 (heads [0]) 5 0 0).queue = 0 :: [] ∧
    (regs3 (heads [0]) 5 0 0).regs[(2 : RegAddr).toNat] = 0 ∧
    (mid (.div 1 2 3) 3).fsm = .executing .aluOperation 3 ∧
      (mid (.div 1 2 3) 3).currentMicro .aluOperation 3 = some .aluEv ∧ (mid (.div 1 2 3) 3).aop = 3 ∧
      (mid (.mod 1 2 3) 3).aop = 4 ∧ (mid (.div 1 2 3) 3).ab = 0 := by decide

theorem witness_RotateMemoryResult :
    (heads [0]).queue = 0 :: [] ∧
    ((0x61E1E1E0#32).extractLsb' 29 3 = 3#3 ∧ ((0x61E1E1E0#32).extractLsb' 21 8).toNat < 16 ∧
      ((0x61E1E1E0#32).extractLsb' 13 8).toNat < 16 ∧ ((0x61E1E1E0#32).extractLsb' 5 8).toNat < 16) ∧
    (heads [0]).mwl = none ∧ (15 : MemAddr).toNat < (heads [0]).mem.size ∧
    (heads [0]).mem.size ≤ (16 : MemAddr).toNat ∧ (heads [0]).mem.wf = true := by decide

theorem witness_RotateRegistersResult :
    (0x9FFFFFFF#32).extractLsb' 29 3 = 4#3 ∧ (heads [0x9FFFFFFF#32]).queue = 0x9FFFFFFF#32 :: [] := by decide

theorem witness_DistinctRotationPermutes :
    ((heads [0]).mem.wf = true ∧ (0 : MemAddr) ≠ 1 ∧ (0 : MemAddr) ≠ 15 ∧ (1 : MemAddr) ≠ 15 ∧
      (15 : MemAddr).toNat < (heads [0]).mem.size ∧ (after (exec (.rotm 0 1 15) (heads [0]))).isSome = true) ∧
    ((0 : RegAddr) ≠ 1 ∧ (0 : RegAddr) ≠ 31 ∧ (1 : RegAddr) ≠ 31 ∧
      (after (exec (.rotr 0 1 31) (heads [0]))).isSome = true) := by decide

theorem witness_AliasedRotationTable :
    (after (exec (.rotr 0 0 31) (heads [0]))).isSome = true ∧ (after (exec (.rotr 0 31 0) (heads [0]))).isSome = true ∧
    (after (exec (.rotr 31 0 0) (heads [0]))).isSome = true ∧ (after (exec (.rotm 0 0 15) (heads [0]))).isSome = true ∧
    (after (exec (.rotm 0 15 0) (heads [0]))).isSome = true ∧
    (after (exec (.rotm 15 0 0) (heads [0]))).isSome = true ∧ (heads [0]).mem.wf = true := by decide

theorem witness_RegisterToMemoryResult :
    (heads [0]).queue = 0 :: [] ∧
    ((0xA30F0000#32).extractLsb' 29 3 = 5#3 ∧ ((0xA30F0000#32).extractLsb' 16 8).toNat < 16) ∧
    (15 : MemAddr).toNat < (heads [0]).mem.size ∧ (heads [0]).mem.size ≤ (16 : MemAddr).toNat ∧
    (heads [0]).mem.wf = true := by decide

theorem witness_MemoryToRegisterResult :
    (heads [0]).queue = 0 :: [] ∧
    ((0xC1FF0000#32).extractLsb' 29 3 = 6#3 ∧ ((0xC1FF0000#32).extractLsb' 21 8).toNat < 16) ∧
    (heads [0]).mwl = none ∧ (15 : MemAddr).toNat < (heads [0]).mem.size ∧
    (heads [0]).mem.size ≤ (16 : MemAddr).toNat := by decide

theorem witness_OutOfRangeAddressReported :
    (heads [0]).queue = 0 :: [] ∧ (heads [0]).mem.size ≤ (16 : MemAddr).toNat ∧
      (15 : MemAddr).toNat < (heads [0]).mem.size := by decide

theorem witness_UnrecognizedOpcodeReported :
    ((heads [0x40003400#32]).fsm = .decoding ∧ (0x40003400#32).extractLsb' 29 3 = 2#3 ∧
      13 ≤ ((0x40003400#32).extractLsb' 10 4).toNat) ∧
    (after (edge (heads [0x40003400#32]))).map (fun t => t.reports) =
      some ((heads [0x40003400#32]).reports ++ [⟨.unrecognizedOpcode, 0, 0x40003400#32, .field .aluop 13⟩]) := by
  decide

/-- A raised fault, and an invariant state at the step that raises it. -/
theorem witness_ArithmeticFaultExactly :
    (after (edge (mid (.div 1 2 3) 3))).map (fun t => t.reports) =
      some ((mid (.div 1 2 3) 3).reports ++ [⟨.arithmeticFault, 0, encode (.div 1 2 3), .division 3 0⟩]) ∧
    ((mid (.div 1 2 3) 3).Inv ∧ (mid (.div 1 2 3) 3).aop = 3 ∧ (mid (.div 1 2 3) 3).ab = 0) :=
  ⟨by decide, inv_mid (by decide) (by decide), by decide, by decide⟩

theorem witness_ErrorsArePrecise :
    (after (edge (mid (.div 1 2 3) 3))).map (fun t => decide (t.reports ≠ [])) = some true ∧
    (heads [0x4110CC00#32]).fsm = .decoding ∧
      (after (step (heads [0x4110CC00#32]))).map (fun t => decide (t.reports ≠ [])) = some true := by decide

theorem witness_EarlierErrorsDoNotMatter : (after (step (heads [0x4110CC00#32]))).isSome = true := by decide

theorem witness_HiddenStateUnobservable :
    (heads [0x4110C000#32]).SameArchitectural { heads [0x4110C000#32] with ir := 1, t0 := 2, aluQ := 3 } ∧
      (heads [0x4110C000#32]).atBoundary ∧ (after (step (heads [0x4110C000#32]))).isSome = true :=
  ⟨⟨rfl, rfl, rfl, rfl, rfl, rfl, rfl, rfl, rfl⟩, trivial, by decide⟩

theorem witness_ReadDuringWriteGivesOldValue :
    (∃ p : RegFilePorts, p = { raddr := some 5, we := true, waddr := some 5, wdata := some 9 }) ∧
      (mid (.wmem 15 7) 1).mwl.isSome = true := ⟨⟨_, rfl⟩, by decide⟩

theorem witness_MalformedTextRefused :
    (∀ line ∈ ["01".toList, []], '\n' ∉ line) ∧ '\n' ∉ "0".toList ∧ "0".toList ≠ [] ∧
      boot 16 (fun _ => 0) "".toList = .ready State.reset ∧
      boot 16 (fun _ => 0) "0".toList = .malformed .malformedInstruction 0 := by decide

theorem witness_FirstFailingLineNamed :
    loadStream "00100011000000000000000000000101\n1".toList = .malformed 1 ∧ 0 < 1 ∧
      (splitLines "00100011000000000000000000000101\n1".toList)[0]?.isSome = true := by decide

end Sys2Proof.Tests
end

section
/-! SUPPORT. Facts that the statements about the state share: the two-phase writes of the tables, what a head does in one
step, and what an edge reports, dumps and retires. -/

namespace Sys2Proof.Machine

open Sys2Proof.Claims

/-! ### Two-phase writes (R112)

The tables are checked once: from any step on, a data phase stands exactly where its store's latch is set. -/

/-- The register latch that `u` leaves. -/
def MicroOp.setsRwl : MicroOp → Option RegAddr
  | .waR a => some a
  | _ => none

/-- The memory latch that `u` leaves. -/
def MicroOp.setsMwl : MicroOp → Option MemAddr
  | .waM a => some a
  | _ => none

/-- `u` is the data phase of a register write. -/
def MicroOp.isWdR : MicroOp → Bool
  | .wdR _ => true
  | _ => false

/-- `u` is the data phase of a memory write. -/
def MicroOp.isWdM : MicroOp → Bool
  | .wdM _ => true
  | _ => false

theorem isWdR_iff (u : MicroOp) : u.isWdR = true ↔ ∃ v, u = .wdR v := by
  cases u <;> simp [MicroOp.isWdR]

theorem isWdM_iff (u : MicroOp) : u.isWdM = true ↔ ∃ v, u = .wdM v := by
  cases u <;> simp [MicroOp.isWdM]

/-- The table meets data phases exactly where the latches are set, `r` and `m` saying whether they are at its start, and
leaves both latches empty. -/
def phasesOk (r m : Bool) : List MicroOp → Bool
  | [] => !r && !m
  | u :: rest => u.isWdR == r && u.isWdM == m && phasesOk u.setsRwl.isSome u.setsMwl.isSome rest

theorem phasesOk_nil {r m : Bool} : phasesOk r m [] = true ↔ r = false ∧ m = false := by
  simp [phasesOk]

theorem phasesOk_cons {r m : Bool} {u : MicroOp} {rest : List MicroOp} :
    phasesOk r m (u :: rest) = true ↔
      (u.isWdR = r ∧ u.isWdM = m) ∧ phasesOk u.setsRwl.isSome u.setsMwl.isSome rest = true := by
  simp [phasesOk]

theorem phasesOk_microOps (i : Instr) : phasesOk false false (microOps i) = true := by
  cases i <;> rfl

@[simp] theorem length_microOps (i : Instr) : (microOps i).length = classSteps i.cls := by
  cases i <;> rfl

theorem classSteps_pos (c : InstrClass) : 0 < classSteps c := by
  cases c <;> decide

/-- The latches a step finds are those its predecessor leaves. -/
theorem latchesBefore_of_prev {i : Instr} {k : Nat} {u : MicroOp} (h : (microOps i)[k]? = some u) :
    rwlBefore i (k + 1) = u.setsRwl ∧ mwlBefore i (k + 1) = u.setsMwl := by
  obtain ⟨hr, hm⟩ := latchesBefore_succ h
  rw [hr, hm]
  cases u <;> exact ⟨rfl, rfl⟩

/-- The rest of a table from step `k` on is in phase with the latches of that step. -/
theorem phasesOk_drop (i : Instr) {k : Nat} (hk : k ≤ classSteps i.cls) :
    phasesOk (rwlBefore i k).isSome (mwlBefore i k).isSome ((microOps i).drop k) = true := by
  induction k with
  | zero => exact phasesOk_microOps i
  | succ k ih =>
    have hlt : k < (microOps i).length := by rw [length_microOps]; omega
    have hrest := ih (by omega)
    rw [List.drop_eq_getElem_cons hlt, phasesOk_cons] at hrest
    obtain ⟨hr, hm⟩ := latchesBefore_of_prev (List.getElem?_eq_getElem hlt)
    rw [hr, hm]
    exact hrest.2

/-- A step is the data phase of a store exactly when it finds that store's latch set. -/
theorem isWd_eq_latchBefore {i : Instr} {k : Nat} {u : MicroOp} (h : (microOps i)[k]? = some u) :
    u.isWdR = (rwlBefore i k).isSome ∧ u.isWdM = (mwlBefore i k).isSome := by
  obtain ⟨hlt, rfl⟩ := List.getElem?_eq_some_iff.1 h
  have hrest := phasesOk_drop i (k := k) (by rw [← length_microOps]; omega)
  rw [List.drop_eq_getElem_cons hlt, phasesOk_cons] at hrest
  exact hrest.1

/-- After its last step an instruction has both latches empty. -/
theorem latchesBefore_end (i : Instr) :
    rwlBefore i (classSteps i.cls) = none ∧ mwlBefore i (classSteps i.cls) = none := by
  have hend := phasesOk_drop i (Nat.le_refl _)
  rw [← length_microOps, List.drop_length, phasesOk_nil] at hend
  simpa using hend

/-- A latched memory address is one of the instruction's own, so below N (R32, R58). -/
theorem mwlBefore_lt {n : Nat} {i : Instr} (h : i.wellFormed n = true) {k : Nat} {a : MemAddr}
    (ha : mwlBefore i k = some a) : a.toNat < n := by
  cases k with
  | zero => cases ha
  | succ k =>
    cases hu : (microOps i)[k]? with
    | none => simp [mwlBefore, hu] at ha
    | some u =>
      rw [(latchesBefore_of_prev hu).2] at ha
      have hwa : u = .waM a := by cases u <;> simp_all [MicroOp.setsMwl]
      exact (microOps_inRange h hu).2 a hwa

/-- A micro-operation in phase with the latches leaves its own: an address phase its address, every other step none. -/
theorem perform_commit_latches {u : MicroOp} {s s' : State} (h : perform u s = .commit s')
    (hr : u.isWdR = s.rwl.isSome) (hm : u.isWdM = s.mwl.isSome) : s'.rwl = u.setsRwl ∧ s'.mwl = u.setsMwl := by
  rcases perform_commit_cases h with ⟨t, a, rfl, rfl⟩ | ⟨t, a, rfl, -, -, rfl⟩ | ⟨a, rfl, rfl⟩ |
    ⟨v, a, rfl, -, rfl⟩ | ⟨a, rfl, -, rfl⟩ | ⟨v, a, rfl, -, -, rfl⟩ | ⟨op, rfl, rfl⟩ | ⟨op, q, rfl, -, -, rfl⟩
  case inl | inr.inl => cases t <;> simp_all [MicroOp.isWdR, MicroOp.isWdM, MicroOp.setsRwl, MicroOp.setsMwl]
  all_goals simp_all [MicroOp.isWdR, MicroOp.isWdM, MicroOp.setsRwl, MicroOp.setsMwl]

/-- The arithmetic fault finds both latches empty, since `ALU_EV` is no data phase (R180). -/
theorem latchesClear_of_fault {u : MicroOp} {s : State} {d : Detail} (h : perform u s = .arithmeticFault d)
    (hr : u.isWdR = s.rwl.isSome) (hm : u.isWdM = s.mwl.isSome) : s.latchesClear := by
  obtain ⟨rfl, -⟩ := perform_fault_cases h
  exact ⟨by simpa [MicroOp.isWdR] using hr.symm, by simpa [MicroOp.isWdM] using hm.symm⟩

/-- A table in phase with the latches leaves both empty, whether it ends by retirement or by the arithmetic fault. -/
theorem runSteps_latchesClear {table : List MicroOp} {s t : State}
    (hp : phasesOk s.rwl.isSome s.mwl.isSome table = true) (h : runSteps table s = .next t) : t.latchesClear := by
  induction table generalizing s with
  | nil =>
    cases h
    simpa [State.latchesClear] using phasesOk_nil.1 hp
  | cons u rest ih =>
    obtain ⟨⟨hr, hm⟩, hrest⟩ := phasesOk_cons.1 hp
    simp only [runSteps] at h
    split at h
    next s' hc =>
      obtain ⟨hr', hm'⟩ := perform_commit_latches hc hr hm
      exact ih (by rwa [hr', hm']) h
    next d hf =>
      cases h
      have hclear := latchesClear_of_fault hf hr hm
      exact hclear
    · cases h

/-! ### What the head does in one step -/

/-- A head that decodes `Ok` runs its instruction's table, IR loaded (R106, R107). -/
theorem runHead_of_ok {s : State} {w : IWord} {rest : List IWord} {i : Instr} (hq : s.queue = w :: rest)
    (hv : verdict s.mem.size w = .ok i) : runHead s = runSteps (microOps i) (s.loadIr w i.cls) := by
  obtain ⟨hd, hwf⟩ := (verdict_eq_ok _ _ _).1 hv
  simp only [runHead, State.fetchHead, hq, hd, exec_eq_runInstr, runInstr_inRange hq hwf]

/-- A head that is no instruction is reported and retired (R106, R231). -/
theorem runHead_of_unrecognized {s : State} {w : IWord} {rest : List IWord} {p : AluCode} (hq : s.queue = w :: rest)
    (hv : verdict s.mem.size w = .unrecognizedOpcode p) : runHead s = .next (s.takeUnrecognizedOpcode w p) := by
  obtain ⟨hd, rfl⟩ := (verdict_eq_unrecognized _ _ _).1 hv
  simp only [runHead, State.fetchHead, hq, hd]

/-- A head with an address out of range is reported and retired (R106, R232). -/
theorem runHead_of_outOfRange {s : State} {w : IWord} {rest : List IWord} {f : Field} {a : MemAddr}
    (hq : s.queue = w :: rest) (hv : verdict s.mem.size w = .addressOutOfRange f a) :
    runHead s = .next (s.takeAddressOutOfRange w f a) := by
  obtain ⟨i, hd, hr⟩ := (verdict_eq_outOfRange _ _ _ _).1 hv
  simp only [runHead, State.fetchHead, hq, hd, exec_eq_runInstr, runInstr_outOfRange hq hr]

/-- All the head can do in one step: raise a decode error, or run its instruction's table. -/
theorem runHead_next_cases {s t : State} (h : runHead s = .next t) :
    ∃ w rest, s.queue = w :: rest ∧
      ((∃ kind d, t = s.takeError kind w d) ∨
        ∃ i, verdict s.mem.size w = .ok i ∧ runSteps (microOps i) (s.loadIr w i.cls) = .next t) := by
  cases hq : s.queue with
  | nil => simp [runHead, State.fetchHead, hq] at h
  | cons w rest =>
    refine ⟨w, rest, rfl, ?_⟩
    cases hv : verdict s.mem.size w with
    | ok i =>
      rw [runHead_of_ok hq hv] at h
      exact .inr ⟨i, rfl, h⟩
    | unrecognizedOpcode p =>
      rw [runHead_of_unrecognized hq hv] at h
      exact .inl ⟨_, _, (Host.Outcome.next.inj h).symm⟩
    | addressOutOfRange f a =>
      rw [runHead_of_outOfRange hq hv] at h
      exact .inl ⟨_, _, (Host.Outcome.next.inj h).symm⟩

/-- A table that answers retires the head, and appends nothing to the dump. -/
theorem runSteps_next_retires {table : List MicroOp} {s t : State} (h : runSteps table s = .next t) :
    t.fsm = fsmAfterRetire t.queue ∧ t.dump = s.dump ∧ (s.mem.wf = true → t.mem.wf = true) := by
  obtain ⟨x, -, -, -, -, hd, -, hw, rfl | ⟨d, rfl⟩⟩ := runSteps_next_cases h
  · exact ⟨rfl, hd, hw⟩
  · exact ⟨rfl, hd, hw⟩

/-- Whatever the head does in one step retires it, and appends nothing to the dump (R107, R236). -/
theorem runHead_next_retires {s t : State} (h : runHead s = .next t) :
    t.fsm = fsmAfterRetire t.queue ∧ t.dump = s.dump ∧ (s.mem.wf = true → t.mem.wf = true) := by
  obtain ⟨w, rest, -, ⟨kind, d, rfl⟩ | ⟨i, -, hrun⟩⟩ := runHead_next_cases h
  · exact ⟨rfl, rfl, id⟩
  · have hret := runSteps_next_retires hrun
    exact hret

/-! ### What an edge reports, dumps and retires -/

/-- The `Idle` edge sends the FSM where a retirement would (R105, R108, R120). -/
theorem stepIdle_eq (s : State) : stepIdle s = { s with fsm := fsmAfterRetire s.queue } := by
  unfold stepIdle
  cases s.queue <;> rfl

theorem edge_idle {s : State} (hf : s.fsm = .idle) : edge s = .next { s with fsm := fsmAfterRetire s.queue } := by
  simp only [edge, hf, stepIdle_eq]

/-- A drain edge (R121). -/
theorem edge_draining {s : State} {i : Nat} (hf : s.fsm = .draining i) (hi : i < s.drainLength) :
    edge s = .next { s with
      dump := s.dump ++ [s.dumpRecord i]
      fsm := if i + 1 = s.drainLength then .halted else .draining (i + 1) } := by
  simp only [edge, hf, stepDrain, if_neg (Nat.not_le.2 hi)]

theorem edge_halted {s : State} (hf : s.fsm = .halted) : edge s = .next s := by
  simp only [edge, hf]

/-- A dump record is read from the registers and the memory alone (R122). -/
theorem dumpRecord_congr {s t : State} (hregs : s.regs = t.regs) (hmem : s.mem = t.mem) (i : Nat) :
    s.dumpRecord i = t.dumpRecord i := by
  simp only [State.dumpRecord, State.regAt, hregs, hmem]

/-- The FSM state after a retirement, as R108 says it. -/
theorem fsmAfterRetire_eq_nextFsm (rest : List IWord) : fsmAfterRetire rest = nextFsm rest := by
  cases rest <;> rfl

/-- A dump record, as R122 says it. -/
theorem dumpRecord_eq_recordR122 (s : State) (i : Nat) : s.dumpRecord i = recordR122 s i := by
  by_cases hi : i < 32 <;> simp [State.dumpRecord, recordR122, State.regAt, hi]

/-- The arithmetic fault is raised by `ALU_EV` alone, when divide or modulo finds operand 2 equal to 0 (R180, R233). -/
theorem perform_eq_fault_iff {u : MicroOp} {s : State} {d : Detail} :
    perform u s = .arithmeticFault d ↔ u = .aluEv ∧ d = .division s.aop 0 ∧ (s.aop = 3 ∨ s.aop = 4) ∧ s.ab = 0 := by
  refine ⟨perform_fault_cases, ?_⟩
  rintro ⟨rfl, rfl, hdiv | hmod, hb⟩
  · exact perform_aluEv_none (op := .div) hdiv ((aluF_eq_none _ _ _).2 ⟨.inl rfl, hb⟩)
  · exact perform_aluEv_none (op := .mod) hmod ((aluF_eq_none _ _ _).2 ⟨.inr rfl, hb⟩)

/-- `alu_fault` shows exactly the micro-operation that raises the arithmetic fault (R101, R180). -/
theorem aluFault_iff {s : State} {c : InstrClass} {k : Nat} {u : MicroOp} (hf : s.fsm = .executing c k)
    (hu : s.currentMicro c k = some u) :
    s.aluFault = true ↔ perform u s = .arithmeticFault (.division s.aop 0) := by
  have hact : s.activeMicro = some u := (activeMicro_executing hf).trans hu
  simp [State.aluFault, hact, perform_eq_fault_iff, and_assoc]

/-- A step whose micro-operation commits shows no `alu_fault`. -/
theorem aluFault_of_commit {s s' : State} {c : InstrClass} {k : Nat} {u : MicroOp} (hf : s.fsm = .executing c k)
    (hu : s.currentMicro c k = some u) (hp : perform u s = .commit s') : s.aluFault = false := by
  rw [Bool.eq_false_iff, ne_eq, aluFault_iff hf hu, hp]
  exact Performed.noConfusion

/-- A step whose micro-operation faults shows it, and the detail is R233's. -/
theorem aluFault_of_fault {s : State} {c : InstrClass} {k : Nat} {u : MicroOp} {d : Detail}
    (hf : s.fsm = .executing c k) (hu : s.currentMicro c k = some u) (hp : perform u s = .arithmeticFault d) :
    s.aluFault = true ∧ d = .division s.aop 0 := by
  obtain ⟨-, rfl, -⟩ := perform_fault_cases hp
  exact ⟨(aluFault_iff hf hu).2 hp, rfl⟩

/-- What an edge appends to the two output streams is what its step announces (R100, R109, R122). -/
theorem edge_output {s t : State} (h : edge s = .next t) :
    t.reports = s.reports ++ s.raisedReport.toList ∧ t.dump = s.dump ++ s.dumpedRecord.toList := by
  rcases edge_next_cases h with ⟨hf, rfl⟩ | ⟨w, rest, i, hf, hq, hv, rfl⟩ | ⟨w, rest, p, hf, hq, hv, rfl⟩ |
    ⟨w, rest, f, a, hf, hq, hv, rfl⟩ | ⟨c, k, u, s', hf, hu, hp, rfl⟩ | ⟨c, k, u, d, hf, hu, hp, rfl⟩ |
    ⟨i, hf, -, rfl⟩ | ⟨hf, rfl⟩
  · simp [stepIdle_eq, State.raisedReport, State.dumpedRecord, hf]
  · simp [State.raisedReport, State.dumpedRecord, hf, hq, hv]
  · simp [State.raisedReport, State.dumpedRecord, State.takeUnrecognizedOpcode, hf, hq, hv]
  · simp [State.raisedReport, State.dumpedRecord, State.takeAddressOutOfRange, hf, hq, hv]
  · obtain ⟨-, -, -, -, hr, hd, -⟩ := perform_commit_frame hp
    have hfault := aluFault_of_commit hf hu hp
    split <;> simp [State.raisedReport, State.dumpedRecord, hf, hfault, hr, hd]
  · obtain ⟨hfault, rfl⟩ := aluFault_of_fault hf hu hp
    simp [State.raisedReport, State.dumpedRecord, State.takeArithmeticFault, hf, hfault]
  · simp [State.raisedReport, State.dumpedRecord, hf]
  · simp [State.raisedReport, State.dumpedRecord, hf]

/-- What an edge does to the queue: it retires the head exactly when its step announces a retirement (R108). -/
theorem edge_retirement {s t : State} (h : edge s = .next t) :
    (s.retiresHead = true ∧ t.queue = s.queue.tail ∧ t.qidx = s.qidx + 1 ∧ t.fsm = fsmAfterRetire s.queue.tail) ∨
      (s.retiresHead = false ∧ t.queue = s.queue ∧ t.qidx = s.qidx) := by
  rcases edge_next_cases h with ⟨hf, rfl⟩ | ⟨w, rest, i, hf, hq, hv, rfl⟩ | ⟨w, rest, p, hf, hq, hv, rfl⟩ |
    ⟨w, rest, f, a, hf, hq, hv, rfl⟩ | ⟨c, k, u, s', hf, hu, hp, rfl⟩ | ⟨c, k, u, d, hf, hu, hp, rfl⟩ |
    ⟨i, hf, -, rfl⟩ | ⟨hf, rfl⟩
  · exact .inr ⟨by simp [State.retiresHead, hf], by simp [stepIdle_eq], by simp [stepIdle_eq]⟩
  · exact .inr ⟨by simp [State.retiresHead, State.raisedReport, hf, hq, hv], rfl, rfl⟩
  · exact .inl ⟨by simp [State.retiresHead, State.raisedReport, hf, hq, hv], rfl, rfl, rfl⟩
  · exact .inl ⟨by simp [State.retiresHead, State.raisedReport, hf, hq, hv], rfl, rfl, rfl⟩
  · obtain ⟨hqueue, hqidx, -⟩ := perform_commit_frame hp
    have hfault := aluFault_of_commit hf hu hp
    by_cases hlast : k + 1 = classSteps c
    · left
      simp [State.retiresHead, hf, hlast, hqueue, hqidx]
    · right
      simp [State.retiresHead, hf, hlast, hfault, hqueue, hqidx]
  · obtain ⟨hfault, -⟩ := aluFault_of_fault hf hu hp
    exact .inl ⟨by simp [State.retiresHead, hf, hfault], rfl, rfl, rfl⟩
  · exact .inr ⟨by simp [State.retiresHead, hf], rfl, rfl⟩
  · exact .inr ⟨by simp [State.retiresHead, hf], rfl, rfl⟩

end Sys2Proof.Machine
end

section
/-! The invariant of the control state and of the memory: every edge and every step keeps it. -/

namespace Sys2Proof.Machine

/-! ### The invariant after a retirement -/

/-- Right after a retirement nothing is asked of the control state but empty latches: the FSM follows the queue (R108). -/
theorem inv_of_fsmAfterRetire {t : State} (hm : t.mem.wf = true) (hl : t.latchesClear)
    (hf : t.fsm = fsmAfterRetire t.queue) : t.Inv := by
  refine ⟨hm, ?_⟩
  cases hq : t.queue with
  | nil => simp [State.ControlOk, hf, hq, hl]
  | cons w rest => simp [State.ControlOk, hf, hq, hl]

/-- Taking an error outside the phases of a write keeps the invariant (R236). -/
theorem inv_takeError {s : State} (hm : s.mem.wf = true) (hl : s.latchesClear) (kind : ErrorKind) (w : IWord)
    (d : Detail) : (s.takeError kind w d).Inv :=
  inv_of_fsmAfterRetire hm hl rfl

/-! ### The edges of each FSM state -/

theorem controlOk_idle {s : State} (hf : s.fsm = .idle) : s.ControlOk ↔ s.latchesClear := by
  simp [State.ControlOk, hf]

theorem controlOk_decoding {s : State} (hf : s.fsm = .decoding) : s.ControlOk ↔ s.queue ≠ [] ∧ s.latchesClear := by
  simp [State.ControlOk, hf]

theorem controlOk_draining {s : State} {i : Nat} (hf : s.fsm = .draining i) :
    s.ControlOk ↔ s.queue = [] ∧ i < s.drainLength ∧ s.latchesClear := by
  simp [State.ControlOk, hf]

theorem controlOk_halted {s : State} (hf : s.fsm = .halted) : s.ControlOk ↔ s.queue = [] ∧ s.latchesClear := by
  simp [State.ControlOk, hf]

theorem controlOk_executing {s : State} {c : InstrClass} {k : Nat} (hf : s.fsm = .executing c k) :
    s.ControlOk ↔ s.queue.head? = some s.ir ∧
      ∃ i, verdict s.mem.size s.ir = .ok i ∧ i.cls = c ∧ k < classSteps c ∧
        s.rwl = rwlBefore i k ∧ s.mwl = mwlBefore i k ∧
        ((microOps i)[k]? = some .aluEv → s.aop = aluopField s.ir) := by
  simp [State.ControlOk, hf]

/-- No table starts with `ALU_EV`, which finds its operation latched by an earlier step. -/
theorem microOps_zero_ne_aluEv (i : Instr) : (microOps i)[0]? ≠ some .aluEv := by
  cases i <;> simp [microOps, stepsWmem, stepsWreg, stepsAlu, stepsRotm, stepsRotr, stepsR2m, stepsM2r, stepsClr]

/-- A successful decode starts the instruction with no write under way (R106). -/
theorem inv_loadIr {s : State} {w : IWord} {rest : List IWord} {i : Instr} (hm : s.mem.wf = true) (hl : s.latchesClear)
    (hq : s.queue = w :: rest) (hv : verdict s.mem.size w = .ok i) : (s.loadIr w i.cls).Inv :=
  ⟨hm, (controlOk_executing rfl).2
    ⟨by simp [hq], i, hv, rfl, classSteps_pos _, hl.1, hl.2, fun h => absurd h (microOps_zero_ne_aluEv i)⟩⟩

/-- The step before `ALU_EV` is the `ALU_LD` of the sub-opcode in IR (R160). -/
theorem aluLd_before_aluEv {n : Nat} {w : IWord} {i : Instr} {k : Nat} (hv : verdict n w = .ok i)
    (h : (microOps i)[k + 1]? = some .aluEv) :
    ∃ op : AluOp, (microOps i)[k]? = some (.aluLd op) ∧ op.code = aluopField w := by
  obtain ⟨hd, -⟩ := (verdict_eq_ok _ _ _).1 hv
  rcases aluInstr_or_no_alu_step i with ⟨op, a, b, d, rfl⟩ | hno
  · refine ⟨op, ?_, (aluopField_of_decodeFields hd).symm⟩
    rw [microOps_aluInstr] at h ⊢
    match k, h with
    | 2, _ => rfl
    | 0, h | 1, h | 3, h | 4, h | _ + 5, h => simp [stepsAlu] at h
  · exact absurd rfl (hno _ (List.mem_of_getElem? h)).1

/-- In `Executing`, the step is a data phase exactly of the store whose latch is set (R32, R112). -/
theorem isWd_eq_latch {s : State} {c : InstrClass} {k : Nat} {u : MicroOp} (hs : s.Inv) (hf : s.fsm = .executing c k)
    (hu : s.currentMicro c k = some u) : u.isWdR = s.rwl.isSome ∧ u.isWdM = s.mwl.isSome := by
  obtain ⟨-, i, hv, rfl, -, hr, hm, -⟩ := (controlOk_executing hf).1 hs.2
  rw [currentMicro_of_verdict k hv] at hu
  rw [hr, hm]
  exact isWd_eq_latchBefore hu

/-- A step that commits leads to the next step of its instruction, or retires it after the last (R107, R112). -/
theorem inv_of_commit {s s' : State} {c : InstrClass} {k : Nat} {u : MicroOp} (hs : s.Inv)
    (hf : s.fsm = .executing c k) (hu : s.currentMicro c k = some u) (hp : perform u s = .commit s') :
    (if k + 1 = classSteps c then s'.retire else { s' with fsm := .executing c (k + 1) }).Inv := by
  obtain ⟨hwdR, hwdM⟩ := isWd_eq_latch hs hf hu
  obtain ⟨hm, hc⟩ := hs
  obtain ⟨hhead, i, hv, rfl, hk, -⟩ := (controlOk_executing hf).1 hc
  rw [currentMicro_of_verdict k hv] at hu
  obtain ⟨hr', hm'⟩ := perform_commit_latches hp hwdR hwdM
  obtain ⟨hnextR, hnextM⟩ := latchesBefore_of_prev hu
  rw [← hnextR] at hr'
  rw [← hnextM] at hm'
  obtain ⟨hqueue, -, -, hir, -, -, hsize⟩ := perform_commit_frame hp
  have hwf := perform_commit_wf hp hm
  by_cases hlast : k + 1 = classSteps i.cls
  · rw [if_pos hlast]
    obtain ⟨hendR, hendM⟩ := latchesBefore_end i
    rw [hlast] at hr' hm'
    exact inv_of_fsmAfterRetire hwf ⟨hr'.trans hendR, hm'.trans hendM⟩ rfl
  · rw [if_neg hlast]
    refine ⟨hwf, (controlOk_executing rfl).2 ⟨?_, i, ?_, rfl, by omega, hr', hm', fun hev => ?_⟩⟩
    · exact (congrArg List.head? hqueue).trans (hhead.trans (congrArg some hir.symm))
    · simpa only [hsize, hir] using hv
    · obtain ⟨op, hld, hop⟩ := aluLd_before_aluEv hv hev
      obtain rfl : u = .aluLd op := Option.some.inj (hu.symm.trans hld)
      cases hp
      exact hop

/-- A drain edge advances the index, up to `Halted` (R121). -/
theorem inv_drained {s : State} {i : Nat} (hs : s.Inv) (hf : s.fsm = .draining i) (d : List DumpRecord) :
    { s with dump := d, fsm := if i + 1 = s.drainLength then .halted else .draining (i + 1) : State }.Inv := by
  obtain ⟨hm, hc⟩ := hs
  obtain ⟨hq, hi, hl⟩ := (controlOk_draining hf).1 hc
  refine ⟨hm, ?_⟩
  by_cases hlast : i + 1 = s.drainLength
  · exact (controlOk_halted (if_pos hlast)).2 ⟨hq, hl⟩
  · exact (controlOk_draining (if_neg hlast)).2 ⟨hq, Nat.lt_of_le_of_ne hi hlast, hl⟩

/-- Settles O27: each case of the edge by its own lemma. -/
theorem edgeKeepsInvariant : Obligations.EdgeKeepsInvariant := by
  intro s t hs h
  rcases edge_next_cases h with ⟨hf, rfl⟩ | ⟨w, rest, i, hf, hq, hv, rfl⟩ | ⟨w, rest, p, hf, hq, hv, rfl⟩ |
    ⟨w, rest, f, a, hf, hq, hv, rfl⟩ | ⟨c, k, u, s', hf, hu, hp, rfl⟩ | ⟨c, k, u, d, hf, hu, hp, rfl⟩ |
    ⟨i, hf, -, rfl⟩ | ⟨hf, rfl⟩
  · rw [stepIdle_eq]
    exact inv_of_fsmAfterRetire hs.1 ((controlOk_idle hf).1 hs.2) rfl
  · exact inv_loadIr hs.1 ((controlOk_decoding hf).1 hs.2).2 hq hv
  · exact inv_takeError hs.1 ((controlOk_decoding hf).1 hs.2).2 _ _ _
  · exact inv_takeError hs.1 ((controlOk_decoding hf).1 hs.2).2 _ _ _
  · exact inv_of_commit hs hf hu hp
  · obtain ⟨hwdR, hwdM⟩ := isWd_eq_latch hs hf hu
    exact inv_takeError hs.1 (latchesClear_of_fault hp hwdR hwdM) _ _ _
  · exact inv_drained hs hf _
  · exact hs

/-- The head's step starts and ends with both latches empty: a decode error writes nothing, and a table runs in phase with
the latches (R112). -/
theorem runHead_latchesClear {s t : State} (hl : s.latchesClear) (h : runHead s = .next t) : t.latchesClear := by
  obtain ⟨w, rest, -, ⟨kind, d, rfl⟩ | ⟨i, -, hrun⟩⟩ := runHead_next_cases h
  · exact hl
  · have hphase := phasesOk_microOps i
    exact runSteps_latchesClear (by simpa [hl.1, hl.2] using hphase) hrun

/-- Settles O28: outside `Decoding` a step is an edge; in `Decoding` it ends right after a retirement, with both
latches empty. -/
theorem stepKeepsInvariant : Obligations.StepKeepsInvariant := by
  intro s t hs h
  by_cases hf : s.fsm = .decoding
  · obtain ⟨-, hl⟩ := (controlOk_decoding hf).1 hs.2
    rw [step_eq_runHead hf] at h
    obtain ⟨hfsm, -, hwf⟩ := runHead_next_retires h
    exact inv_of_fsmAfterRetire (hwf hs.1) (runHead_latchesClear hl h) hfsm
  · exact edgeKeepsInvariant s t hs (step_eq_edge hf ▸ h)

end Sys2Proof.Machine
end

section
/-! Noninterference of the hidden registers: no table reads a temporary, the ALU input latch or the ALU result before it has
written it, so what an earlier instruction left there is never observed. -/

namespace Sys2Proof.Machine

/-- The hidden registers a micro-operation can read or write (R31, R33). -/
inductive Hidden where
  | temp (t : Temp)
  | aluIn
  | aluOut

/-- Two states hold the same in a hidden register. -/
def Hidden.Same (x : Hidden) (s s' : State) : Prop :=
  match x with
  | .temp t => s.readTemp t = s'.readTemp t
  | .aluIn => s.aop = s'.aop ∧ s.aa = s'.aa ∧ s.ab = s'.ab
  | .aluOut => s.aluQ = s'.aluQ

/-- The hidden register a data phase takes its value from. -/
def Source.hiddenReads : Source → List Hidden
  | .literal _ => []
  | .temp t => [.temp t]
  | .aluLow => [.aluOut]

/-- The hidden registers a micro-operation reads. -/
def MicroOp.hiddenReads : MicroOp → List Hidden
  | .rdR _ _ => []
  | .rdM _ _ => []
  | .waR _ => []
  | .wdR v => v.hiddenReads
  | .waM _ => []
  | .wdM v => v.hiddenReads
  | .aluLd _ => [.temp .t0, .temp .t1]
  | .aluEv => [.aluIn]

/-- The hidden registers a micro-operation writes. -/
def MicroOp.hiddenWrites : MicroOp → List Hidden
  | .rdR t _ => [.temp t]
  | .rdM t _ => [.temp t]
  | .waR _ => []
  | .wdR _ => []
  | .waM _ => []
  | .wdM _ => []
  | .aluLd _ => [.aluIn]
  | .aluEv => [.aluOut]

/-- The table reads no hidden register but the `known` ones and those it has written itself. -/
def ReadsOnlyKnown (known : List Hidden) : List MicroOp → Prop
  | [] => True
  | u :: rest => u.hiddenReads ⊆ known ∧ ReadsOnlyKnown (u.hiddenWrites ++ known) rest

/-- Every table writes each hidden register before it reads it (R140 to R142, R160, R200 to R203). -/
theorem microOps_readsOnlyKnown (i : Instr) : ReadsOnlyKnown [] (microOps i) := by
  cases i <;>
    simp [ReadsOnlyKnown, microOps, stepsWmem, stepsWreg, stepsAlu, stepsRotm, stepsRotr, stepsR2m, stepsM2r, stepsClr,
      MicroOp.hiddenReads, MicroOp.hiddenWrites, Source.hiddenReads]

/-- Two states in the same instruction that agree in all but the hidden registers, and in the `known` ones of these. -/
structure SameKnowing (known : List Hidden) (s s' : State) : Prop where
  arch : s.SameArchitectural s'
  ir : s.ir = s'.ir
  hidden : ∀ x ∈ known, x.Same s s'

theorem SameKnowing.sourceValue {known : List Hidden} {s s' : State} (h : SameKnowing known s s') {v : Source}
    (hv : v.hiddenReads ⊆ known) : s.sourceValue v = s'.sourceValue v := by
  cases v with
  | literal d => rfl
  | temp t => exact h.hidden (.temp t) (hv (List.mem_singleton_self _))
  | aluLow => exact congrArg truncW (h.hidden .aluOut (hv (List.mem_singleton_self _)))

/-- A written temporary reads as written, and every other one as before (R111). -/
theorem readTemp_writeTemp (s : State) (t t' : Temp) (v : Word) :
    (s.writeTemp t v).readTemp t' = if t' = t then v else s.readTemp t' := by
  cases t <;> cases t' <;> rfl

theorem writeTemp_sameArchitectural {s s' : State} (h : s.SameArchitectural s') (t : Temp) (v : Word) :
    (s.writeTemp t v).SameArchitectural (s'.writeTemp t v) := by
  cases t <;> exact h

theorem writeTemp_ir (s : State) (t : Temp) (v : Word) : (s.writeTemp t v).ir = s.ir := by
  cases t <;> rfl

/-- A temporary written with one value on both sides is known afterwards, and what was known stays known. -/
theorem SameKnowing.writeTemp {known : List Hidden} {s s' : State} (h : SameKnowing known s s') (t : Temp) (v : Word) :
    SameKnowing (.temp t :: known) (s.writeTemp t v) (s'.writeTemp t v) := by
  obtain ⟨harch, hir, hknown⟩ := h
  refine ⟨writeTemp_sameArchitectural harch t v, by simpa only [writeTemp_ir] using hir, fun x hx => ?_⟩
  rcases List.mem_cons.1 hx with rfl | hx
  · simp only [Hidden.Same, readTemp_writeTemp, if_true]
  · have hsame := hknown x hx
    cases x with
    | temp t' =>
      have hread : s.readTemp t' = s'.readTemp t' := hsame
      simp only [Hidden.Same, readTemp_writeTemp, hread]
    | aluIn => cases t <;> exact hsame
    | aluOut => cases t <;> exact hsame

/-- The ALU input latch loaded with one value on both sides is known afterwards (R114). -/
theorem SameKnowing.loadAluIn {known : List Hidden} {s s' : State} (h : SameKnowing known s s') (p : AluCode)
    {a a' b b' : Word} (ha : a = a') (hb : b = b') :
    SameKnowing (.aluIn :: known) { s with aop := p, aa := a, ab := b } { s' with aop := p, aa := a', ab := b' } := by
  refine ⟨h.arch, h.ir, fun x hx => ?_⟩
  cases x with
  | temp t =>
    have hsame := h.hidden (.temp t) (by simpa using hx)
    cases t <;> exact hsame
  | aluIn => exact ⟨rfl, ha, hb⟩
  | aluOut => exact h.hidden .aluOut (by simpa using hx)

/-- The ALU result loaded with one value on both sides is known afterwards (R114). -/
theorem SameKnowing.loadAluOut {known : List Hidden} {s s' : State} (h : SameKnowing known s s') (q : AluResult) :
    SameKnowing (.aluOut :: known) { s with aluQ := q } { s' with aluQ := q } := by
  refine ⟨h.arch, h.ir, fun x hx => ?_⟩
  cases x with
  | temp t =>
    have hsame := h.hidden (.temp t) (by simpa using hx)
    cases t <;> exact hsame
  | aluIn => exact h.hidden .aluIn (by simpa using hx)
  | aluOut => rfl

/-- A micro-operation that reads known registers only commits alike, and what it writes is known afterwards. -/
theorem SameKnowing.perform_commit {known : List Hidden} {s s' t : State} {u : MicroOp} (h : SameKnowing known s s')
    (hu : u.hiddenReads ⊆ known) (hp : perform u s = .commit t) :
    ∃ t', perform u s' = .commit t' ∧ SameKnowing (u.hiddenWrites ++ known) t t' := by
  obtain ⟨hregs, hmem, hqueue, hqidx, hfsm, hrwl, hmwl, hreports, hdump⟩ := h.arch
  rcases perform_commit_cases hp with ⟨t, a, rfl, rfl⟩ | ⟨t, a, rfl, hl, ha, rfl⟩ | ⟨a, rfl, rfl⟩ |
    ⟨v, a, rfl, hl, rfl⟩ | ⟨a, rfl, ha, rfl⟩ | ⟨v, a, rfl, hl, ha, rfl⟩ | ⟨op, rfl, rfl⟩ | ⟨op, q, rfl, hop, hq, rfl⟩
  · have hread : s.readReg a = s'.readReg a := by simp only [State.readReg, hregs]
    exact ⟨_, perform_rdR t a s', hread ▸ h.writeTemp t (s.readReg a)⟩
  · exact ⟨_, perform_rdM (hmwl ▸ hl) (hmem ▸ ha), hmem ▸ h.writeTemp t (s.mem.read a.toNat)⟩
  · exact ⟨_, perform_waR a s', ⟨hregs, hmem, hqueue, hqidx, hfsm, rfl, hmwl, hreports, hdump⟩, h.ir, h.hidden⟩
  · have hregs' : s.regs.set a.toNat (s.sourceValue v) = s'.regs.set a.toNat (s'.sourceValue v) := by
      rw [hregs, h.sourceValue hu]
    exact ⟨_, perform_wdR (hrwl ▸ hl), ⟨hregs', hmem, hqueue, hqidx, hfsm, rfl, hmwl, hreports, hdump⟩, h.ir, h.hidden⟩
  · exact ⟨_, perform_waM (hmem ▸ ha), ⟨hregs, hmem, hqueue, hqidx, hfsm, hrwl, rfl, hreports, hdump⟩, h.ir, h.hidden⟩
  · have hmem' : s.mem.write a.toNat (s.sourceValue v) = s'.mem.write a.toNat (s'.sourceValue v) := by
      rw [hmem, h.sourceValue hu]
    exact ⟨_, perform_wdM (hmwl ▸ hl) (hmem ▸ ha),
      ⟨hregs, hmem', hqueue, hqidx, hfsm, hrwl, rfl, hreports, hdump⟩, h.ir, h.hidden⟩
  · have h0 : s.t0 = s'.t0 := h.hidden (.temp .t0) (hu (by simp [MicroOp.hiddenReads]))
    have h1 : s.t1 = s'.t1 := h.hidden (.temp .t1) (hu (by simp [MicroOp.hiddenReads]))
    exact ⟨_, perform_aluLd op s', h.loadAluIn op.code h0 h1⟩
  · obtain ⟨haop, haa, hab⟩ : Hidden.aluIn.Same s s' := h.hidden .aluIn (hu (List.mem_singleton_self _))
    rw [haop] at hop
    rw [haa, hab] at hq
    exact ⟨_, perform_aluEv_some hop hq, h.loadAluOut q⟩

/-- A micro-operation that reads known registers only faults alike. -/
theorem SameKnowing.perform_fault {known : List Hidden} {s s' : State} {u : MicroOp} {d : Detail}
    (h : SameKnowing known s s') (hu : u.hiddenReads ⊆ known) (hp : perform u s = .arithmeticFault d) :
    perform u s' = .arithmeticFault d := by
  obtain ⟨rfl, -⟩ := perform_fault_cases hp
  obtain ⟨haop, haa, hab⟩ : Hidden.aluIn.Same s s' := h.hidden .aluIn (hu (List.mem_singleton_self _))
  rw [perform_eq_fault_iff] at hp ⊢
  rwa [← haop, ← hab]

/-- Retirement keeps what a program sees alike (R108). -/
theorem retire_sameArchitectural {s s' : State} (h : s.SameArchitectural s') : s.retire.SameArchitectural s'.retire := by
  obtain ⟨hregs, hmem, hqueue, hqidx, -, hrwl, hmwl, hreports, hdump⟩ := h
  refine ⟨hregs, hmem, ?_, ?_, ?_, hrwl, hmwl, hreports, hdump⟩
  · simp [hqueue]
  · simp [hqidx]
  · simp [hqueue]

/-- Taking one error keeps what a program sees alike (R236). -/
theorem takeError_sameArchitectural {s s' : State} (h : s.SameArchitectural s') (kind : ErrorKind) (w : IWord)
    (d : Detail) : (s.takeError kind w d).SameArchitectural (s'.takeError kind w d) := by
  obtain ⟨hregs, hmem, hqueue, hqidx, hfsm, hrwl, hmwl, hreports, hdump⟩ := h
  exact retire_sameArchitectural ⟨hregs, hmem, hqueue, hqidx, hfsm, hrwl, hmwl, by simp [hreports, hqidx], hdump⟩

/-- A table that reads known registers only runs alike. -/
theorem SameKnowing.runSteps {known : List Hidden} {s s' t : State} {table : List MicroOp} (h : SameKnowing known s s')
    (hr : ReadsOnlyKnown known table) (hrun : runSteps table s = .next t) :
    ∃ t', Machine.runSteps table s' = .next t' ∧ t.SameArchitectural t' := by
  induction table generalizing known s s' with
  | nil =>
    cases hrun
    exact ⟨_, runSteps_nil s', retire_sameArchitectural h.arch⟩
  | cons u rest ih =>
    obtain ⟨hu, hrest⟩ := hr
    simp only [Machine.runSteps] at hrun
    split at hrun
    next x hp =>
      obtain ⟨x', hp', hx⟩ := h.perform_commit hu hp
      rw [runSteps_commit hp']
      exact ih hx hrest hrun
    next d hp =>
      cases hrun
      have herr := takeError_sameArchitectural h.arch .arithmeticFault s.ir d
      exact ⟨_, runSteps_fault (h.perform_fault hu hp), by simpa only [State.takeArithmeticFault, ← h.ir] using herr⟩
    · cases hrun

/-- The head does the same in two states that a program cannot tell apart. -/
theorem runHead_sameArchitectural {s s' t : State} (h : s.SameArchitectural s') (hrun : runHead s = .next t) :
    ∃ t', runHead s' = .next t' ∧ t.SameArchitectural t' := by
  have hsame := h
  obtain ⟨hregs, hmem, hqueue, hqidx, hfsm, hrwl, hmwl, hreports, hdump⟩ := h
  cases hq : s.queue with
  | nil => simp [runHead, State.fetchHead, hq] at hrun
  | cons w rest =>
    have hq' : s'.queue = w :: rest := hqueue ▸ hq
    cases hv : verdict s.mem.size w with
    | ok i =>
      rw [runHead_of_ok hq hv] at hrun
      rw [runHead_of_ok hq' (hmem ▸ hv)]
      have hload : SameKnowing [] (s.loadIr w i.cls) (s'.loadIr w i.cls) :=
        ⟨⟨hregs, hmem, hqueue, hqidx, rfl, hrwl, hmwl, hreports, hdump⟩, rfl, by simp⟩
      exact hload.runSteps (microOps_readsOnlyKnown i) hrun
    | unrecognizedOpcode p =>
      rw [runHead_of_unrecognized hq hv] at hrun
      cases hrun
      exact ⟨_, runHead_of_unrecognized hq' (hmem ▸ hv), takeError_sameArchitectural hsame _ _ _⟩
    | addressOutOfRange f a =>
      rw [runHead_of_outOfRange hq hv] at hrun
      cases hrun
      exact ⟨_, runHead_of_outOfRange hq' (hmem ▸ hv), takeError_sameArchitectural hsame _ _ _⟩

/-- Right after a retirement the CORE is at an instruction boundary (R108). -/
theorem atBoundary_of_fsmAfterRetire {t : State} {rest : List IWord} (hf : t.fsm = fsmAfterRetire rest) :
    t.atBoundary := by
  cases rest <;> simp [State.atBoundary, hf]

/-- Settles O52: in `Decoding` by the noninterference of the head's table; elsewhere an edge at a boundary reads no hidden
register. -/
theorem hiddenStateUnobservable : Obligations.HiddenStateUnobservable := by
  intro s s' t hsame hb h
  obtain ⟨hregs, hmem, hqueue, hqidx, hfsm, hrwl, hmwl, hreports, hdump⟩ := id hsame
  cases hf : s.fsm with
  | idle =>
    rw [step_eq_edge (by simp [hf]), edge_idle hf] at h
    rw [step_eq_edge (by simp [← hfsm, hf]), edge_idle (hfsm ▸ hf)]
    cases h
    exact ⟨_, rfl, ⟨hregs, hmem, hqueue, hqidx, congrArg fsmAfterRetire hqueue, hrwl, hmwl, hreports, hdump⟩,
      atBoundary_of_fsmAfterRetire rfl⟩
  | decoding =>
    rw [step_eq_runHead hf] at h
    rw [step_eq_runHead (hfsm ▸ hf)]
    obtain ⟨t', ht', hsame'⟩ := runHead_sameArchitectural hsame h
    exact ⟨t', ht', hsame', atBoundary_of_fsmAfterRetire (runHead_next_retires h).1⟩
  | executing c k => simp [State.atBoundary, hf] at hb
  | draining i =>
    rw [step_eq_edge (by simp [hf])] at h
    rw [step_eq_edge (by simp [← hfsm, hf])]
    have hi : i < s.drainLength := by
      by_contra hpast
      simp only [edge, hf, stepDrain, if_pos (Nat.not_lt.1 hpast)] at h
      cases h
    rw [edge_draining hf hi] at h
    have hlen : s.drainLength = s'.drainLength := by simp only [State.drainLength, State.memWords, hmem]
    rw [edge_draining (hfsm ▸ hf) (hlen ▸ hi)]
    cases h
    refine ⟨_, rfl, ⟨hregs, hmem, hqueue, hqidx, ?_, hrwl, hmwl, hreports, ?_⟩, ?_⟩
    · simp only [hlen]
    · simp [hdump, dumpRecord_congr hregs hmem i]
    · by_cases hlast : i + 1 = s.drainLength <;> simp [State.atBoundary, hlast]
  | halted =>
    rw [step_eq_edge (by simp [hf]), edge_halted hf] at h
    rw [step_eq_edge (by simp [← hfsm, hf]), edge_halted (hfsm ▸ hf)]
    cases h
    exact ⟨s', rfl, hsame, hb⟩

end Sys2Proof.Machine
end

section
/-! Reset, and what one edge changes: the queue, the stores, the dump, the ports. -/

namespace Sys2Proof.Machine

open Sys2Proof.Claims

/-! ### Reset (R40, R260) -/

/-- Settles O1: the memory by `read_ofInit`, every other field as R40 writes it. -/
theorem resetPutsEveryField : Obligations.ResetPutsEveryField := by
  rintro n f prog s rfl
  have hregs : ∀ a : RegAddr, (State.resetWith n f prog).readReg a = 0 := fun a => by
    simp [State.readReg, State.resetWith]
  have hmem : ∀ a, a < n → (State.resetWith n f prog).mem.read a = f a := fun a ha => read_ofInit n f ha
  exact ⟨rfl, hregs, rfl, hmem, rfl, rfl, rfl, rfl, rfl, rfl, rfl, rfl, rfl, rfl, rfl, rfl, rfl, rfl⟩

/-- Settles O26: the memory's form is that of every initial contents; in `Idle` only empty latches and an empty dump are
asked. -/
theorem resetMeetsInvariant : Obligations.ResetMeetsInvariant := by
  intro n f prog h1 h2
  exact ⟨⟨wf_ofInit h1 h2 f, (controlOk_idle rfl).2 ⟨rfl, rfl⟩⟩, rfl⟩

/-! ### The queue (R27, R28, R108) -/

/-- Settles O16. -/
theorem queueChangesOnlyAtRetirement : Obligations.QueueChangesOnlyAtRetirement := by
  intro s t h
  rcases edge_retirement h with ⟨hret, hq, hi, hf⟩ | ⟨hret, hq, hi⟩
  · rw [fsmAfterRetire_eq_nextFsm] at hf
    exact ⟨fun _ => ⟨hq, hi, hf⟩, fun hno => absurd (hret.symm.trans hno) Bool.noConfusion⟩
  · exact ⟨fun hyes => absurd (hyes.symm.trans hret) Bool.noConfusion, fun _ => ⟨hq, hi⟩⟩

/-! ### The stores (R23) -/

/-- What a micro-operation does to the two stores: nothing, or one word at the latched address of one of them. -/
theorem perform_commit_stores {u : MicroOp} {s s' : State} (h : perform u s = .commit s') :
    (s'.regs = s.regs ∨ ∃ a v, s.rwl = some a ∧ s'.regs = s.regs.set a.toNat v) ∧
      (s'.mem = s.mem ∨ ∃ a v, s.mwl = some a ∧ s'.mem = s.mem.write a.toNat v) := by
  rcases perform_commit_cases h with ⟨t, a, -, rfl⟩ | ⟨t, a, -, -, -, rfl⟩ | ⟨a, -, rfl⟩ | ⟨v, a, -, hl, rfl⟩ |
    ⟨a, -, -, rfl⟩ | ⟨v, a, -, hl, -, rfl⟩ | ⟨op, -, rfl⟩ | ⟨op, q, -, -, -, rfl⟩
  · cases t <;> exact ⟨.inl rfl, .inl rfl⟩
  · cases t <;> exact ⟨.inl rfl, .inl rfl⟩
  · exact ⟨.inl rfl, .inl rfl⟩
  · exact ⟨.inr ⟨a, _, hl, rfl⟩, .inl rfl⟩
  · exact ⟨.inl rfl, .inl rfl⟩
  · exact ⟨.inl rfl, .inr ⟨a, _, hl, rfl⟩⟩
  · exact ⟨.inl rfl, .inl rfl⟩
  · exact ⟨.inl rfl, .inl rfl⟩

/-- What an edge does to the two stores: nothing, or one word at the latched address of each. -/
theorem edge_stores {s t : State} (h : edge s = .next t) :
    (t.regs = s.regs ∨ ∃ a v, s.rwl = some a ∧ t.regs = s.regs.set a.toNat v) ∧
      (t.mem = s.mem ∨ ∃ a v, s.mwl = some a ∧ t.mem = s.mem.write a.toNat v) := by
  rcases edge_next_cases h with ⟨-, rfl⟩ | ⟨w, rest, i, -, -, -, rfl⟩ | ⟨w, rest, p, -, -, -, rfl⟩ |
    ⟨w, rest, f, a, -, -, -, rfl⟩ | ⟨c, k, u, s', -, -, hp, rfl⟩ | ⟨c, k, u, d, -, -, -, rfl⟩ | ⟨i, -, -, rfl⟩ | ⟨-, rfl⟩
  case inl =>
    rw [stepIdle_eq]
    exact ⟨.inl rfl, .inl rfl⟩
  case inr.inr.inr.inr.inl =>
    have hstores := perform_commit_stores hp
    split <;> exact hstores
  all_goals exact ⟨.inl rfl, .inl rfl⟩

/-- Settles O18: a store changes at most at its latched address, and reads elsewhere as before. -/
theorem atMostOneWritePerEdge : Obligations.AtMostOneWritePerEdge := by
  intro s t h
  obtain ⟨hregs, hmem⟩ := edge_stores h
  constructor
  · intro b hb
    rcases hregs with hsame | ⟨a, v, hl, hset⟩
    · simp only [State.readReg, hsame]
    · have hne : b ≠ a := fun e => hb (e ▸ hl)
      have hread := readReg_writeReg s a b v
      rw [if_neg hne] at hread
      simpa only [State.readReg, writeReg_regs, hset] using hread
  · intro hwf x hx
    rcases hmem with hsame | ⟨a, v, hl, hwrite⟩
    · rw [hsame]
    · rw [hwrite, read_write hwf, if_neg (hx a hl).symm]

/-! ### The dump (R38, R121, R122) -/

theorem dumpOk_idle {s : State} (hf : s.fsm = .idle) : s.DumpOk ↔ s.dump = [] := by
  simp [State.DumpOk, hf]

theorem dumpOk_decoding {s : State} (hf : s.fsm = .decoding) : s.DumpOk ↔ s.dump = [] := by
  simp [State.DumpOk, hf]

theorem dumpOk_executing {s : State} {c : InstrClass} {k : Nat} (hf : s.fsm = .executing c k) :
    s.DumpOk ↔ s.dump = [] := by
  simp [State.DumpOk, hf]

theorem dumpOk_draining {s : State} {i : Nat} (hf : s.fsm = .draining i) : s.DumpOk ↔ s.dump = s.dumpPrefix i := by
  simp [State.DumpOk, hf]

theorem dumpOk_halted {s : State} (hf : s.fsm = .halted) : s.DumpOk ↔ s.dump = s.dumpPrefix s.drainLength := by
  simp [State.DumpOk, hf]

/-- Before the first drain edge the dump is to be empty (R120). -/
theorem dumpOk_of_fsmAfterRetire {t : State} {rest : List IWord} (hf : t.fsm = fsmAfterRetire rest) (hd : t.dump = []) :
    t.DumpOk := by
  cases rest with
  | nil => exact (dumpOk_draining hf).2 hd
  | cons w rest => exact (dumpOk_decoding hf).2 hd

/-- The first `i + 1` records are the first `i` and that of index `i` (R122). -/
theorem dumpPrefix_succ (s : State) (i : Nat) : s.dumpPrefix (i + 1) = s.dumpPrefix i ++ [s.dumpRecord i] := by
  simp [State.dumpPrefix, List.range_succ]

/-- The first records of a dump are read from the registers and the memory alone (R122). -/
theorem dumpPrefix_congr {s t : State} (hregs : s.regs = t.regs) (hmem : s.mem = t.mem) (i : Nat) :
    s.dumpPrefix i = t.dumpPrefix i :=
  List.map_congr_left fun j _ => dumpRecord_congr hregs hmem j

/-- A drain edge appends the next record of the state, which the drain does not change (R121). -/
theorem dumpOk_drained {s : State} {i : Nat} (hs : s.DumpOk) (hf : s.fsm = .draining i) :
    { s with
      dump := s.dump ++ [s.dumpRecord i]
      fsm := if i + 1 = s.drainLength then .halted else .draining (i + 1) : State }.DumpOk := by
  have hnext : s.dump ++ [s.dumpRecord i] = s.dumpPrefix (i + 1) := by
    rw [(dumpOk_draining hf).1 hs, dumpPrefix_succ]
  by_cases hlast : i + 1 = s.drainLength
  · rw [hlast] at hnext
    exact (dumpOk_halted (if_pos hlast)).2 (hnext.trans (dumpPrefix_congr rfl rfl _))
  · exact (dumpOk_draining (if_neg hlast)).2 (hnext.trans (dumpPrefix_congr rfl rfl _))

/-- Every edge keeps the dump as the FSM state says. -/
theorem edge_dumpOk {s t : State} (hs : s.DumpOk) (h : edge s = .next t) : t.DumpOk := by
  rcases edge_next_cases h with ⟨hf, rfl⟩ | ⟨w, rest, i, hf, -, -, rfl⟩ | ⟨w, rest, p, hf, -, -, rfl⟩ |
    ⟨w, rest, f, a, hf, -, -, rfl⟩ | ⟨c, k, u, s', hf, -, hp, rfl⟩ | ⟨c, k, u, d, hf, -, -, rfl⟩ | ⟨i, hf, -, rfl⟩ |
    ⟨hf, rfl⟩
  · rw [stepIdle_eq]
    exact dumpOk_of_fsmAfterRetire rfl ((dumpOk_idle hf).1 hs)
  · exact (dumpOk_executing rfl).2 ((dumpOk_decoding hf).1 hs)
  · exact dumpOk_of_fsmAfterRetire rfl ((dumpOk_decoding hf).1 hs)
  · exact dumpOk_of_fsmAfterRetire rfl ((dumpOk_decoding hf).1 hs)
  · obtain ⟨-, -, -, -, -, hdump, -⟩ := perform_commit_frame hp
    have hempty : s'.dump = [] := hdump.trans ((dumpOk_executing hf).1 hs)
    split
    · exact dumpOk_of_fsmAfterRetire rfl hempty
    · exact (dumpOk_executing rfl).2 hempty
  · exact dumpOk_of_fsmAfterRetire rfl ((dumpOk_executing hf).1 hs)
  · exact dumpOk_drained hs hf
  · exact hs

/-- Settles O30: a step is an edge, or in `Decoding` it appends nothing and ends right after a retirement. -/
theorem dumpFollowsDrain : Obligations.DumpFollowsDrain := by
  refine ⟨fun s t => edge_dumpOk, fun s t hs h => ?_⟩
  by_cases hf : s.fsm = .decoding
  · obtain ⟨hfsm, hdump, -⟩ := runHead_next_retires (step_eq_runHead hf ▸ h)
    exact dumpOk_of_fsmAfterRetire hfsm (hdump.trans ((dumpOk_decoding hf).1 hs))
  · exact edge_dumpOk hs (step_eq_edge hf ▸ h)

/-! ### The latches at the ports (R32, R101) -/

/-- Outside `Executing` the invariant leaves both latches empty. -/
theorem latchesClear_of_inv {s : State} (hs : s.Inv) (hf : ∀ c k, s.fsm ≠ .executing c k) : s.latchesClear := by
  obtain ⟨-, hc⟩ := hs
  cases hfsm : s.fsm with
  | idle => exact (controlOk_idle hfsm).1 hc
  | decoding => exact ((controlOk_decoding hfsm).1 hc).2
  | executing c k => exact absurd hfsm (hf c k)
  | draining i => exact ((controlOk_draining hfsm).1 hc).2.2
  | halted => exact ((controlOk_halted hfsm).1 hc).2

/-- A latch is set exactly when the current step is the data phase of its store (R32). -/
theorem latch_eq_activeMicro {s : State} (hs : s.Inv) :
    s.rwl.isSome = s.activeMicro.any MicroOp.isWdR ∧ s.mwl.isSome = s.activeMicro.any MicroOp.isWdM := by
  cases hf : s.fsm with
  | executing c k =>
    obtain ⟨-, i, hv, rfl, hk, -⟩ := (controlOk_executing hf).1 hs.2
    have hlt : k < (microOps i).length := by rwa [length_microOps]
    have hu : s.currentMicro i.cls k = some (microOps i)[k] := by
      rw [currentMicro_of_verdict k hv, List.getElem?_eq_getElem hlt]
    obtain ⟨hwdR, hwdM⟩ := isWd_eq_latch hs hf hu
    rw [activeMicro_executing hf, hu]
    exact ⟨hwdR.symm, hwdM.symm⟩
  | _ =>
    obtain ⟨hr, hm⟩ := latchesClear_of_inv hs (by simp [hf])
    simp [State.activeMicro, hf, hr, hm]

/-- A latched memory address is below N (R32, R58). -/
theorem mwl_lt_of_inv {s : State} (hs : s.Inv) {a : MemAddr} (ha : s.mwl = some a) : a.toNat < s.mem.size := by
  cases hf : s.fsm with
  | executing c k =>
    obtain ⟨-, i, hv, -, -, -, hm, -⟩ := (controlOk_executing hf).1 hs.2
    exact mwlBefore_lt ((verdict_eq_ok _ _ _).1 hv).2 (hm.symm.trans ha)
  | _ =>
    obtain ⟨-, hm⟩ := latchesClear_of_inv hs (by simp [hf])
    simp [hm] at ha

/-- Settles O31. -/
theorem latchHoldsExactlyInDataPhase : Obligations.LatchHoldsExactlyInDataPhase := by
  refine ⟨fun s hs => ?_, fun n f prog => ⟨rfl, rfl⟩⟩
  obtain ⟨hr, hm⟩ := latch_eq_activeMicro hs
  refine ⟨?_, ?_, fun a ha => mwl_lt_of_inv hs ha, ⟨rfl, rfl⟩, rfl, fun a ha => by simp [State.memPorts, ha]⟩
  · rw [hr, Option.any_eq_true]
    simp [isWdR_iff]
  · rw [hm, Option.any_eq_true]
    simp [isWdM_iff]

/-! ### The external ports (R100, R122, R234) -/

/-- A record's space at the port. -/
theorem spaceCode_eq (x : Space) : x.code = if x = .reg then 0#1 else 1#1 := by
  cases x <;> rfl

/-- The FSM is draining exactly when the step has a dump record (R122). -/
theorem dumpedRecord_eq_some_iff {s : State} {d : DumpRecord} :
    s.dumpedRecord = some d ↔ ∃ i, s.fsm = .draining i ∧ d = s.dumpRecord i := by
  cases hf : s.fsm <;> simp [State.dumpedRecord, hf, eq_comm]

/-- A dump index fits the 8 bits of its port: 32 registers, N ≤ 256 memory words (R7, R122). -/
theorem dumpRecord_index_lt {s : State} {i : Nat} (hm : s.mem.wf = true) (hi : i < s.drainLength) :
    (s.dumpRecord i).index < 2 ^ 8 := by
  obtain ⟨-, hsize, -⟩ := (wf_iff _).1 hm
  simp only [State.drainLength, memWords_eq_size] at hi
  unfold State.dumpRecord
  split
  · show i < 2 ^ 8
    omega
  · show i - 32 < 2 ^ 8
    omega

/-- In a state of the invariant the dump ports carry the whole record. -/
theorem dumpPorts_of_dumpedRecord {s : State} {d : DumpRecord} (hs : s.Inv) (hd : s.dumpedRecord = some d) :
    s.externalPorts.dumpSpace = some (if d.space = .reg then 0#1 else 1#1) ∧
      (∃ x, s.externalPorts.dumpIndex = some x ∧ x.toNat = d.index) ∧ s.externalPorts.dumpValue = some d.value := by
  obtain ⟨i, hf, rfl⟩ := dumpedRecord_eq_some_iff.1 hd
  obtain ⟨-, hi, -⟩ := (controlOk_draining hf).1 hs.2
  have hlt := dumpRecord_index_lt hs.1 hi
  refine ⟨?_, ⟨BitVec.ofNat 8 (s.dumpRecord i).index, ?_, ?_⟩, ?_⟩
  · simp [State.externalPorts, hd, spaceCode_eq]
  · simp [State.externalPorts, hd]
  · rw [BitVec.toNat_ofNat, Nat.mod_eq_of_lt hlt]
  · simp [State.externalPorts, hd]

/-- A list with at most one element appended differs exactly when it has one. -/
theorem append_toList_ne_iff {α : Type} (xs : List α) (o : Option α) : xs ++ o.toList ≠ xs ↔ o.isSome = true := by
  cases o <;> simp

theorem append_toList_eq_iff {α : Type} (xs : List α) (o : Option α) (x : α) :
    xs ++ o.toList = xs ++ [x] ↔ o = some x := by
  cases o <;> simp

/-- Settles O53: the streams grow by what `raisedReport` and `dumpedRecord` announce, and the ports carry these. -/
theorem externalPortsShowTheEdge : Obligations.ExternalPortsShowTheEdge := by
  intro s t hs h
  obtain ⟨hreports, hdump⟩ := edge_output h
  refine ⟨hreports, hdump, ?_, fun r hr => ?_, ?_, ?_, ?_, fun d hd => ?_, fun i hf => ?_, ?_⟩
  · rw [hreports, append_toList_ne_iff]
    rfl
  · rw [hreports, append_toList_eq_iff] at hr
    simp [State.externalPorts, hr]
  · show s.retiresHead = true ↔ t.qidx = s.qidx + 1
    rcases edge_retirement h with ⟨hret, -, hi, -⟩ | ⟨hret, -, hi⟩ <;> simp [hret, hi]
  · show s.dumpedRecord.isSome = true ↔ ∃ i, s.fsm = .draining i
    simp [Option.isSome_iff_exists, dumpedRecord_eq_some_iff]
  · rw [hdump, append_toList_ne_iff]
    rfl
  · rw [hdump, append_toList_eq_iff] at hd
    exact dumpPorts_of_dumpedRecord hs hd
  · rw [hdump, dumpedRecord_eq_some_iff.2 ⟨i, hf, rfl⟩, dumpRecord_eq_recordR122]
    rfl
  · simp [State.externalPorts, State.halted]

end Sys2Proof.Machine
end

section
/-! The write ports of the register file and the memory: what they commit at the edge, and what a read in a write cycle
gives. -/

namespace Sys2Proof.Machine

/-! ### What the write ports commit (R55, R57) -/

@[simp] theorem writeTemp_regs (s : State) (t : Temp) (v : Word) : (s.writeTemp t v).regs = s.regs := by
  cases t <;> rfl

@[simp] theorem writeTemp_mem (s : State) (t : Temp) (v : Word) : (s.writeTemp t v).mem = s.mem := by
  cases t <;> rfl

/-- With no data at the write port the register file keeps its contents, also with the write-enable 1. -/
theorem regFileCommit_of_wdata_none {p : RegFilePorts} (hd : p.wdata = none) (regs : Vector Word 32) :
    p.commit regs = regs := by
  unfold RegFilePorts.commit
  split
  next hsome =>
    rw [hd] at hsome
    cases hsome
  all_goals rfl

/-- With no data at the write port the memory keeps its contents, also with the write-enable 1. -/
theorem memCommit_of_wdata_none {p : MemPorts} (hd : p.wdata = none) (m : Memory) : p.commit m = m := by
  unfold MemPorts.commit
  split
  next hsome =>
    rw [hd] at hsome
    cases hsome
  all_goals rfl

/-- Only a register data phase drives `rf_wdata`, so no other step changes the register file. -/
theorem regFilePorts_commit_of_not_wdR {s : State} (h : ∀ v, s.activeMicro ≠ some (.wdR v)) :
    s.regFilePorts.commit s.regs = s.regs := by
  -- `h` discharges the side condition of the port's default branch.
  have hd : s.regFilePorts.wdata = none := by simp only [State.regFilePorts]
  exact regFileCommit_of_wdata_none hd _

/-- Only a memory data phase drives `mem_wdata`, so no other step changes the memory. -/
theorem memPorts_commit_of_not_wdM {s : State} (h : ∀ v, s.activeMicro ≠ some (.wdM v)) :
    s.memPorts.commit s.mem = s.mem := by
  -- `h` discharges the side condition of the port's default branch.
  have hd : s.memPorts.wdata = none := by simp only [State.memPorts]
  exact memCommit_of_wdata_none hd _

/-- A register data phase commits its value at the latched address (R57, R112). -/
theorem regFilePorts_commit_of_wdR {s : State} {v : Source} {a : RegAddr} (hact : s.activeMicro = some (.wdR v))
    (hl : s.rwl = some a) : s.regFilePorts.commit s.regs = s.regs.set a.toNat (s.sourceValue v) := by
  simp [RegFilePorts.commit, State.regFilePorts, hact, hl]

/-- A memory data phase commits its value at the latched address (R55, R112). -/
theorem memPorts_commit_of_wdM {s : State} {v : Source} {a : MemAddr} (hact : s.activeMicro = some (.wdM v))
    (hl : s.mwl = some a) : s.memPorts.commit s.mem = s.mem.write a.toNat (s.sourceValue v) := by
  simp [MemPorts.commit, State.memPorts, hact, hl]

/-- A micro-operation leaves in the two stores what the write ports of its step commit. -/
theorem perform_commit_eq_portsCommit {u : MicroOp} {s s' : State} (hact : s.activeMicro = some u)
    (h : perform u s = .commit s') :
    s'.regs = s.regFilePorts.commit s.regs ∧ s'.mem = s.memPorts.commit s.mem := by
  have keepRegs : (∀ v, u ≠ .wdR v) → s.regFilePorts.commit s.regs = s.regs := fun hu =>
    regFilePorts_commit_of_not_wdR (by simpa [hact] using hu)
  have keepMem : (∀ v, u ≠ .wdM v) → s.memPorts.commit s.mem = s.mem := fun hu =>
    memPorts_commit_of_not_wdM (by simpa [hact] using hu)
  rcases perform_commit_cases h with ⟨t, a, rfl, rfl⟩ | ⟨t, a, rfl, -, -, rfl⟩ | ⟨a, rfl, rfl⟩ |
    ⟨v, a, rfl, hl, rfl⟩ | ⟨a, rfl, -, rfl⟩ | ⟨v, a, rfl, hl, -, rfl⟩ | ⟨op, rfl, rfl⟩ | ⟨op, q, rfl, -, -, rfl⟩
  case inr.inr.inr.inl => exact ⟨(regFilePorts_commit_of_wdR hact hl).symm, (keepMem (by simp)).symm⟩
  case inr.inr.inr.inr.inr.inl => exact ⟨(keepRegs (by simp)).symm, (memPorts_commit_of_wdM hact hl).symm⟩
  all_goals simp [keepRegs, keepMem]

/-- A step that performs no data phase commits nothing at either write port. -/
theorem portsCommit_of_no_data {s : State} (hr : ∀ v, s.activeMicro ≠ some (.wdR v))
    (hm : ∀ v, s.activeMicro ≠ some (.wdM v)) :
    s.regs = s.regFilePorts.commit s.regs ∧ s.mem = s.memPorts.commit s.mem :=
  ⟨(regFilePorts_commit_of_not_wdR hr).symm, (memPorts_commit_of_not_wdM hm).symm⟩

/-- Settles O54: an edge leaves the stores alone unless it performs a micro-operation, and the ports agree with each. -/
theorem storePortsCommitTheEdge : Obligations.StorePortsCommitTheEdge := by
  intro s t h
  have idlePorts : s.activeMicro = none →
      s.regs = s.regFilePorts.commit s.regs ∧ s.mem = s.memPorts.commit s.mem := fun hact =>
    portsCommit_of_no_data (by simp [hact]) (by simp [hact])
  rcases edge_next_cases h with ⟨hf, rfl⟩ | ⟨w, rest, i, hf, -, -, rfl⟩ | ⟨w, rest, p, hf, -, -, rfl⟩ |
    ⟨w, rest, f, a, hf, -, -, rfl⟩ | ⟨c, k, u, s', hf, hu, hp, rfl⟩ | ⟨c, k, u, d, hf, hu, hp, rfl⟩ |
    ⟨i, hf, -, rfl⟩ | ⟨hf, rfl⟩
  case inl =>
    rw [stepIdle_eq]
    exact idlePorts (by simp [State.activeMicro, hf])
  case inr.inr.inr.inr.inl =>
    have hports := perform_commit_eq_portsCommit ((activeMicro_executing hf).trans hu) hp
    split <;> exact hports
  case inr.inr.inr.inr.inr.inl =>
    obtain ⟨rfl, -⟩ := perform_fault_cases hp
    have hact : s.activeMicro = some .aluEv := (activeMicro_executing hf).trans hu
    have hports := portsCommit_of_no_data (s := s) (by simp [hact]) (by simp [hact])
    exact hports
  all_goals exact idlePorts (by simp [State.activeMicro, hf])

/-! ### A read in the cycle of a write (R54, R57, R267) -/

/-- Settles O55: a read is of the committed contents, and `mwl` set is `mem_we = 1`, which shuts out a memory read. -/
theorem readDuringWriteGivesOldValue : Obligations.ReadDuringWriteGivesOldValue := by
  refine ⟨?_, fun s hw => if_pos hw⟩
  rintro regs a b v p rfl
  refine ⟨rfl, congrArg some ?_⟩
  show (regs.set a.toNat v)[b.toNat] = if b = a then v else regs[b.toNat]
  simp only [Vector.getElem_set, ← BitVec.toNat_inj, eq_comm]

end Sys2Proof.Machine
end

section
/-! The encoder and the decoder as inverses: the fields of an encoded word, a word without its filler bits, and the decoder
as the function of R87. -/

namespace Sys2Proof

/-! ### Decoding an encoded word (R74 to R81) -/

/-- The eight formats: an instruction is one of seven constructors or an ALU operation on three registers (R74 to R81). -/
theorem Instr.formatCases {motive : Instr → Prop}
    (wmem : ∀ a d, motive (.wmem a d)) (wreg : ∀ rd d, motive (.wreg rd d))
    (alu : ∀ (op : AluOp) rs1 rs2 rd, motive (op.instr rs1 rs2 rd))
    (rotm : ∀ a b c, motive (.rotm a b c)) (rotr : ∀ a b c, motive (.rotr a b c))
    (r2m : ∀ rs a, motive (.r2m rs a)) (m2r : ∀ a rd, motive (.m2r a rd)) (clr : ∀ rd, motive (.clr rd))
    (i : Instr) : motive i := by
  cases i with
  | wmem a d => exact wmem a d
  | wreg rd d => exact wreg rd d
  | add a b d => exact alu .add a b d
  | sub a b d => exact alu .sub a b d
  | mul a b d => exact alu .mul a b d
  | div a b d => exact alu .div a b d
  | mod a b d => exact alu .mod a b d
  | pow a b d => exact alu .pow a b d
  | and a b d => exact alu .and a b d
  | or a b d => exact alu .or a b d
  | nand a b d => exact alu .nand a b d
  | nor a b d => exact alu .nor a b d
  | xor a b d => exact alu .xor a b d
  | xnor a b d => exact alu .xnor a b d
  | not a b d => exact alu .not a b d
  | rotm a b c => exact rotm a b c
  | rotr a b c => exact rotr a b c
  | r2m rs a => exact r2m rs a
  | m2r a rd => exact m2r a rd
  | clr rd => exact clr rd

theorem formatOf_encode (i : Instr) : formatOf (encode i) = i.cls := by
  cases i using Instr.formatCases with
  | wmem a d => exact Laws.EncodedClass.wmem a d
  | wreg rd d => exact Laws.EncodedClass.wreg rd d
  | alu op a b d => simpa using Laws.formatOf_encodeAlu op a b d
  | rotm a b c => exact Laws.EncodedClass.rotm a b c
  | rotr a b c => exact Laws.EncodedClass.rotr a b c
  | r2m rs a => exact Laws.EncodedClass.r2m rs a
  | m2r a rd => exact Laws.EncodedClass.m2r a rd
  | clr rd => exact Laws.EncodedClass.clr rd

/-- The opcode field of a word is the opcode of its format (R71). -/
theorem opcodeField_eq_code (w : IWord) : opcodeField w = (formatOf w).code :=
  (classCode_ofCode _).symm

/-- The fields of an encoded instruction are its operands, whatever the memory size. -/
theorem decodeFields_encode (i : Instr) : decodeFields (encode i) = some i := by
  have hformat := formatOf_encode i
  unfold formatOf at hformat
  unfold decodeFields
  rw [hformat]
  cases i using Instr.formatCases with
  | wmem a d =>
    simp only [Instr.cls, encode, memField28, dataField, BitVec.extractLsb'_append_eq_ite]
    simp
  | wreg rd d =>
    simp only [Instr.cls, encode, regField28, dataField, BitVec.extractLsb'_append_eq_ite]
    simp
  | alu op a b d =>
    simp only [cls_aluInstr, encode_aluInstr, encodeAlu, aluopField, regField28, regField23, regField18,
      BitVec.extractLsb'_append_eq_ite]
    simp
  | rotm a b c =>
    simp only [Instr.cls, encode, memField28, memField20, memField12, BitVec.extractLsb'_append_eq_ite]
    simp
  | rotr a b c =>
    simp only [Instr.cls, encode, regField28, regField23, regField18, BitVec.extractLsb'_append_eq_ite]
    simp
  | r2m rs a =>
    simp only [Instr.cls, encode, regField28, memField23, BitVec.extractLsb'_append_eq_ite]
    simp
  | m2r a rd =>
    simp only [Instr.cls, encode, memField28, regField20, BitVec.extractLsb'_append_eq_ite]
    simp
  | clr rd =>
    simp only [Instr.cls, encode, regField28, BitVec.extractLsb'_append_eq_ite]
    simp

/-- Settles O3: the fields come back by the layout of each format, and well-formedness is the range check. -/
theorem decodeOfEncode : Obligations.DecodeOfEncode := fun n i hwf =>
  (verdict_eq_ok n (encode i) i).2 ⟨decodeFields_encode i, hwf⟩

/-! ### What a decoded word holds -/

/-- Inversion of `decodeFields`: the opcode of the word and its operands, format by format (R74 to R81). -/
theorem decodeFields_cases {w : IWord} {i : Instr} (h : decodeFields w = some i) :
    (opcodeField w = InstrClass.writeMemory.code ∧ i = .wmem (memField28 w) (dataField w)) ∨
    (opcodeField w = InstrClass.writeRegister.code ∧ i = .wreg (regField28 w) (dataField w)) ∨
    (∃ op : AluOp, opcodeField w = InstrClass.aluOperation.code ∧ aluopField w = op.code ∧
      i = op.instr (regField28 w) (regField23 w) (regField18 w)) ∨
    (opcodeField w = InstrClass.moveInMemory.code ∧ i = .rotm (memField28 w) (memField20 w) (memField12 w)) ∨
    (opcodeField w = InstrClass.moveInRegisters.code ∧ i = .rotr (regField28 w) (regField23 w) (regField18 w)) ∨
    (opcodeField w = InstrClass.registerToMemory.code ∧ i = .r2m (regField28 w) (memField23 w)) ∨
    (opcodeField w = InstrClass.memoryToRegister.code ∧ i = .m2r (memField28 w) (regField20 w)) ∨
    (opcodeField w = InstrClass.clearRegister.code ∧ i = .clr (regField28 w)) := by
  have hop := classCode_ofCode (opcodeField w)
  unfold decodeFields at h
  cases hc : InstrClass.ofCode (opcodeField w) <;> simp only [hc] at h hop
  case aluOperation =>
    obtain ⟨op, hsub, rfl⟩ := Option.map_eq_some_iff.1 h
    exact .inr (.inr (.inl ⟨op, hop.symm, (aluOfCode_eq_some _ _).1 hsub, rfl⟩))
  all_goals
    cases h
    simp [← hop, InstrClass.code]

/-! ### The decoder as R87 writes it -/

/-- The range checks on a list of address fields, as R87 chains them: the first failing one is reported (R237). -/
theorem firstOutOfRange_eq_checks (n : Nat) (i : Instr) (fields : List (Field × MemAddr)) :
    (firstOutOfRange n fields).elim (.ok i) (fun p => Verdict.addressOutOfRange p.1 p.2) =
      fields.foldr (fun p v => if n ≤ p.2.toNat then .addressOutOfRange p.1 p.2 else v) (.ok i) := by
  induction fields with
  | nil => rfl
  | cons p rest ih =>
    simp only [firstOutOfRange, List.foldr_cons, ← ih]
    split <;> rfl

/-- The verdict on a word whose fields decode: its range checks in order, then `Ok`. -/
theorem verdict_eq_checks {w : IWord} {i : Instr} (n : Nat) (h : decodeFields w = some i) :
    verdict n w = i.addrFields.foldr (fun p v => if n ≤ p.2.toNat then .addressOutOfRange p.1 p.2 else v) (.ok i) := by
  rw [← firstOutOfRange_eq_checks]
  cases hr : firstOutOfRange n i.addrFields <;> simp [verdict, h, hr]

/-- R87 on an ALU word whose sub-opcode is an operation's: thirteen comparisons in the order of R84. -/
theorem decodeR87_of_aluOp {w : IWord} {op : AluOp} (n : Nat) (hop : opcodeField w = InstrClass.aluOperation.code)
    (hp : aluopField w = op.code) :
    Claims.decodeR87 n w = .ok (op.instr (regField28 w) (regField23 w) (regField18 w)) := by
  unfold opcodeField at hop
  unfold aluopField at hp
  unfold Claims.decodeR87
  rw [hop, hp]
  cases op <;> rfl

/-- R87 on an ALU word whose sub-opcode is 13, 14 or 15 (R85). -/
theorem decodeR87_of_no_aluOp {w : IWord} (n : Nat) (hop : opcodeField w = InstrClass.aluOperation.code)
    (hp : 13 ≤ (aluopField w).toNat) : Claims.decodeR87 n w = .unrecognizedOpcode (aluopField w) := by
  have hne (k : AluCode) (hk : k.toNat < 13) : aluopField w ≠ k := fun e => by
    subst e
    omega
  unfold opcodeField at hop
  unfold aluopField at hne ⊢
  simp [Claims.decodeR87, hop, InstrClass.code, hne]

/-- Settles O4: by what the word decodes to; but for the ALU's sub-opcodes both sides are the range checks of the format's
address fields on the same fields of the word. -/
theorem decoderIsRuleEightySeven : Obligations.DecoderIsRuleEightySeven := by
  intro n w
  cases hd : decodeFields w with
  | none =>
    obtain ⟨hop, hsub⟩ := (decodeFields_eq_none w).1 hd
    rw [decodeR87_of_no_aluOp n hop hsub]
    exact (verdict_eq_unrecognized n w _).2 ⟨hd, rfl⟩
  | some i =>
    rw [verdict_eq_checks n hd]
    rcases decodeFields_cases hd with ⟨hop, rfl⟩ | ⟨hop, rfl⟩ | ⟨op, hop, hsub, rfl⟩ | ⟨hop, rfl⟩ | ⟨hop, rfl⟩ |
      ⟨hop, rfl⟩ | ⟨hop, rfl⟩ | ⟨hop, rfl⟩
    case inr.inr.inl =>
      rw [decodeR87_of_aluOp n hop hsub, addrFields_aluInstr]
      rfl
    all_goals
      unfold opcodeField at hop
      rw [Claims.decodeR87, hop]
      rfl

/-! ### A word without its filler bits (R82) -/

/-- Clearing the lowest `k` bits of a word keeps the others. -/
theorem and_not_lowMask {m k : Nat} (w : BitVec (m + k)) :
    w &&& ~~~(0#m ++ BitVec.allOnes k) = w.extractLsb' k m ++ 0#k := by
  calc w &&& ~~~(0#m ++ BitVec.allOnes k)
      = (w.extractLsb' k m ++ w.extractLsb' 0 k) &&& (BitVec.allOnes m ++ 0#k) := by
        rw [BitVec.extractLsb'_append_extractLsb', BitVec.not_append]
        simp
    _ = w.extractLsb' k m ++ 0#k := by simp only [BitVec.and_append, BitVec.and_allOnes, BitVec.and_zero]

/-- Clearing `k` bits above the lowest `l` of a word keeps the others. -/
theorem and_not_middleMask {m k l : Nat} (w : BitVec (m + k + l)) :
    w &&& ~~~(0#m ++ BitVec.allOnes k ++ 0#l) = w.extractLsb' (l + k) m ++ 0#k ++ w.extractLsb' 0 l := by
  calc w &&& ~~~(0#m ++ BitVec.allOnes k ++ 0#l)
      = (w.extractLsb' (l + k) m ++ w.extractLsb' l k ++ w.extractLsb' 0 l) &&&
          (BitVec.allOnes m ++ 0#k ++ BitVec.allOnes l) := by
        rw [BitVec.extractLsb'_append_extractLsb'_eq_extractLsb' rfl, BitVec.extractLsb'_append_extractLsb',
          BitVec.not_append, BitVec.not_append]
        simp
    _ = w.extractLsb' (l + k) m ++ 0#k ++ w.extractLsb' 0 l := by
        simp only [BitVec.and_append, BitVec.and_allOnes, BitVec.and_zero]

/-- A word that decodes is, outside its filler bits, the encoding of what it decodes to: the fields of its format are
adjacent, so together they are all that the mask keeps. -/
theorem clearFiller_eq_encode {w : IWord} {i : Instr} (h : decodeFields w = some i) :
    w &&& ~~~i.cls.fillerMask = encode i := by
  rcases decodeFields_cases h with ⟨hop, rfl⟩ | ⟨hop, rfl⟩ | ⟨op, hop, hsub, rfl⟩ | ⟨hop, rfl⟩ | ⟨hop, rfl⟩ |
      ⟨hop, rfl⟩ | ⟨hop, rfl⟩ | ⟨hop, rfl⟩
  · have hmask : InstrClass.writeMemory.fillerMask = 0#11 ++ BitVec.allOnes 5 ++ 0#16 := rfl
    rw [Instr.cls, hmask, encode, ← hop]
    simp only [opcodeField, memField28, BitVec.extractLsb'_append_extractLsb'_eq_extractLsb']
    exact and_not_middleMask (m := 11) (k := 5) (l := 16) w
  · have hmask : InstrClass.writeRegister.fillerMask = 0#8 ++ BitVec.allOnes 8 ++ 0#16 := rfl
    rw [Instr.cls, hmask, encode, ← hop]
    simp only [opcodeField, regField28, BitVec.extractLsb'_append_extractLsb'_eq_extractLsb']
    exact and_not_middleMask (m := 8) (k := 8) (l := 16) w
  · have hmask : InstrClass.aluOperation.fillerMask = 0#22 ++ BitVec.allOnes 10 := rfl
    rw [cls_aluInstr, hmask, encode_aluInstr, encodeAlu, ← hop, ← hsub]
    simp only [opcodeField, regField28, regField23, regField18, aluopField,
      BitVec.extractLsb'_append_extractLsb'_eq_extractLsb']
    exact and_not_lowMask (m := 22) (k := 10) w
  · have hmask : InstrClass.moveInMemory.fillerMask = 0#27 ++ BitVec.allOnes 5 := rfl
    rw [Instr.cls, hmask, encode, ← hop]
    simp only [opcodeField, memField28, memField20, memField12,
      BitVec.extractLsb'_append_extractLsb'_eq_extractLsb']
    exact and_not_lowMask (m := 27) (k := 5) w
  · have hmask : InstrClass.moveInRegisters.fillerMask = 0#18 ++ BitVec.allOnes 14 := rfl
    rw [Instr.cls, hmask, encode, ← hop]
    simp only [opcodeField, regField28, regField23, regField18,
      BitVec.extractLsb'_append_extractLsb'_eq_extractLsb']
    exact and_not_lowMask (m := 18) (k := 14) w
  · have hmask : InstrClass.registerToMemory.fillerMask = 0#16 ++ BitVec.allOnes 16 := rfl
    rw [Instr.cls, hmask, encode, ← hop]
    simp only [opcodeField, regField28, memField23, BitVec.extractLsb'_append_extractLsb'_eq_extractLsb']
    exact and_not_lowMask (m := 16) (k := 16) w
  · have hmask : InstrClass.memoryToRegister.fillerMask = 0#16 ++ BitVec.allOnes 16 := rfl
    rw [Instr.cls, hmask, encode, ← hop]
    simp only [opcodeField, memField28, regField20, BitVec.extractLsb'_append_extractLsb'_eq_extractLsb']
    exact and_not_lowMask (m := 16) (k := 16) w
  · have hmask : InstrClass.clearRegister.fillerMask = 0#8 ++ BitVec.allOnes 24 := rfl
    rw [Instr.cls, hmask, encode, ← hop]
    simp only [opcodeField, regField28, BitVec.extractLsb'_append_extractLsb'_eq_extractLsb']
    exact and_not_lowMask (m := 8) (k := 24) w

/-- Settles O6: an `Ok` verdict is a decoded instruction that passed the range check. -/
theorem acceptedWordIsItsEncoding : Obligations.AcceptedWordIsItsEncoding := by
  intro n w i h
  obtain ⟨hd, hwf⟩ := (verdict_eq_ok n w i).1 h
  exact ⟨(cls_of_decodeFields hd).symm, clearFiller_eq_encode hd, hwf⟩

/-- The encoder emits its filler bits as 0. -/
theorem encode_and_fillerMask (i : Instr) : encode i &&& i.cls.fillerMask = 0 := by
  rw [← clearFiller_eq_encode (decodeFields_encode i), BitVec.and_assoc, BitVec.and_comm (~~~_), BitVec.and_not_self]
  simp

/-- The sub-opcode of an ALU word does not lie in its filler bits. -/
theorem aluopField_clearFiller (w : IWord) :
    aluopField (w &&& ~~~InstrClass.aluOperation.fillerMask) = aluopField w := by
  have hmask : aluopField (~~~InstrClass.aluOperation.fillerMask) = BitVec.allOnes 4 := by decide
  unfold aluopField at hmask ⊢
  rw [BitVec.extractLsb'_and, hmask, BitVec.and_allOnes]

/-- Two words of one format that agree outside its filler bits have one opcode, and an ALU word's sub-opcode. -/
theorem codes_eq_of_clearFiller_eq {v w : IWord} (hf : formatOf v = formatOf w)
    (hb : v &&& ~~~(formatOf v).fillerMask = w &&& ~~~(formatOf w).fillerMask) :
    opcodeField v = opcodeField w ∧ (formatOf w = .aluOperation → aluopField v = aluopField w) := by
  refine ⟨by rw [opcodeField_eq_code, opcodeField_eq_code, hf], fun hc => ?_⟩
  rw [hf, hc] at hb
  rw [← aluopField_clearFiller v, hb, aluopField_clearFiller]

/-- Two words of one format that agree outside its filler bits decode to the same: each is the encoding of what it decodes
to, and an encoding decodes to one instruction only. -/
theorem decodeFields_eq_of_clearFiller_eq {v w : IWord} (hf : formatOf v = formatOf w)
    (hb : v &&& ~~~(formatOf v).fillerMask = w &&& ~~~(formatOf w).fillerMask) : decodeFields v = decodeFields w := by
  obtain ⟨hop, hsub⟩ := codes_eq_of_clearFiller_eq hf hb
  have hnone : decodeFields v = none ↔ decodeFields w = none := by
    rw [decodeFields_eq_none, decodeFields_eq_none, hop]
    refine and_congr_right fun h => ?_
    rw [hsub (by rw [formatOf, h]; rfl)]
  cases hv : decodeFields v with
  | none => exact (hnone.1 hv).symm
  | some i =>
    cases hw : decodeFields w with
    | none => rw [hnone.2 hw] at hv; cases hv
    | some j =>
      rw [← cls_of_decodeFields hv, ← cls_of_decodeFields hw, clearFiller_eq_encode hv, clearFiller_eq_encode hw] at hb
      rw [← decodeFields_encode i, hb, decodeFields_encode]

/-- Settles O5: the verdict reads a word only through its decoded fields and, where there are none, its sub-opcode. -/
theorem fillerBitsIgnored : Obligations.FillerBitsIgnored := by
  refine ⟨fun n v w hf hb => ?_, encode_and_fillerMask⟩
  have hd := decodeFields_eq_of_clearFiller_eq hf hb
  cases hw : decodeFields w with
  | none =>
    obtain ⟨hop, -⟩ := (decodeFields_eq_none w).1 hw
    obtain ⟨-, hsub⟩ := codes_eq_of_clearFiller_eq hf hb
    simp only [verdict, hd, hw, hsub (by rw [formatOf, hop]; rfl)]
  | some i => simp only [verdict, hd, hw]

end Sys2Proof
end

section
/-! The stream loader reads back the text of a program: the bits of a line, the lines of a text, and boot. -/

namespace Sys2Proof.Machine

/-! ### One line (R70) -/

/-- A word's characters are binary digits, so a line holds no newline. -/
theorem mem_lineChars {w : IWord} {k : Nat} {c : Char} (h : c ∈ lineChars w k) : c = '0' ∨ c = '1' := by
  induction k with
  | zero => cases h
  | succ k ih =>
    rcases List.mem_cons.1 h with rfl | h
    · cases w.getLsbD k <;> simp
    · exact ih h

theorem newline_not_mem_lineOfWord (w : IWord) : '\n' ∉ lineOfWord w := fun h => by
  rcases mem_lineChars h with e | e <;> cases e

@[simp] theorem length_lineChars (w : IWord) (k : Nat) : (lineChars w k).length = k := by
  induction k with
  | zero => rfl
  | succ k ih => rw [lineChars, List.length_cons, ih]

@[simp] theorem bitOfChar_digit (b : Bool) : bitOfChar (if b then '1' else '0') = some b := by
  cases b <;> rfl

/-- Read after the bits `acc`, the lowest `k` bits of a word are shifted in below them. -/
theorem bitsValue_lineChars (w : IWord) (k acc : Nat) :
    bitsValue (lineChars w k) acc = some (acc * 2 ^ k + w.toNat % 2 ^ k) := by
  induction k generalizing acc with
  | zero => simp [lineChars, bitsValue, Nat.mod_one]
  | succ k ih =>
    have hbit : w.toNat % 2 ^ (k + 1) = w.toNat % 2 ^ k + 2 ^ k * (w.getLsbD k).toNat := by
      rw [Nat.mod_pow_succ, BitVec.getLsbD, Nat.toNat_testBit]
    simp only [lineChars, bitsValue, bitOfChar_digit, ih, hbit, Option.some_inj]
    ring

theorem wordOfLine_lineOfWord (w : IWord) : wordOfLine (lineOfWord w) = some w := by
  rw [wordOfLine, lineOfWord, if_pos (length_lineChars w 32), bitsValue_lineChars, Nat.mod_eq_of_lt w.isLt]
  simp

/-! ### The lines of a text (R262) -/

/-- A line ended by a newline is the first line of the text. -/
theorem splitLines_line_append {line : List Char} (h : '\n' ∉ line) (rest : List Char) :
    splitLines (line ++ '\n' :: rest) = line :: splitLines rest := by
  induction line with
  | nil => simp [splitLines]
  | cons c line ih =>
    obtain ⟨hc, hline⟩ := List.ne_and_not_mem_of_not_mem_cons h
    rw [List.cons_append, splitLines, if_neg (Ne.symm hc), ih hline]

theorem splitLines_textOfProgram (ws : List IWord) : splitLines (textOfProgram ws) = ws.map lineOfWord := by
  induction ws with
  | nil => rfl
  | cons w ws ih =>
    rw [textOfProgram, splitLines_line_append (newline_not_mem_lineOfWord w), ih, List.map_cons]

/-! ### Loading a program (R70, R262) -/

/-- Lines that are the lines of words load as these words, whatever the number of the first. -/
theorem loadLines_map_lineOfWord (k : Nat) (ws : List IWord) : loadLines k (ws.map lineOfWord) = .program ws := by
  induction ws generalizing k with
  | nil => rfl
  | cons w ws ih => simp [loadLines, wordOfLine_lineOfWord, ih]

/-- Settles O56: splitting gives back the lines, and each line its word. -/
theorem programTextLoads : Obligations.ProgramTextLoads := by
  intro ws
  have hload : loadStream (textOfProgram ws) = .program ws := by
    rw [loadStream, splitLines_textOfProgram, loadLines_map_lineOfWord]
  exact ⟨hload, fun n f => by rw [boot, hload]⟩

end Sys2Proof.Machine
end

section
/-! The control FSM edge by edge: where an edge leads, what the `Idle` and `Decoding` edges do, and the edge of each
micro-operation. -/

namespace Sys2Proof.Machine

open Sys2Proof.Claims

/-! ### Where an edge leads (R104, R105, R108, R120, R123) -/

/-- All the FSM states an edge can lead to: where the queue left says, from `Idle` and at a retirement; a step of an
instruction; the next drain state; or the same, in `Halted`. -/
theorem edge_fsm_cases {s t : State} (h : edge s = .next t) :
    ((s.fsm = .idle ∧ t.queue = s.queue ∨ s.retiresHead = true ∧ t.queue = s.queue.tail) ∧
      t.fsm = fsmAfterRetire t.queue) ∨
    (∃ c k, t.fsm = .executing c k) ∨
    (∃ i, s.fsm = .draining i ∧ (t.fsm = .halted ∨ t.fsm = .draining (i + 1))) ∨
    (s.fsm = .halted ∧ t.fsm = .halted) := by
  rcases edge_retirement h with ⟨hret, hq, -, hf⟩ | ⟨hret, hq, -⟩
  · exact .inl ⟨.inr ⟨hret, hq⟩, hq ▸ hf⟩
  rcases edge_next_cases h with ⟨hf, rfl⟩ | ⟨w, rest, i, -, -, -, rfl⟩ | ⟨w, rest, p, hf, hw, hv, rfl⟩ |
    ⟨w, rest, f, a, hf, hw, hv, rfl⟩ | ⟨c, k, u, s', hf, -, -, rfl⟩ | ⟨c, k, u, d, hf, hu, hp, rfl⟩ |
    ⟨i, hf, -, rfl⟩ | ⟨hf, rfl⟩
  · rw [stepIdle_eq]
    exact .inl ⟨.inl ⟨hf, rfl⟩, rfl⟩
  · exact .inr (.inl ⟨i.cls, 0, rfl⟩)
  · simp [State.retiresHead, State.raisedReport, hf, hw, hv] at hret
  · simp [State.retiresHead, State.raisedReport, hf, hw, hv] at hret
  · have hmore : k + 1 ≠ classSteps c := by
      intro hlast
      simp [State.retiresHead, hf, hlast] at hret
    exact .inr (.inl ⟨c, k + 1, by rw [if_neg hmore]⟩)
  · simp [State.retiresHead, hf, (aluFault_of_fault hf hu hp).1] at hret
  · exact .inr (.inr (.inl ⟨i, hf, by by_cases hlast : i + 1 = s.drainLength <;> simp [hlast]⟩))
  · exact .inr (.inr (.inr ⟨hf, hf⟩))

theorem fsmAfterRetire_ne_idle (rest : List IWord) : fsmAfterRetire rest ≠ .idle := by
  cases rest <;> exact Fsm.noConfusion

theorem fsmAfterRetire_eq_decoding {rest : List IWord} : fsmAfterRetire rest = .decoding ↔ rest ≠ [] := by
  cases rest <;> simp

theorem fsmAfterRetire_eq_draining {rest : List IWord} {j : Nat} :
    fsmAfterRetire rest = .draining j ↔ rest = [] ∧ j = 0 := by
  cases rest <;> simp [eq_comm]

theorem edge_fsm_ne_idle {s t : State} (h : edge s = .next t) : t.fsm ≠ .idle := by
  rcases edge_fsm_cases h with ⟨-, hf⟩ | ⟨c, k, hf⟩ | ⟨i, -, hf | hf⟩ | ⟨-, hf⟩
  · exact hf ▸ fsmAfterRetire_ne_idle _
  all_goals
    rw [hf]
    exact Fsm.noConfusion

theorem queue_ne_nil_of_edge_decoding {s t : State} (h : edge s = .next t) (hd : t.fsm = .decoding) : t.queue ≠ [] := by
  rcases edge_fsm_cases h with ⟨-, hf⟩ | ⟨c, k, hf⟩ | ⟨i, -, hf | hf⟩ | ⟨-, hf⟩
  · exact fsmAfterRetire_eq_decoding.1 (hf.symm.trans hd)
  all_goals exact Fsm.noConfusion (hf.symm.trans hd)

/-- Settles O22. -/
theorem haltedIsTerminal : Obligations.HaltedIsTerminal := fun s hf =>
  ⟨edge_halted hf, (step_eq_edge (by simp [hf])).trans (edge_halted hf)⟩

/-- Settles O20: an edge into `Draining` from another FSM state goes where an empty queue sends it. -/
theorem drainEntry : Obligations.DrainEntry := by
  constructor
  · rintro s t h (⟨hf, hq⟩ | ⟨hret, hq⟩)
    · rw [edge_idle hf, hq] at h
      cases h
      rfl
    · rcases edge_retirement h with ⟨-, -, -, hfsm⟩ | ⟨hno, -⟩
      · rw [hfsm, hq, fsmAfterRetire_nil]
      · exact absurd (hret.symm.trans hno) Bool.noConfusion
  · intro s t j h hj hs
    rcases edge_fsm_cases h with ⟨hfrom, hf⟩ | ⟨c, k, hf⟩ | ⟨i, hi, -⟩ | ⟨-, hf⟩
    · obtain ⟨hempty, hzero⟩ := fsmAfterRetire_eq_draining.1 (hf.symm.trans hj)
      rcases hfrom with ⟨hidle, hq⟩ | ⟨hret, hq⟩
      · exact ⟨hzero, .inl ⟨hidle, hq ▸ hempty⟩⟩
      · exact ⟨hzero, .inr ⟨hret, hq ▸ hempty⟩⟩
    · exact Fsm.noConfusion (hf.symm.trans hj)
    · exact absurd hi (hs i)
    · exact Fsm.noConfusion (hf.symm.trans hj)

/-! ### The `Idle` and `Decoding` edges (R105, R106) -/

/-- Settles O9. -/
theorem idleEdge : Obligations.IdleEdge := by
  refine ⟨fun s hf => ⟨?_, step_eq_edge (by simp [hf])⟩, fun s t => edge_fsm_ne_idle⟩
  rw [edge_idle hf, fsmAfterRetire_eq_nextFsm]
  rfl

/-- Taking an error retires the head as R108 and R236 say. -/
theorem takeError_eq_reported (s : State) (kind : ErrorKind) (w : IWord) (d : Detail) :
    s.takeError kind w d = reported s s.queue.tail kind w d := by
  simp only [State.takeError, State.retire, reported, retired, fsmAfterRetire_eq_nextFsm]

/-- The `Decoding` edge of a head that decodes `Ok` (R106). -/
theorem edge_of_ok {s : State} {w : IWord} {rest : List IWord} {i : Instr} (hf : s.fsm = .decoding)
    (hq : s.queue = w :: rest) (hv : verdict s.mem.size w = .ok i) : edge s = .next (s.loadIr w i.cls) := by
  simp only [edge, hf, stepDecode, hq, hv]

/-- The `Decoding` edge of a head with an undefined sub-opcode (R106, R231). -/
theorem edge_of_unrecognized {s : State} {w : IWord} {rest : List IWord} {p : AluCode} (hf : s.fsm = .decoding)
    (hq : s.queue = w :: rest) (hv : verdict s.mem.size w = .unrecognizedOpcode p) :
    edge s = .next (s.takeUnrecognizedOpcode w p) := by
  simp only [edge, hf, stepDecode, hq, hv]

/-- The `Decoding` edge of a head with an address out of range (R106, R232). -/
theorem edge_of_outOfRange {s : State} {w : IWord} {rest : List IWord} {f : Field} {a : MemAddr}
    (hf : s.fsm = .decoding) (hq : s.queue = w :: rest) (hv : verdict s.mem.size w = .addressOutOfRange f a) :
    edge s = .next (s.takeAddressOutOfRange w f a) := by
  simp only [edge, hf, stepDecode, hq, hv]

/-- Settles O10: the edge follows the verdict, and the verdict is R87's. -/
theorem decodingEdge : Obligations.DecodingEdge := by
  refine ⟨fun s w rest hf hq => ?_, fun s t => queue_ne_nil_of_edge_decoding⟩
  have herror (kind : ErrorKind) (d : Detail) : s.takeError kind w d = reported s rest kind w d := by
    rw [takeError_eq_reported, hq]
    rfl
  have hrule := decoderIsRuleEightySeven s.mem.size w
  cases hv : verdict s.mem.size w with
  | ok i =>
    rw [edge_of_ok hf hq hv, memWords_eq_size, ← hrule, hv]
    rfl
  | unrecognizedOpcode p =>
    rw [edge_of_unrecognized hf hq hv, memWords_eq_size, ← hrule, hv]
    exact congrArg _ (herror _ _)
  | addressOutOfRange f a =>
    rw [edge_of_outOfRange hf hq hv, memWords_eq_size, ← hrule, hv]
    exact congrArg _ (herror _ _)

/-- Settles O8. -/
theorem stepRunsDecodedInstruction : Obligations.StepRunsDecodedInstruction := by
  intro s w rest i hf hq hv
  obtain ⟨hd, -⟩ := (verdict_eq_ok _ _ _).1 hv
  simp only [step_eq_runHead hf, runHead, State.fetchHead, hq, hd]

/-! ### Reports (R109) -/

/-- A report carries `qidx` and comes with a retirement, at a `Decoding` or an `ALU_EV` edge (R106, R107, R109). -/
theorem raisedReport_eq_some {s : State} {r : Report} (h : s.raisedReport = some r) :
    r.index = s.qidx ∧ s.retiresHead = true ∧ (s.fsm = .decoding ∨ s.activeMicro = some .aluEv) := by
  cases hf : s.fsm with
  | decoding =>
    have hretires : s.retiresHead = true := by simp [State.retiresHead, hf, h]
    refine ⟨?_, hretires, .inl rfl⟩
    cases hq : s.queue with
    | nil => simp [State.raisedReport, hf, hq] at h
    | cons w rest =>
      cases hv : verdict s.mem.size w <;> simp [State.raisedReport, hf, hq, hv] at h
      all_goals rw [← h]
  | executing c k =>
    obtain ⟨hfault, rfl⟩ : s.aluFault = true ∧ _ = r := by simpa [State.raisedReport, hf] using h
    refine ⟨rfl, by simp [State.retiresHead, hf, hfault], .inr ?_⟩
    simp only [State.aluFault, Bool.and_eq_true, decide_eq_true_eq] at hfault
    obtain ⟨⟨hev, -⟩, -⟩ := hfault
    exact hev
  | _ => simp [State.raisedReport, hf] at h

/-- Settles O17: an edge appends what its step announces, which is at most one report, announced with a retirement. -/
theorem atMostOneReportPerEdge : Obligations.AtMostOneReportPerEdge := by
  intro s t h
  obtain ⟨hreports, -⟩ := edge_output h
  cases hr : s.raisedReport with
  | none => exact .inl (by simpa [hr] using hreports)
  | some r =>
    obtain ⟨hindex, hret, hfrom⟩ := raisedReport_eq_some hr
    rcases edge_retirement h with ⟨-, -, hqidx, -⟩ | ⟨hno, -⟩
    · exact .inr ⟨r, by simpa [hr] using hreports, hindex, hqidx, hfrom⟩
    · exact absurd (hret.symm.trans hno) Bool.noConfusion

/-! ### The micro-step tables (R110, R112, R113) -/

/-- Settles O14. -/
theorem microStepCounts : Obligations.MicroStepCounts := by
  refine ⟨fun a d => length_microOps _, fun r d => length_microOps _, fun op x y z => ?_, fun a b c => length_microOps _,
    fun a b c => length_microOps _, fun r a => length_microOps _, fun a r => length_microOps _,
    fun r => length_microOps _, length_microOps⟩
  rw [length_microOps, cls_aluInstr]
  rfl

/-- `u` is a phase of a write. -/
def MicroOp.isWrite : MicroOp → Bool
  | .waR _ => true
  | .wdR _ => true
  | .waM _ => true
  | .wdM _ => true
  | _ => false

/-- `u` reads a store. -/
def MicroOp.isRead : MicroOp → Bool
  | .rdR _ _ => true
  | .rdM _ _ => true
  | _ => false

/-- No read stands after a write in any table (R113). -/
theorem microOps_reads_before_writes (i : Instr) :
    (microOps i).Pairwise fun u v => u.isWrite = true → v.isRead = false := by
  cases i using Instr.formatCases with
  | alu op a b d => simp [stepsAlu, MicroOp.isWrite, MicroOp.isRead]
  | rotm a b c => simp [microOps, stepsRotm, MicroOp.isWrite, MicroOp.isRead]
  | rotr a b c => simp [microOps, stepsRotr, MicroOp.isWrite, MicroOp.isRead]
  | r2m rs a => simp [microOps, stepsR2m, MicroOp.isWrite, MicroOp.isRead]
  | m2r a rd => simp [microOps, stepsM2r, MicroOp.isWrite, MicroOp.isRead]
  | wmem a d => simp [microOps, stepsWmem, MicroOp.isWrite, MicroOp.isRead]
  | wreg rd d => simp [microOps, stepsWreg, MicroOp.isWrite, MicroOp.isRead]
  | clr rd => simp [microOps, stepsClr, MicroOp.isWrite, MicroOp.isRead]

/-- A step after a write of the same table is no read (R113). -/
theorem isRead_after_write {i : Instr} {j k : Nat} {u v : MicroOp} (hjk : j < k) (hu : (microOps i)[j]? = some u)
    (hv : (microOps i)[k]? = some v) (hwrite : u.isWrite = true) : v.isRead = false := by
  obtain ⟨hj, rfl⟩ := List.getElem?_eq_some_iff.1 hu
  obtain ⟨hk, rfl⟩ := List.getElem?_eq_some_iff.1 hv
  exact List.pairwise_iff_getElem.1 (microOps_reads_before_writes i) j k hj hk hjk hwrite

/-- Settles O15: the tables by their order; a set latch by the invariant, which makes the step a data phase. -/
theorem readsComeBeforeWrites : Obligations.ReadsComeBeforeWrites := by
  refine ⟨fun i j k hjk hw => ?_, fun s hs hl t a hact => ?_, fun s hs hl t a hact => ?_⟩
  · obtain ⟨u, hu, hwrite⟩ : ∃ u, (microOps i)[j]? = some u ∧ u.isWrite = true := by
      rcases hw with ⟨a, h⟩ | ⟨a, h⟩ | ⟨v, h⟩ | ⟨v, h⟩ <;> exact ⟨_, h, rfl⟩
    exact ⟨fun t a h => Bool.noConfusion (isRead_after_write hjk hu h hwrite),
      fun t a h => Bool.noConfusion (isRead_after_write hjk hu h hwrite)⟩
  · obtain ⟨hr, -⟩ := latch_eq_activeMicro hs
    simp [hl, hact, MicroOp.isWdR] at hr
  · obtain ⟨-, hm⟩ := latch_eq_activeMicro hs
    simp [hl, hact, MicroOp.isWdM] at hm

/-- A step that finds a latch set is in the table: after its last step an instruction has both empty (R112). -/
theorem lt_length_of_latchBefore {i : Instr} {k : Nat} {u : MicroOp} (hu : (microOps i)[k]? = some u)
    (h : (rwlBefore i (k + 1)).isSome = true ∨ (mwlBefore i (k + 1)).isSome = true) :
    k + 1 < (microOps i).length := by
  obtain ⟨hk, -⟩ := List.getElem?_eq_some_iff.1 hu
  have hne : k + 1 ≠ classSteps i.cls := by
    intro hend
    obtain ⟨hr, hm⟩ := latchesBefore_end i
    rw [hend, hr, hm] at h
    simp at h
  rw [length_microOps] at hk ⊢
  omega

/-- An address phase of a register write is followed by its data phase (R112). -/
theorem wdR_after_waR {i : Instr} {k : Nat} {a : RegAddr} (h : (microOps i)[k]? = some (.waR a)) :
    ∃ v, (microOps i)[k + 1]? = some (.wdR v) := by
  obtain ⟨hset, -⟩ := latchesBefore_of_prev h
  have hlt := lt_length_of_latchBefore h (.inl (by rw [hset]; rfl))
  have hnext := List.getElem?_eq_getElem hlt
  obtain ⟨hphase, -⟩ := isWd_eq_latchBefore hnext
  obtain ⟨v, hv⟩ := (isWdR_iff _).1 (hphase.trans (by rw [hset]; rfl))
  exact ⟨v, hnext.trans (congrArg some hv)⟩

/-- An address phase of a memory write is followed by its data phase (R112). -/
theorem wdM_after_waM {i : Instr} {k : Nat} {a : MemAddr} (h : (microOps i)[k]? = some (.waM a)) :
    ∃ v, (microOps i)[k + 1]? = some (.wdM v) := by
  obtain ⟨-, hset⟩ := latchesBefore_of_prev h
  have hlt := lt_length_of_latchBefore h (.inr (by rw [hset]; rfl))
  have hnext := List.getElem?_eq_getElem hlt
  obtain ⟨-, hphase⟩ := isWd_eq_latchBefore hnext
  obtain ⟨v, hv⟩ := (isWdM_iff _).1 (hphase.trans (by rw [hset]; rfl))
  exact ⟨v, hnext.trans (congrArg some hv)⟩

/-- The only `ALU_LD` of a table is that of the sub-opcode in IR (R114, R160). -/
theorem aluLd_code {n : Nat} {w : IWord} {i : Instr} {k : Nat} {op : AluOp} (hv : verdict n w = .ok i)
    (h : (microOps i)[k]? = some (.aluLd op)) : op.code = aluopField w := by
  obtain ⟨hd, -⟩ := (verdict_eq_ok _ _ _).1 hv
  have hmem := List.mem_of_getElem? h
  rcases aluInstr_or_no_alu_step i with ⟨op', a, b, d, rfl⟩ | hno
  · obtain rfl : op = op' := by simpa [stepsAlu] using hmem
    exact (aluopField_of_decodeFields hd).symm
  · exact absurd rfl ((hno _ hmem).2 op)

/-! ### The edge of each micro-operation (R111, R112, R114) -/

theorem withTemp_eq_writeTemp (s : State) (t : Temp) (v : Word) : withTemp s t v = s.writeTemp t v := by
  cases t <;> rfl

/-- An `Executing` edge commits its micro-operation and advances as R107 and R108 say. -/
theorem edge_eq_advanced {s s' : State} {c : InstrClass} {k : Nat} {u : MicroOp} (hf : s.fsm = .executing c k)
    (hu : s.currentMicro c k = some u) (hp : perform u s = .commit s') : edge s = .next (advanced s' c k) := by
  have hretire : s'.retire = retired s' s'.queue.tail := by
    simp only [State.retire, retired, fsmAfterRetire_eq_nextFsm]
  rw [edge_of_commit hf hu hp, hretire]
  rfl

/-- Settles O11. -/
theorem readStepEdge : Obligations.ReadStepEdge := by
  refine ⟨fun s c k t a hf hu => ?_, fun s c k t a hf hu hl ha => ?_⟩
  · have hact := (activeMicro_executing hf).trans hu
    refine ⟨by simp [State.regFilePorts, hact], ?_⟩
    rw [edge_eq_advanced hf hu (perform_rdR t a s), withTemp_eq_writeTemp]
    rfl
  · have hact := (activeMicro_executing hf).trans hu
    refine ⟨by simp [State.memPorts, hact, hl], by simp [State.memPorts, hl], ?_⟩
    rw [edge_eq_advanced hf hu (perform_rdM hl ha), withTemp_eq_writeTemp]

/-- Settles O12: the edges by what each phase commits; the tables by their two-phase form. -/
theorem writeStepEdges : Obligations.WriteStepEdges := by
  refine ⟨fun s c k a hf hu => edge_eq_advanced hf hu (perform_waR a s), fun s c k v a hf hu hl => ?_,
    fun s c k a hf hu ha => edge_eq_advanced hf hu (perform_waM ha), fun s c k v a hf hu hl ha => ?_,
    fun i k a => wdR_after_waR, fun i k a => wdM_after_waM⟩
  · have hact := (activeMicro_executing hf).trans hu
    exact ⟨by simp [State.regFilePorts, hact, hl], edge_eq_advanced hf hu (perform_wdR hl)⟩
  · have hact := (activeMicro_executing hf).trans hu
    exact ⟨by simp [State.memPorts, hact, hl], edge_eq_advanced hf hu (perform_wdM hl ha)⟩

/-- Settles O13: the sub-opcode `ALU_LD` latches is that of the word in IR. -/
theorem aluStepEdges : Obligations.AluStepEdges := by
  refine ⟨fun s c k op hf hu => ?_, fun s c k op q hf hu hop hq => ?_, fun s c k op hf hu hop hq => ?_⟩
  · have hact := (activeMicro_executing hf).trans hu
    obtain ⟨i, hv, -, hi⟩ := currentMicro_eq_some hu
    refine ⟨by simp [State.aluPorts, hact], ?_⟩
    rw [edge_eq_advanced hf hu (perform_aluLd op s), aluLd_code hv hi]
  · have hact := (activeMicro_executing hf).trans hu
    exact ⟨by simp [State.aluPorts, hact], edge_eq_advanced hf hu (perform_aluEv_some hop hq)⟩
  · have hact := (activeMicro_executing hf).trans hu
    refine ⟨by simp [State.aluPorts, hact], ?_⟩
    rw [edge_of_arithmeticFault hf hu (perform_aluEv_none hop hq), State.takeArithmeticFault, takeError_eq_reported]

end Sys2Proof.Machine
end

section
/-! Runs of edges: the drain, and that the CORE never stops. -/

namespace Sys2Proof.Machine

open Sys2Proof.Claims

/-! ### One edge more, before or after a run -/

theorem edges_cons {s t : State} (h : edge s = .next t) (n : Nat) : edges (n + 1) s = edges n t := by
  simp only [edges, h]

theorem edges_snoc {s t : State} {n : Nat} (h : edges n s = .next t) : edges (n + 1) s = edge t :=
  (edges_add 1 h).trans (edges_one t)

theorem edges_of_fault {s : State} {f : Fault} (h : edge s = .fault f) (n : Nat) : edges (n + 1) s = .fault f := by
  simp only [edges, h]

/-- `Halted` is terminal for runs too (R123). -/
theorem edges_halted {s : State} (hf : s.fsm = .halted) (n : Nat) : edges n s = .next s := by
  induction n with
  | zero => rfl
  | succ n ih => rw [edges_cons (edge_halted hf), ih]

/-- A run that is not in `Halted` was not there before. -/
theorem not_halted_of_edges_add {s t x : State} {m n : Nat} (hx : edges m s = .next x) (ht : edges (m + n) s = .next t)
    (hf : t.fsm ≠ .halted) : x.fsm ≠ .halted := by
  intro hx'
  rw [edges_add n hx, edges_halted hx'] at ht
  cases ht
  exact hf hx'

/-! ### The drain (R121, R122) -/

/-- `s` after `k` drain edges, more of them being left. -/
def State.drained (s : State) (k : Nat) : State :=
  { s with fsm := .draining k, dump := s.dump ++ s.dumpPrefix k }

/-- The first edges of the drain append one record each. -/
theorem edges_drained {s : State} (hf : s.fsm = .draining 0) {k : Nat} (hk : k < s.drainLength) :
    edges k s = .next (s.drained k) := by
  induction k with
  | zero => simp [edges, State.drained, State.dumpPrefix, ← hf]
  | succ k ih =>
    have hlt : k < s.drainLength := by omega
    have hedge : edge (s.drained k) = _ := edge_draining (s := s.drained k) rfl hlt
    have hrecord : (s.drained k).dumpRecord k = s.dumpRecord k := rfl
    have hmore : k + 1 ≠ (s.drained k).drainLength := Nat.ne_of_lt hk
    rw [edges_snoc (ih hlt), hedge, if_neg hmore, hrecord]
    simp [State.drained, dumpPrefix_succ]

/-- The whole drain appends all 32 + N records and ends in `Halted`. -/
theorem edges_drainLength {s : State} (hf : s.fsm = .draining 0) :
    edges s.drainLength s = .next { s with fsm := .halted, dump := s.dump ++ s.dumpPrefix s.drainLength } := by
  have hlast : s.drainLength = 31 + s.mem.size + 1 := by
    simp only [State.drainLength, memWords_eq_size]
    omega
  have hlt : 31 + s.mem.size < s.drainLength := by omega
  have hend : 31 + s.mem.size + 1 = (s.drained (31 + s.mem.size)).drainLength := hlast.symm
  have hedge : edge (s.drained (31 + s.mem.size)) = _ := edge_draining (s := s.drained _) rfl hlt
  have hrecord : (s.drained (31 + s.mem.size)).dumpRecord (31 + s.mem.size) = s.dumpRecord (31 + s.mem.size) := rfl
  rw [hlast, edges_snoc (edges_drained hf hlt), hedge, if_pos hend, hrecord]
  simp [State.drained, dumpPrefix_succ]

/-- The records of the drain: the registers in order, then the memory words in order (R122). -/
theorem dumpPrefix_drainLength (s : State) :
    s.dumpPrefix s.drainLength =
      (List.finRange 32).map (fun i => { space := .reg, index := i.val, value := s.regs[i.val] }) ++
        (List.range s.mem.size).map (fun a => { space := .mem, index := a, value := s.mem.read a }) := by
  have hregs : (List.range 32).map s.dumpRecord =
      (List.finRange 32).map (fun i => { space := .reg, index := i.val, value := s.regs[i.val] }) := by
    rw [← List.map_coe_finRange_eq_range, List.map_map]
    exact List.map_congr_left fun i _ => by simp [dumpRecord_eq_recordR122, recordR122]
  have hmem : ((List.range s.mem.size).map (32 + ·)).map s.dumpRecord =
      (List.range s.mem.size).map (fun a => { space := .mem, index := a, value := s.mem.read a }) := by
    rw [List.map_map]
    exact List.map_congr_left fun a _ => by simp [State.dumpRecord]
  rw [State.dumpPrefix, State.drainLength, memWords_eq_size, List.range_add, List.map_append, hregs, hmem]

/-- Settles O21: the drain record by record, and the list of its records. -/
theorem drainDumpsRegistersThenMemory : Obligations.DrainDumpsRegistersThenMemory := by
  refine ⟨fun s i hf hi => ?_, fun s hf => ⟨?_, fun k hk => ⟨s.drained k, edges_drained hf hk, rfl, ?_⟩⟩⟩
  · rw [edge_draining hf hi, dumpRecord_eq_recordR122]
  · have hdrain := edges_drainLength hf
    rwa [dumpPrefix_drainLength, ← List.append_assoc] at hdrain
  · simp [State.drained, State.dumpPrefix]

/-! ### The CORE never stops (R103, R239, R246) -/

/-- The operation latched at `ALU_EV` is that of the instruction in IR, so the ALU has a value or its fault (R161). -/
theorem perform_aluEv_ne_stop {n : Nat} {s : State} {i : Instr} {k : Nat} (hv : verdict n s.ir = .ok i)
    (hu : (microOps i)[k]? = some .aluEv) (haop : s.aop = aluopField s.ir) (f : Fault) : perform .aluEv s ≠ .stop f := by
  obtain ⟨hd, -⟩ := (verdict_eq_ok _ _ _).1 hv
  rcases aluInstr_or_no_alu_step i with ⟨op, a, b, d, rfl⟩ | hno
  · have hop : s.aop = op.code := haop.trans (aluopField_of_decodeFields hd)
    cases hq : aluF op s.aa s.ab with
    | none =>
      rw [perform_aluEv_none hop hq]
      exact Performed.noConfusion
    | some q =>
      rw [perform_aluEv_some hop hq]
      exact Performed.noConfusion
  · exact absurd rfl (hno _ (List.mem_of_getElem? hu)).1

/-- In a state of the invariant every micro-operation commits or raises the arithmetic fault. -/
theorem perform_ne_stop_of_inv {s : State} {c : InstrClass} {k : Nat} {u : MicroOp} (hs : s.Inv)
    (hf : s.fsm = .executing c k) (hu : s.currentMicro c k = some u) (f : Fault) : perform u s ≠ .stop f := by
  obtain ⟨hwdR, hwdM⟩ := isWd_eq_latch hs hf hu
  obtain ⟨-, i, hv, rfl, -, -, -, haop⟩ := (controlOk_executing hf).1 hs.2
  rw [currentMicro_of_verdict k hv] at hu
  obtain ⟨hrdM, hwaM⟩ := microOps_inRange ((verdict_eq_ok _ _ _).1 hv).2 hu
  cases u with
  | rdR t a => exact Performed.noConfusion
  | rdM t a =>
    have hl : s.mwl = none := by simpa [MicroOp.isWdM] using hwdM
    rw [perform_rdM hl (hrdM t a rfl)]
    exact Performed.noConfusion
  | waR a => exact Performed.noConfusion
  | wdR v =>
    obtain ⟨a, hl⟩ := Option.isSome_iff_exists.1 hwdR.symm
    rw [perform_wdR hl]
    exact Performed.noConfusion
  | waM a =>
    rw [perform_waM (hwaM a rfl)]
    exact Performed.noConfusion
  | wdM v =>
    obtain ⟨a, hl⟩ := Option.isSome_iff_exists.1 hwdM.symm
    rw [perform_wdM hl (mwl_lt_of_inv hs hl)]
    exact Performed.noConfusion
  | aluLd op => exact Performed.noConfusion
  | aluEv => exact perform_aluEv_ne_stop hv hu (haop hu) f

/-- Every state of the invariant has a next edge. -/
theorem edge_of_inv {s : State} (hs : s.Inv) : ∃ t, edge s = .next t := by
  cases hf : s.fsm with
  | idle => exact ⟨_, edge_idle hf⟩
  | decoding =>
    obtain ⟨hne, -⟩ := (controlOk_decoding hf).1 hs.2
    obtain ⟨w, rest, hq⟩ := List.exists_cons_of_ne_nil hne
    cases hv : verdict s.mem.size w with
    | ok i => exact ⟨_, edge_of_ok hf hq hv⟩
    | unrecognizedOpcode p => exact ⟨_, edge_of_unrecognized hf hq hv⟩
    | addressOutOfRange f a => exact ⟨_, edge_of_outOfRange hf hq hv⟩
  | executing c k =>
    obtain ⟨-, i, hv, rfl, hk, -⟩ := (controlOk_executing hf).1 hs.2
    rw [← length_microOps] at hk
    have hu := (currentMicro_of_verdict k hv).trans (List.getElem?_eq_getElem hk)
    cases hp : perform (microOps i)[k] s with
    | commit s' => exact ⟨_, edge_of_commit hf hu hp⟩
    | arithmeticFault d => exact ⟨_, edge_of_arithmeticFault hf hu hp⟩
    | stop f => exact absurd hp (perform_ne_stop_of_inv hs hf hu f)
  | draining i =>
    obtain ⟨-, hi, -⟩ := (controlOk_draining hf).1 hs.2
    exact ⟨_, edge_draining hf hi⟩
  | halted => exact ⟨_, edge_halted hf⟩

/-- A run of edges from a state of the invariant never stops, and stays in the invariant. -/
theorem edges_of_inv {s : State} (hs : s.Inv) (n : Nat) : ∃ t, edges n s = .next t ∧ t.Inv := by
  induction n with
  | zero => exact ⟨s, rfl, hs⟩
  | succ n ih =>
    obtain ⟨x, hx, hinv⟩ := ih
    obtain ⟨t, ht⟩ := edge_of_inv hinv
    exact ⟨t, (edges_snoc hx).trans ht, edgeKeepsInvariant x t hinv ht⟩

end Sys2Proof.Machine
end

section
/-! A step as its edges: a table run by `exec` is the `Executing` edges of its micro-operations, and what these count. -/

namespace Sys2Proof.Machine

/-! ### A micro-operation does not read the FSM state

`runSteps` leaves the FSM state alone until it retires, while the edges count the steps in it. -/

/-- `s` at step `k` of class `c`. -/
def State.inStep (s : State) (c : InstrClass) (k : Nat) : State := { s with fsm := .executing c k }

/-- What is performed, at step `k` of class `c`. -/
def Performed.inStep (c : InstrClass) (k : Nat) : Performed → Performed
  | .commit s => .commit (s.inStep c k)
  | .arithmeticFault d => .arithmeticFault d
  | .stop f => .stop f

@[simp] theorem inStep_mem (s : State) (c : InstrClass) (k : Nat) : (s.inStep c k).mem = s.mem := rfl

@[simp] theorem inStep_ir (s : State) (c : InstrClass) (k : Nat) : (s.inStep c k).ir = s.ir := rfl

@[simp] theorem inStep_rwl (s : State) (c : InstrClass) (k : Nat) : (s.inStep c k).rwl = s.rwl := rfl

@[simp] theorem inStep_mwl (s : State) (c : InstrClass) (k : Nat) : (s.inStep c k).mwl = s.mwl := rfl

@[simp] theorem inStep_aop (s : State) (c : InstrClass) (k : Nat) : (s.inStep c k).aop = s.aop := rfl

@[simp] theorem inStep_aa (s : State) (c : InstrClass) (k : Nat) : (s.inStep c k).aa = s.aa := rfl

@[simp] theorem inStep_ab (s : State) (c : InstrClass) (k : Nat) : (s.inStep c k).ab = s.ab := rfl

theorem writeTemp_inStep (s : State) (c : InstrClass) (k : Nat) (t : Temp) (v : Word) :
    (s.inStep c k).writeTemp t v = (s.writeTemp t v).inStep c k := by
  cases t <;> rfl

@[simp] theorem sourceValue_inStep (s : State) (c : InstrClass) (k : Nat) (v : Source) :
    (s.inStep c k).sourceValue v = s.sourceValue v := by
  cases v with
  | literal d => rfl
  | temp t => cases t <;> rfl
  | aluLow => rfl

theorem perform_inStep (u : MicroOp) (s : State) (c : InstrClass) (k : Nat) :
    perform u (s.inStep c k) = (perform u s).inStep c k := by
  cases u with
  | rdR t a => exact congrArg Performed.commit (writeTemp_inStep s c k t _)
  | rdM t a =>
    simp only [perform, performRdM, memWords_eq_size, inStep_mem, inStep_mwl, writeTemp_inStep,
      apply_ite (Performed.inStep c k)]
    rfl
  | waR a => rfl
  | wdR v =>
    simp only [perform, performWdR, inStep_rwl, sourceValue_inStep]
    cases s.rwl <;> rfl
  | waM a =>
    simp only [perform, performWaM, memWords_eq_size, inStep_mem, apply_ite (Performed.inStep c k)]
    rfl
  | wdM v =>
    simp only [perform, performWdM, memWords_eq_size, inStep_mem, inStep_mwl, sourceValue_inStep]
    cases s.mwl with
    | none => rfl
    | some a =>
      simp only [apply_ite (Performed.inStep c k)]
      rfl
  | aluLd op => rfl
  | aluEv =>
    simp only [perform, performAluEv, inStep_aop, inStep_aa, inStep_ab]
    cases AluOp.ofCode s.aop with
    | none => rfl
    | some op =>
      cases hq : aluF op s.aa s.ab <;> simp only [hq] <;> rfl

/-! ### A table as its edges (R107, R127) -/

/-- The edges a table takes from `s`: one for each micro-operation, up to the arithmetic fault. -/
def tableEdges : List MicroOp → State → Nat
  | [], _ => 0
  | u :: rest, s =>
    match perform u s with
    | .commit s' => tableEdges rest s' + 1
    | .arithmeticFault _ => 1
    | .stop _ => rest.length + 1

theorem tableEdges_commit {u : MicroOp} {rest : List MicroOp} {s s' : State} (h : perform u s = .commit s') :
    tableEdges (u :: rest) s = tableEdges rest s' + 1 := by
  simp only [tableEdges, h]

theorem tableEdges_fault {u : MicroOp} {rest : List MicroOp} {s : State} {d : Detail}
    (h : perform u s = .arithmeticFault d) : tableEdges (u :: rest) s = 1 := by
  simp only [tableEdges, h]

theorem tableEdges_stop {u : MicroOp} {rest : List MicroOp} {s : State} {f : Fault} (h : perform u s = .stop f) :
    tableEdges (u :: rest) s = rest.length + 1 := by
  simp only [tableEdges, h]

/-- Only `ALU_EV` can end a table early (R233). -/
theorem tableEdges_eq_length {table : List MicroOp} (h : .aluEv ∉ table) (s : State) :
    tableEdges table s = table.length := by
  induction table generalizing s with
  | nil => rfl
  | cons u rest ih =>
    obtain ⟨hu, hrest⟩ := List.ne_and_not_mem_of_not_mem_cons h
    cases hp : perform u s with
    | commit s' => rw [tableEdges_commit hp, ih hrest, List.length_cons]
    | arithmeticFault d => exact absurd (perform_fault_cases hp).1.symm hu
    | stop f => rw [tableEdges_stop hp, List.length_cons]

section Table

variable {i : Instr} {k : Nat} {u : MicroOp} {rest : List MicroOp} {s : State}

/-- The step whose micro-operation heads what is left of the table (R107). -/
theorem currentMicro_inStep (hv : verdict s.mem.size s.ir = .ok i) (htab : (microOps i).drop k = u :: rest) :
    (s.inStep i.cls k).currentMicro i.cls k = some u := by
  rw [currentMicro_of_verdict (s := s.inStep i.cls k) k hv, ← List.head?_drop, htab]
  rfl

theorem drop_succ_of_drop {α : Type} {xs ys : List α} {x : α} {k : Nat} (h : xs.drop k = x :: ys) :
    xs.drop (k + 1) = ys := by
  rw [← List.tail_drop, h, List.tail_cons]

/-- Nothing is left of the table exactly after the last step of the class. -/
theorem last_step_iff (htab : (microOps i).drop k = u :: rest) : k + 1 = classSteps i.cls ↔ rest = [] := by
  have hlen := congrArg List.length htab
  rw [List.length_drop, length_microOps, List.length_cons] at hlen
  rw [← List.length_eq_zero_iff]
  omega

theorem edge_inStep_commit {s' : State} (hv : verdict s.mem.size s.ir = .ok i)
    (htab : (microOps i).drop k = u :: rest) (hp : perform u s = .commit s') :
    edge (s.inStep i.cls k) = .next (if rest = [] then s'.retire else s'.inStep i.cls (k + 1)) := by
  have hp' : perform u (s.inStep i.cls k) = .commit (s'.inStep i.cls k) := by rw [perform_inStep, hp]; rfl
  rw [edge_of_commit rfl (currentMicro_inStep hv htab) hp']
  simp only [last_step_iff htab]
  rfl

theorem edge_inStep_fault {d : Detail} (hv : verdict s.mem.size s.ir = .ok i)
    (htab : (microOps i).drop k = u :: rest) (hp : perform u s = .arithmeticFault d) :
    edge (s.inStep i.cls k) = .next (s.takeArithmeticFault d) := by
  have hp' : perform u (s.inStep i.cls k) = .arithmeticFault d := by rw [perform_inStep, hp]; rfl
  rw [edge_of_arithmeticFault rfl (currentMicro_inStep hv htab) hp']
  rfl

theorem edge_inStep_stop {f : Fault} (hv : verdict s.mem.size s.ir = .ok i)
    (htab : (microOps i).drop k = u :: rest) (hp : perform u s = .stop f) : edge (s.inStep i.cls k) = .fault f := by
  have hp' : perform u (s.inStep i.cls k) = .stop f := by rw [perform_inStep, hp]; rfl
  exact edge_of_stop rfl (currentMicro_inStep hv htab) hp'

/-- A commit leaves the instruction in IR as it was. -/
theorem verdict_of_commit {s' : State} (hv : verdict s.mem.size s.ir = .ok i) (hp : perform u s = .commit s') :
    verdict s'.mem.size s'.ir = .ok i := by
  obtain ⟨-, -, -, hir, -, -, hsize⟩ := perform_commit_frame hp
  rwa [hsize, hir]

end Table

/-- Running what is left of a table is its edges, from the step it starts at. -/
theorem runSteps_eq_edges {i : Instr} {k : Nat} {table : List MicroOp} {s : State}
    (hv : verdict s.mem.size s.ir = .ok i) (htab : (microOps i).drop k = table) (hne : table ≠ []) :
    runSteps table s = edges (tableEdges table s) (s.inStep i.cls k) := by
  induction table generalizing s k with
  | nil => exact absurd rfl hne
  | cons u rest ih =>
    cases hp : perform u s with
    | commit s' =>
      rw [runSteps_commit hp, tableEdges_commit hp, edges_cons (edge_inStep_commit hv htab hp)]
      by_cases hrest : rest = []
      · rw [if_pos hrest, hrest]
        rfl
      · rw [if_neg hrest]
        exact ih (verdict_of_commit hv hp) (drop_succ_of_drop htab) hrest
    | arithmeticFault d =>
      rw [runSteps_fault hp, tableEdges_fault hp, edges_one, edge_inStep_fault hv htab hp]
    | stop f =>
      rw [tableEdges_stop hp, edges_of_fault (edge_inStep_stop hv htab hp), runSteps, hp]

/-- Before its last edge a table that answers is at each of its steps in turn, the head still queued (R107). -/
theorem edges_within_table {i : Instr} {j k : Nat} {table : List MicroOp} {s t : State}
    (hv : verdict s.mem.size s.ir = .ok i) (htab : (microOps i).drop k = table) (hrun : runSteps table s = .next t)
    (hj : j < tableEdges table s) :
    ∃ x, edges j (s.inStep i.cls k) = .next x ∧ x.fsm = .executing i.cls (k + j) ∧ x.queue = s.queue ∧
      x.qidx = s.qidx := by
  induction j generalizing s k table with
  | zero => exact ⟨_, rfl, rfl, rfl, rfl⟩
  | succ j ih =>
    cases table with
    | nil => exact absurd hj (Nat.not_lt_zero _)
    | cons u rest =>
      cases hp : perform u s with
      | commit s' =>
        rw [runSteps_commit hp] at hrun
        rw [tableEdges_commit hp] at hj
        have hrest : rest ≠ [] := by
          rintro rfl
          exact absurd hj (by simp [tableEdges])
        obtain ⟨hqueue, hqidx, -⟩ := perform_commit_frame hp
        obtain ⟨x, hx, hfsm, hq, hi⟩ := ih (verdict_of_commit hv hp) (drop_succ_of_drop htab) hrun (by omega)
        have hedge := edge_inStep_commit hv htab hp
        rw [if_neg hrest] at hedge
        exact ⟨x, (edges_cons hedge j).trans hx, by rw [hfsm, Nat.add_right_comm]; rfl, hq.trans hqueue,
          hi.trans hqidx⟩
      | arithmeticFault d =>
        rw [tableEdges_fault hp] at hj
        omega
      | stop f =>
        rw [runSteps, hp] at hrun
        cases hrun

end Sys2Proof.Machine
end

section
/-! The edges of an instruction and of a run: a step is its edges, and how many these are. -/

namespace Sys2Proof.Machine

open Sys2Proof.Claims

/-! ### The edges of an instruction (R127, R269) -/

/-- From `ALU_EV` on, the ALU's table has one edge with the fault and three without (R160, R180). -/
theorem tableEdges_from_aluEv {op : AluOp} {s : State} (hop : s.aop = op.code) (d : RegAddr) :
    tableEdges [.aluEv, .waR d, .wdR .aluLow] s = if (op = .div ∨ op = .mod) ∧ s.ab = 0 then 1 else 3 := by
  cases hq : aluF op s.aa s.ab with
  | none => rw [tableEdges_fault (perform_aluEv_none hop hq), if_pos ((aluF_eq_none _ _ _).1 hq)]
  | some q =>
    have hno : ¬((op = .div ∨ op = .mod) ∧ s.ab = 0) := by
      rw [← aluF_eq_none op s.aa, hq]
      exact Option.some_ne_none q
    rw [tableEdges_commit (perform_aluEv_some hop hq), tableEdges_eq_length (by simp), if_neg hno]
    rfl

/-- The ALU's table is cut short exactly by a divide or modulo by a register that holds 0 (R160, R180). -/
theorem tableEdges_stepsAlu (op : AluOp) (a b d : RegAddr) (s : State) :
    tableEdges (stepsAlu op a b d) s = if (op = .div ∨ op = .mod) ∧ s.readReg b = 0 then 4 else 6 := by
  rw [stepsAlu, tableEdges_commit (perform_rdR _ _ _), tableEdges_commit (perform_rdR _ _ _),
    tableEdges_commit (perform_aluLd _ _), tableEdges_from_aluEv (op := op) rfl]
  show (if (op = .div ∨ op = .mod) ∧ s.readReg b = 0 then 1 else 3) + 1 + 1 + 1 = _
  split <;> rfl

theorem instrEdges_aluInstr (op : AluOp) (a b d : RegAddr) (s : State) :
    instrEdges (op.instr a b d) s = if (op = .div ∨ op = .mod) ∧ s.readReg b = 0 then 5 else 7 := by
  cases op <;> simp [AluOp.instr, instrEdges]

/-- Outside the ALU class an instruction occupies its `Decoding` edge and its class's steps. -/
theorem instrEdges_of_not_alu {i : Instr} (h : i.cls ≠ .aluOperation) (s : State) :
    instrEdges i s = 1 + classSteps i.cls := by
  cases i using Instr.formatCases with
  | alu op a b d => exact absurd (cls_aluInstr op a b d) h
  | _ => rfl

/-- Outside the ALU class no table has an `ALU_EV`. -/
theorem aluEv_not_mem_microOps {i : Instr} (h : i.cls ≠ .aluOperation) : .aluEv ∉ microOps i := by
  rcases aluInstr_or_no_alu_step i with ⟨op, a, b, d, rfl⟩ | hno
  · exact absurd (cls_aluInstr op a b d) h
  · exact fun hev => absurd rfl (hno _ hev).1

/-- An instruction occupies its `Decoding` edge and the edges of its table. -/
theorem instrEdges_eq_tableEdges (i : Instr) (s : State) (w : IWord) :
    instrEdges i s = tableEdges (microOps i) (s.loadIr w i.cls) + 1 := by
  by_cases hc : i.cls = .aluOperation
  · rcases aluInstr_or_no_alu_step i with ⟨op, a, b, d, rfl⟩ | hno
    · have hread : (s.loadIr w (op.instr a b d).cls).readReg b = s.readReg b := rfl
      rw [instrEdges_aluInstr, microOps_aluInstr, tableEdges_stepsAlu, hread]
      split <;> rfl
    · cases i using Instr.formatCases with
      | alu op a b d => exact absurd rfl (hno .aluEv (by simp [stepsAlu])).1
      | _ => cases hc
  · rw [instrEdges_of_not_alu hc, tableEdges_eq_length (aluEv_not_mem_microOps hc), length_microOps, Nat.add_comm]

/-- The edges of an instruction are 1 and its class's steps, or 5 with a zero divisor (R127). -/
theorem instrEdges_cases (i : Instr) (s : State) :
    instrEdges i s = 1 + classSteps i.cls ∨
      (instrEdges i s = 5 ∧ ∃ x y z, (i = .div x y z ∨ i = .mod x y z) ∧ s.readReg y = 0) := by
  cases i using Instr.formatCases with
  | alu op a b d =>
    rw [instrEdges_aluInstr, cls_aluInstr]
    by_cases hzero : (op = .div ∨ op = .mod) ∧ s.readReg b = 0
    · rw [if_pos hzero]
      obtain ⟨hop, hb⟩ := hzero
      refine .inr ⟨rfl, a, b, d, ?_, hb⟩
      rcases hop with rfl | rfl
      · exact .inl rfl
      · exact .inr rfl
    · rw [if_neg hzero]
      exact .inl rfl
  | _ => exact .inl rfl

theorem wordEdges_of_ok {s : State} {w : IWord} {i : Instr} (hv : verdict s.mem.size w = .ok i) :
    wordEdges w s = instrEdges i s := by
  simp only [wordEdges, memWords_eq_size, hv]

/-! ### A step is its edges -/

/-- In `Decoding` the head's step is the edges of its word. -/
theorem runHead_eq_edges {s : State} {w : IWord} {rest : List IWord} (hf : s.fsm = .decoding)
    (hq : s.queue = w :: rest) : runHead s = edges (wordEdges w s) s := by
  cases hv : verdict s.mem.size w with
  | ok i =>
    have hne : microOps i ≠ [] := List.ne_nil_of_length_pos (by rw [length_microOps]; exact classSteps_pos _)
    rw [runHead_of_ok hq hv, wordEdges_of_ok hv, instrEdges_eq_tableEdges i s w, edges_cons (edge_of_ok hf hq hv),
      runSteps_eq_edges (k := 0) (s := s.loadIr w i.cls) hv List.drop_zero hne]
    rfl
  | unrecognizedOpcode p =>
    have hone : wordEdges w s = 1 := by simp only [wordEdges, memWords_eq_size, hv]
    rw [runHead_of_unrecognized hq hv, hone, edges_one, edge_of_unrecognized hf hq hv]
  | addressOutOfRange f a =>
    have hone : wordEdges w s = 1 := by simp only [wordEdges, memWords_eq_size, hv]
    rw [runHead_of_outOfRange hq hv, hone, edges_one, edge_of_outOfRange hf hq hv]

/-- Settles O24: outside `Decoding` a step is an edge; in `Decoding` it is the edges of the head word. -/
theorem stepIsItsEdges : Obligations.StepIsItsEdges := by
  intro s
  cases hf : s.fsm with
  | decoding =>
    rw [step_eq_runHead hf]
    cases hq : s.queue with
    | nil => simp [runHead, State.fetchHead, stepEdges, edges_one, edge, stepDecode, hf, hq]
    | cons w rest =>
      rw [runHead_eq_edges hf hq]
      simp only [stepEdges, hf, hq]
  | _ =>
    rw [step_eq_edge (by simp [hf])]
    simp only [stepEdges, hf, edges_one]

theorem step_of_inv {s : State} (hs : s.Inv) : ∃ t, step s = .next t := by
  obtain ⟨t, ht, -⟩ := edges_of_inv hs (stepEdges s)
  exact ⟨t, (stepIsItsEdges s).trans ht⟩

/-- Settles O29: no edge stops, and a step is a run of edges. -/
theorem invariantNeverStops : Obligations.InvariantNeverStops := fun _ hs => ⟨edge_of_inv hs, step_of_inv hs⟩

/-- What the head's step does to the queue, the count and N (R108). -/
theorem runHead_next_queue {s t : State} (h : runHead s = .next t) :
    t.queue = s.queue.tail ∧ t.qidx = s.qidx + 1 ∧ t.mem.size = s.mem.size := by
  obtain ⟨w, rest, -, ⟨kind, d, rfl⟩ | ⟨i, -, hrun⟩⟩ := runHead_next_cases h
  · exact ⟨rfl, rfl, rfl⟩
  · obtain ⟨x, hq, hi, -, -, -, hn, -, rfl | ⟨d, rfl⟩⟩ := runSteps_next_cases hrun
    · exact ⟨congrArg List.tail hq, congrArg (· + 1) hi, hn⟩
    · exact ⟨congrArg List.tail hq, congrArg (· + 1) hi, hn⟩

/-- Settles O25: the first edge loads IR, the table's edges follow step by step, and the step they make up retires. -/
theorem instructionOccupiesItsEdges : Obligations.InstructionOccupiesItsEdges := by
  intro s w rest i hs hf hq hv
  obtain ⟨t, ht⟩ := step_of_inv hs
  rw [step_eq_runHead hf] at ht
  rw [wordEdges_of_ok hv]
  refine ⟨instrEdges_cases i s, fun k hk => ?_, t, ?_, ?_⟩
  · rw [instrEdges_eq_tableEdges i s w] at hk
    rw [runHead_of_ok hq hv] at ht
    obtain ⟨x, hx, hfsm, hqueue, hqidx⟩ :=
      edges_within_table (k := 0) (s := s.loadIr w i.cls) hv List.drop_zero ht (Nat.lt_of_succ_lt_succ hk)
    rw [Nat.zero_add] at hfsm
    exact ⟨x, (edges_cons (edge_of_ok hf hq hv) k).trans hx, hfsm, hqueue, hqidx⟩
  · rw [← wordEdges_of_ok hv, ← runHead_eq_edges hf hq, ht]
  · obtain ⟨hqueue, hqidx, -⟩ := runHead_next_queue ht
    obtain ⟨hfsm, -⟩ := runHead_next_retires ht
    rw [hq, List.tail_cons] at hqueue
    rw [hqueue, fsmAfterRetire_eq_nextFsm] at hfsm
    exact ⟨hqueue, hqidx, hfsm⟩

/-! ### The edges of a run (R127) -/

theorem aluCode_eq_div_or_mod (op : AluOp) : (op.code.toNat = 3 ∨ op.code.toNat = 4) ↔ op = .div ∨ op = .mod := by
  cases op <;> decide

/-- On a word that decodes to `i`, R127's count is the edges of `i`. -/
theorem wordCost_ok_eq_instrEdges {s : State} {w : IWord} {i : Instr} (hd : decodeFields w = some i) :
    (if i.cls = .aluOperation ∧ ((aluopField w).toNat = 3 ∨ (aluopField w).toNat = 4) ∧ s.readReg (regField23 w) = 0
      then 5 else 1 + classSteps i.cls) = instrEdges i s := by
  by_cases hc : i.cls = .aluOperation
  · rcases decodeFields_cases hd with ⟨-, rfl⟩ | ⟨-, rfl⟩ | ⟨op, -, hsub, rfl⟩ | ⟨-, rfl⟩ | ⟨-, rfl⟩ | ⟨-, rfl⟩ |
      ⟨-, rfl⟩ | ⟨-, rfl⟩
    case inr.inr.inl =>
      simp only [instrEdges_aluInstr, hsub, aluCode_eq_div_or_mod, cls_aluInstr, true_and]
      rfl
    all_goals cases hc
  · rw [if_neg fun h => hc h.1, instrEdges_of_not_alu hc]

/-- R127's count of a word is the model's. -/
theorem wordCost_eq_wordEdges (s : State) (w : IWord) : wordCost s w = wordEdges w s := by
  rw [wordCost, ← decoderIsRuleEightySeven]
  cases hv : verdict s.mem.size w with
  | ok i =>
    rw [wordEdges_of_ok hv]
    exact wordCost_ok_eq_instrEdges ((verdict_eq_ok _ _ _).1 hv).1
  | unrecognizedOpcode p => simp only [wordEdges, memWords_eq_size, hv]
  | addressOutOfRange f a => simp only [wordEdges, memWords_eq_size, hv]

/-- The edges of all queued words lead to the drain. -/
theorem edges_queueEdges {s : State} (hs : s.Inv) (hf : s.fsm = fsmAfterRetire s.queue) :
    ∃ t, edges (queueEdges s.queue.length s) s = .next t ∧ t.fsm = .draining 0 ∧ t.mem.size = s.mem.size := by
  generalize hq : s.queue = queue
  induction queue generalizing s with
  | nil => exact ⟨s, rfl, by rw [hf, hq, fsmAfterRetire_nil], rfl⟩
  | cons w rest ih =>
    have hdec : s.fsm = .decoding := by rw [hf, hq, fsmAfterRetire_cons]
    obtain ⟨x, hx⟩ := step_of_inv hs
    have hword : edges (wordCost s w) s = .next x := by
      rw [wordCost_eq_wordEdges, ← runHead_eq_edges hdec hq, ← step_eq_runHead hdec, hx]
    have hrun := (step_eq_runHead hdec).symm.trans hx
    obtain ⟨hqueue, -, hsize⟩ := runHead_next_queue hrun
    rw [hq, List.tail_cons] at hqueue
    obtain ⟨t, ht, hdrain, hsize'⟩ := ih (stepKeepsInvariant s x hs hx) (runHead_next_retires hrun).1 hqueue
    refine ⟨t, ?_, hdrain, hsize'.trans hsize⟩
    rw [List.length_cons, queueEdges, hq, hx]
    exact (edges_add _ hword).trans ht

/-- Settles O33: the `Idle` edge, the edges of the words, the drain; one edge before the end the FSM is still draining, and
`Halted` is never left. -/
theorem runLengthInEdges : Obligations.RunLengthInEdges := by
  intro s hs hf total
  have hidle : edge s = .next (afterIdle s) := by rw [edge_idle hf, fsmAfterRetire_eq_nextFsm]; rfl
  obtain ⟨t, ht, hdrain, hsize⟩ := edges_queueEdges (edgeKeepsInvariant s _ hs hidle)
    (fsmAfterRetire_eq_nextFsm s.queue).symm
  have hlen : 32 + s.mem.size = t.drainLength := by rw [State.drainLength, memWords_eq_size, hsize]; rfl
  have hstart : edges (1 + queueEdges s.queue.length (afterIdle s)) s = .next t := by
    rw [Nat.add_comm, edges_cons hidle]
    exact ht
  refine ⟨⟨{ t with fsm := .halted, dump := t.dump ++ t.dumpPrefix t.drainLength }, ?_, rfl⟩, fun k hk => ?_⟩
  · show edges (_ + (32 + s.mem.size)) s = _
    rw [edges_add _ hstart, hlen, edges_drainLength hdrain]
  · obtain ⟨x, hx, -⟩ := edges_of_inv hs k
    have hbefore : edges (total - 1) s = .next (t.drained (t.drainLength - 1)) := by
      have hcut : total - 1 = 1 + queueEdges s.queue.length (afterIdle s) + (t.drainLength - 1) := by omega
      rw [hcut, edges_add _ hstart, edges_drained hdrain (by omega)]
    rw [show total - 1 = k + (total - 1 - k) by omega] at hbefore
    exact ⟨x, hx, not_halted_of_edges_add hx hbefore Fsm.noConfusion⟩

end Sys2Proof.Machine
end

section
/-! The literal writes' words: each of their class decodes to them, whatever its filler (R74, R75, R81). -/

namespace Sys2Proof

theorem decodeFields_writeMemory {w : IWord} (h : opcodeField w = InstrClass.writeMemory.code) :
    decodeFields w = some (.wmem (memField28 w) (dataField w)) := by
  simp only [decodeFields, h, ofCode_classCode]

theorem decodeFields_writeRegister {w : IWord} (h : opcodeField w = InstrClass.writeRegister.code) :
    decodeFields w = some (.wreg (regField28 w) (dataField w)) := by
  simp only [decodeFields, h, ofCode_classCode]

theorem decodeFields_clearRegister {w : IWord} (h : opcodeField w = InstrClass.clearRegister.code) :
    decodeFields w = some (.clr (regField28 w)) := by
  simp only [decodeFields, h, ofCode_classCode]

/-- The range check on `wmem` is on its one address (R86). -/
theorem wellFormed_wmem {n : Nat} {a : MemAddr} {d : Word} : (Instr.wmem a d).wellFormed n = true ↔ a.toNat < n :=
  decide_eq_true_iff

end Sys2Proof
end

section
/-! The literal writes (41): their two-phase write as one step, the common effect of R143, and their net effects. -/

namespace Sys2Proof.Machine

open Sys2Proof.Claims

/-! ### A two-phase write within a table (R112) -/

/-- The address phase of a register write does not change the value its data phase drives. -/
theorem sourceValue_rwl (s : State) (v : Source) (l : Option RegAddr) :
    State.sourceValue { s with rwl := l } v = s.sourceValue v := by
  cases v with
  | literal d => rfl
  | temp t => cases t <;> rfl
  | aluLow => rfl

/-- The address phase of a memory write does not change the value its data phase drives. -/
theorem sourceValue_mwl (s : State) (v : Source) (l : Option MemAddr) :
    State.sourceValue { s with mwl := l } v = s.sourceValue v := by
  cases v with
  | literal d => rfl
  | temp t => cases t <;> rfl
  | aluLow => rfl

/-- Both phases of a register write: the register is written and the latch is empty again. -/
theorem runSteps_waR_wdR (a : RegAddr) (v : Source) (table : List MicroOp) (s : State) :
    runSteps (.waR a :: .wdR v :: table) s =
      runSteps table { s with regs := s.regs.set a.toNat (s.sourceValue v), rwl := none } := by
  rw [runSteps_commit (perform_waR a s), runSteps_commit (perform_wdR rfl), sourceValue_rwl]

/-- Both phases of a memory write in range: the word is written and the latch is empty again. -/
theorem runSteps_waM_wdM {a : MemAddr} {s : State} (ha : a.toNat < s.mem.size) (v : Source) (table : List MicroOp) :
    runSteps (.waM a :: .wdM v :: table) s =
      runSteps table { s with mem := s.mem.write a.toNat (s.sourceValue v), mwl := none } := by
  rw [runSteps_commit (perform_waM ha), runSteps_commit (perform_wdM (s := { s with mwl := some a }) rfl ha),
    sourceValue_mwl]

/-! ### The common effect and the decode error (R143, R236) -/

/-- Loading IR and retiring, with nothing between, is the common effect. -/
theorem retire_loadIr {s : State} {w : IWord} {rest : List IWord} (hq : s.queue = w :: rest) (c : InstrClass) :
    (s.loadIr w c).retire = common s w rest := by
  simp only [State.retire, State.loadIr, common, retired, hq, List.tail_cons, fsmAfterRetire_eq_nextFsm]

/-- The meaning of an instruction whose addresses are in range is its table, IR loaded with the head. -/
theorem exec_inRange {i : Instr} {s : State} {w : IWord} {rest : List IWord} (hq : s.queue = w :: rest)
    (hr : i.wellFormed s.mem.size = true) : exec i s = runSteps (microOps i) (s.loadIr w i.cls) := by
  rw [exec_eq_runInstr, runInstr_inRange hq hr]

/-- The meaning of an instruction with an address out of range is its report and its retirement. -/
theorem exec_outOfRange {i : Instr} {s : State} {w : IWord} {rest : List IWord} {f : Field} {a : MemAddr}
    (hq : s.queue = w :: rest) (hr : firstOutOfRange s.mem.size i.addrFields = some (f, a)) :
    exec i s = .next (reported s rest .addressOutOfRange w (.field f a.toNat)) := by
  rw [exec_eq_runInstr, runInstr_outOfRange hq hr, State.takeAddressOutOfRange, takeError_eq_reported, hq,
    List.tail_cons]

/-! ### Net effects -/

/-- An instruction whose table is one register write of a literal changes it and what is common (R141, R142). -/
theorem exec_literalToRegister {i : Instr} {s : State} {w : IWord} {rest : List IWord} {rd : RegAddr} {d : Word}
    (htable : microOps i = [.waR rd, .wdR (.literal d)]) (hq : s.queue = w :: rest)
    (hr : i.wellFormed s.mem.size = true) :
    exec i s = .next { common s w rest with regs := s.regs.set rd.toNat d, rwl := none } := by
  rw [exec_inRange hq hr, htable, runSteps_waR_wdR, runSteps_nil, ← retire_loadIr hq i.cls]
  rfl

/-- `wmem` in range changes its word and what is common (R140). -/
theorem exec_wmem_inRange {s : State} {w : IWord} {rest : List IWord} {a : MemAddr} (d : Word)
    (hq : s.queue = w :: rest) (ha : a.toNat < s.mem.size) :
    exec (.wmem a d) s = .next { common s w rest with mem := s.mem.write a.toNat d, mwl := none } := by
  have hload : a.toNat < (s.loadIr w .writeMemory).mem.size := ha
  rw [exec_inRange hq (wellFormed_wmem.2 ha), Instr.cls, microOps, stepsWmem, runSteps_waM_wdM hload, runSteps_nil,
    ← retire_loadIr hq .writeMemory]
  rfl

/-- Settles O34: the address decides between the write and the report. -/
theorem writeMemoryResult : Obligations.WriteMemoryResult := by
  refine ⟨fun n w hop ha => ?_, fun _ _ => rfl, fun s w rest a d hq =>
    ⟨exec_wmem_inRange d hq, fun ha => ?_, fun hm => ?_⟩⟩
  · exact (verdict_eq_ok n w _).2 ⟨decodeFields_writeMemory hop, wellFormed_wmem.2 ha⟩
  · exact exec_outOfRange hq (by simp [Instr.addrFields, firstOutOfRange, ha])
  · have hread := read_write hm a.toNat d
    exact ⟨(hread _).trans (if_pos rfl), fun x hx => (hread x).trans (if_neg hx)⟩

/-- Settles O35: no register is special to the write, so `rd` is any of them (R21). -/
theorem writeRegisterResult : Obligations.WriteRegisterResult :=
  ⟨fun n w hop => (verdict_eq_ok n w _).2 ⟨decodeFields_writeRegister hop, rfl⟩, fun _ _ => rfl,
    fun _ _ _ _ _ hq => exec_literalToRegister rfl hq rfl⟩

/-- Settles O36: `clr` is the register write of the literal 0. -/
theorem clearRegisterResult : Obligations.ClearRegisterResult :=
  ⟨fun n w hop => (verdict_eq_ok n w _).2 ⟨decodeFields_clearRegister hop, rfl⟩, fun _ => rfl,
    fun _ _ _ _ hq => exec_literalToRegister rfl hq rfl⟩

end Sys2Proof.Machine
end

section
/-! The ALU's words (R76, R84) and its function as a natural number: what each of the thirteen operations gives, with the
one integer that can be negative, the difference, moved up by 2^32. -/

namespace Sys2Proof

/-- A word of the ALU's class with a defined sub-opcode decodes to its operation, whatever its filler (R76, R84). -/
theorem decodeFields_aluOperation {w : IWord} {op : AluOp} (h : opcodeField w = InstrClass.aluOperation.code)
    (hop : aluopField w = op.code) :
    decodeFields w = some (op.instr (regField28 w) (regField23 w) (regField18 w)) := by
  simp only [decodeFields, h, hop, ofCode_classCode, ofCode_aluCode, Option.map_some]

end Sys2Proof

namespace Sys2Proof.Machine

/-- A natural number congruent to `F_p(a, b)` modulo 2^32 (R162 to R174). -/
def aluNat (op : AluOp) (a b : Nat) : Nat :=
  match op with
  | .add => a + b
  | .sub => 2 ^ 32 + a - b
  | .mul => a * b
  | .div => a / b
  | .mod => a % b
  | .pow => a ^ b
  | .and => a &&& b
  | .or => a ||| b
  | .nand => 65535 - (a &&& b)
  | .nor => 65535 - (a ||| b)
  | .xor => a ^^^ b
  | .xnor => 65535 - (a ^^^ b)
  | .not => 65535 - a

/-- A difference wraps at 2^32: there is no borrow (R163). -/
theorem ofInt_exactSub (a : Nat) {b : Nat} (hb : b < 2 ^ 32) :
    BitVec.ofInt 32 (exactSub a b) = BitVec.ofNat 32 (2 ^ 32 + a - b) := by
  apply BitVec.eq_of_toNat_eq
  rw [BitVec.toNat_ofInt, BitVec.toNat_ofNat, exactSub]
  omega

/-- The exact result and `aluNat` agree modulo 2^32 (R161). -/
theorem ofInt_exactAlu (op : AluOp) (a : Nat) {b : Nat} (hb : b < 2 ^ 32) :
    BitVec.ofInt 32 (exactAlu op a b) = BitVec.ofNat 32 (aluNat op a b) := by
  cases op with
  | sub => exact ofInt_exactSub a hb
  | _ => exact BitVec.ofInt_natCast 32 _

/-- Off a zero divisor the ALU's value is `aluNat` modulo 2^32 (R161, R180). -/
theorem aluF_eq_aluNat {op : AluOp} {b : Word} (h : ¬((op = .div ∨ op = .mod) ∧ b = 0)) (a : Word) :
    aluF op a b = some (BitVec.ofNat 32 (aluNat op a.toNat b.toNat)) := by
  rw [← aluF_eq_none op a] at h
  obtain ⟨q, hq⟩ := Option.ne_none_iff_exists'.1 h
  rw [hq, aluF_eq_some hq, ofInt_exactAlu op a.toNat (by omega)]

/-- The low word of a result reduced modulo 2^32 is the result modulo 2^16 (R175). -/
theorem truncW_ofNat (q : Nat) : truncW (BitVec.ofNat 32 q) = BitVec.ofNat 16 q := by
  apply BitVec.eq_of_toNat_eq
  simp only [truncW, BitVec.toNat_ofNat]
  omega

end Sys2Proof.Machine
end

section
/-! The ALU class (42): its table as one step with the value and with the fault, and the net effects of the thirteen
operations. -/

namespace Sys2Proof.Machine

open Sys2Proof.Claims

/-! ### The result register and the input latch (R176) -/

/-- Of the micro-operations only `ALU_EV` writes the result register and only `ALU_LD` the input latch. -/
theorem perform_commit_alu {u : MicroOp} {s s' : State} (h : perform u s = .commit s') :
    (u = .aluEv ∨ s'.aluQ = s.aluQ) ∧
      ((∃ op, u = .aluLd op) ∨ s'.aop = s.aop ∧ s'.aa = s.aa ∧ s'.ab = s.ab) := by
  rcases perform_commit_cases h with ⟨t, a, -, rfl⟩ | ⟨t, a, -, -, -, rfl⟩ | ⟨a, -, rfl⟩ | ⟨v, a, -, -, rfl⟩ |
    ⟨a, -, -, rfl⟩ | ⟨v, a, -, -, -, rfl⟩ | ⟨op, rfl, rfl⟩ | ⟨op, q, rfl, -, -, rfl⟩
  case inl | inr.inl => cases t <;> exact ⟨.inr rfl, .inr ⟨rfl, rfl, rfl⟩⟩
  case inr.inr.inr.inr.inr.inr.inl => exact ⟨.inr rfl, .inl ⟨op, rfl⟩⟩
  case inr.inr.inr.inr.inr.inr.inr => exact ⟨.inl rfl, .inr ⟨rfl, rfl, rfl⟩⟩
  all_goals exact ⟨.inr rfl, .inr ⟨rfl, rfl, rfl⟩⟩

/-- What an edge does to the ALU's registers: nothing, but at an `ALU_EV` without a fault and at an `ALU_LD`. -/
theorem edge_alu {s t : State} (h : edge s = .next t) :
    ((s.activeMicro = some .aluEv ∧ s.aluFault = false) ∨ t.aluQ = s.aluQ) ∧
      ((∃ op, s.activeMicro = some (.aluLd op)) ∨ t.aop = s.aop ∧ t.aa = s.aa ∧ t.ab = s.ab) := by
  rcases edge_next_cases h with ⟨-, rfl⟩ | ⟨w, rest, i, -, -, -, rfl⟩ | ⟨w, rest, p, -, -, -, rfl⟩ |
    ⟨w, rest, f, a, -, -, -, rfl⟩ | ⟨c, k, u, s', hf, hu, hp, rfl⟩ | ⟨c, k, u, d, -, -, -, rfl⟩ | ⟨i, -, -, rfl⟩ | ⟨-, rfl⟩
  case inl =>
    rw [stepIdle_eq]
    exact ⟨.inr rfl, .inr ⟨rfl, rfl, rfl⟩⟩
  case inr.inr.inr.inr.inl =>
    have hact : s.activeMicro = some u := (activeMicro_executing hf).trans hu
    obtain ⟨hq, hlatch⟩ := perform_commit_alu hp
    have hvalue := hq.imp_left fun hev => And.intro (hact.trans (congrArg some hev)) (aluFault_of_commit hf hu hp)
    have hinput := hlatch.imp_left fun ⟨op, hld⟩ => Exists.intro op (hact.trans (congrArg some hld))
    split <;> exact ⟨hvalue, hinput⟩
  all_goals exact ⟨.inr rfl, .inr ⟨rfl, rfl, rfl⟩⟩

/-- Settles O19. -/
theorem aluOutputIsRegistered : Obligations.AluOutputIsRegistered := by
  intro s t h
  obtain ⟨hq, hlatch⟩ := edge_alu h
  refine ⟨hq.resolve_right, fun hne => hlatch.resolve_right ?_⟩
  rintro ⟨hop, ha, hb⟩
  simp [hop, ha, hb] at hne

/-! ### The table (R160) -/

/-- `s` with both operands read into T0 and T1 and latched with the sub-opcode, as `ALU_EV` finds it (R160). -/
def State.aluLoaded (s : State) (op : AluOp) (rs1 rs2 : RegAddr) : State :=
  { s with
    t0 := s.readReg rs1
    t1 := s.readReg rs2
    aop := op.code
    aa := s.readReg rs1
    ab := s.readReg rs2 }

/-- The first three steps of the ALU's table read and latch both operands, of `not` too (R160, R174). -/
theorem runSteps_stepsAlu (op : AluOp) (rs1 rs2 rd : RegAddr) (s : State) :
    runSteps (stepsAlu op rs1 rs2 rd) s = runSteps [.aluEv, .waR rd, .wdR .aluLow] (s.aluLoaded op rs1 rs2) := by
  rw [stepsAlu, runSteps_commit (perform_rdR _ _ _), runSteps_commit (perform_rdR _ _ _),
    runSteps_commit (perform_aluLd _ _)]
  rfl

section Exec

variable {s : State} {w : IWord} {rest : List IWord} {op : AluOp} {rs1 rs2 : RegAddr}

/-- An ALU instruction runs its table from `ALU_EV` on, IR and the operands loaded. -/
theorem exec_aluInstr (hq : s.queue = w :: rest) (op : AluOp) (rs1 rs2 rd : RegAddr) :
    exec (op.instr rs1 rs2 rd) s =
      runSteps [.aluEv, .waR rd, .wdR .aluLow] ((s.loadIr w .aluOperation).aluLoaded op rs1 rs2) := by
  rw [exec_inRange hq (wellFormed_aluInstr _ op rs1 rs2 rd), microOps_aluInstr, cls_aluInstr, runSteps_stepsAlu]

/-- An ALU instruction with no zero divisor puts its result, reduced, in `alu_q` and in `rd` (R160, R161, R175). -/
theorem exec_aluInstr_done (hq : s.queue = w :: rest) (h : ¬((op = .div ∨ op = .mod) ∧ s.regs[rs2.toNat] = 0))
    (rs1 rd : RegAddr) :
    exec (op.instr rs1 rs2 rd) s =
      .next (aluDone s w rest op.code rs1 rs2 rd
        (aluNat op (s.regs[rs1.toNat]).toNat (s.regs[rs2.toNat]).toNat)) := by
  have hev := perform_aluEv_some (s := (s.loadIr w .aluOperation).aluLoaded op rs1 rs2) rfl
    (aluF_eq_aluNat h (s.regs[rs1.toNat]))
  rw [exec_aluInstr hq, runSteps_commit hev, runSteps_waR_wdR, runSteps_nil, sourceValue_aluLow, truncW_ofNat,
    aluDone, ← retire_loadIr hq .aluOperation]
  rfl

/-- A divide or modulo by 0 reports and retires at `ALU_EV`, writing no register and no result (R180, R233). -/
theorem exec_aluInstr_faulted (hq : s.queue = w :: rest) (hop : op = .div ∨ op = .mod) (hb : s.regs[rs2.toNat] = 0)
    (rs1 rd : RegAddr) : exec (op.instr rs1 rs2 rd) s = .next (aluFaulted s w rest op.code rs1 rs2) := by
  have hev := perform_aluEv_none (s := (s.loadIr w .aluOperation).aluLoaded op rs1 rs2) rfl
    ((aluF_eq_none op (s.regs[rs1.toNat]) _).2 ⟨hop, hb⟩)
  have hqueue : ((s.loadIr w .aluOperation).aluLoaded op rs1 rs2).queue.tail = rest := congrArg List.tail hq
  rw [exec_aluInstr hq, runSteps_fault hev, State.takeArithmeticFault, takeError_eq_reported, hqueue]
  rfl

/-- An operation other than divide and modulo completes on all operands (R178). -/
theorem exec_aluInstr_of_not_division (hq : s.queue = w :: rest) (hop : ¬(op = .div ∨ op = .mod))
    (rs1 rs2 rd : RegAddr) :
    exec (op.instr rs1 rs2 rd) s =
      .next (aluDone s w rest op.code rs1 rs2 rd
        (aluNat op (s.regs[rs1.toNat]).toNat (s.regs[rs2.toNat]).toNat)) :=
  exec_aluInstr_done hq (fun h => hop h.1) rs1 rd

/-- Divide and modulo, for every divisor (R165, R166, R180). -/
theorem exec_aluInstr_of_division (hq : s.queue = w :: rest) (hop : op = .div ∨ op = .mod) (rs1 rs2 rd : RegAddr) :
    exec (op.instr rs1 rs2 rd) s =
      .next (if (s.regs[rs2.toNat]).toNat = 0 then aluFaulted s w rest op.code rs1 rs2
        else aluDone s w rest op.code rs1 rs2 rd
          (aluNat op (s.regs[rs1.toNat]).toNat (s.regs[rs2.toNat]).toNat)) := by
  have hzero : (s.regs[rs2.toNat]).toNat = 0 ↔ s.regs[rs2.toNat] = 0 := BitVec.toNat_inj (y := 0)
  by_cases hb : s.regs[rs2.toNat] = 0
  · rw [exec_aluInstr_faulted hq hop hb, if_pos (hzero.2 hb)]
  · rw [exec_aluInstr_done hq fun h => hb h.2, if_neg fun h => hb (hzero.1 h)]

end Exec

/-! ### Net effects -/

/-- Settles O37: the words by their fields, the table once for all thirteen, the four results as values of `aluNat`. -/
theorem arithmeticResults : Obligations.ArithmeticResults := by
  refine ⟨fun n w op hclass hop => ?_, microOps_aluInstr, ?_⟩
  · exact (verdict_eq_ok n w _).2 ⟨decodeFields_aluOperation hclass hop, wellFormed_aluInstr n op _ _ _⟩
  · rintro s w rest rs1 rs2 rd a b hq rfl rfl
    exact ⟨exec_aluInstr_of_not_division (op := .add) hq (by decide) rs1 rs2 rd,
      exec_aluInstr_of_not_division (op := .sub) hq (by decide) rs1 rs2 rd,
      exec_aluInstr_of_not_division (op := .mul) hq (by decide) rs1 rs2 rd,
      exec_aluInstr_of_not_division (op := .pow) hq (by decide) rs1 rs2 rd⟩

/-- Settles O40: none of the seven divides, so each completes with its value of `aluNat`. -/
theorem logicResults : Obligations.LogicResults := by
  rintro s w rest rs1 rs2 rd a b hq rfl rfl
  exact ⟨exec_aluInstr_of_not_division (op := .and) hq (by decide) rs1 rs2 rd,
    exec_aluInstr_of_not_division (op := .or) hq (by decide) rs1 rs2 rd,
    exec_aluInstr_of_not_division (op := .nand) hq (by decide) rs1 rs2 rd,
    exec_aluInstr_of_not_division (op := .nor) hq (by decide) rs1 rs2 rd,
    exec_aluInstr_of_not_division (op := .xor) hq (by decide) rs1 rs2 rd,
    exec_aluInstr_of_not_division (op := .xnor) hq (by decide) rs1 rs2 rd,
    exec_aluInstr_of_not_division (op := .not) hq (by decide) rs1 rs2 rd⟩

/-- Settles O38: the divisor decides between the fault and the result; the identity is Euclid's. -/
theorem divisionResults : Obligations.DivisionResults := by
  rintro s w rest rs1 rs2 rd a b hq rfl rfl
  exact ⟨exec_aluInstr_of_division (op := .div) hq (.inl rfl) rs1 rs2 rd,
    exec_aluInstr_of_division (op := .mod) hq (.inr rfl) rs1 rs2 rd,
    fun hb => ⟨Nat.mod_lt _ (Nat.pos_of_ne_zero hb), Nat.div_add_mod' _ _⟩⟩

/-! ### The zero divisor edge by edge (R180, R233) -/

/-- No report without a retirement, over a run of edges (R109). -/
theorem edges_reports {n : Nat} {s t : State} (h : edges n s = .next t) :
    s.qidx ≤ t.qidx ∧ (t.qidx = s.qidx → t.reports = s.reports) := by
  induction n generalizing s with
  | zero =>
    cases h
    exact ⟨Nat.le_refl _, fun _ => rfl⟩
  | succ n ih =>
    simp only [edges] at h
    split at h
    next x hx =>
      obtain ⟨hle, hsame⟩ := ih h
      rcases edge_retirement hx with ⟨-, -, hi, -⟩ | ⟨-, -, hi⟩
      · exact ⟨by omega, fun heq => by omega⟩
      · refine ⟨by omega, fun heq => (hsame (by omega)).trans ?_⟩
        rcases atMostOneReportPerEdge s x hx with hkept | ⟨r, -, -, hretired, -⟩
        · exact hkept
        · omega
    next => cases h
    next => cases h

section Run

variable {s : State} {w : IWord} {rest : List IWord} {i : Instr}

/-- An instruction's edges, from its `Decoding` edge on, are its meaning (R107). -/
theorem edges_instrEdges (hf : s.fsm = .decoding) (hq : s.queue = w :: rest) (hv : verdict s.mem.size w = .ok i) :
    edges (instrEdges i s) s = exec i s := by
  rw [← wordEdges_of_ok hv, ← runHead_eq_edges hf hq, ← step_eq_runHead hf]
  exact stepRunsDecodedInstruction s w rest i hf hq hv

/-- Before the last of its edges an instruction that completes has neither retired nor reported (R107, R109). -/
theorem edges_before_retirement (hf : s.fsm = .decoding) (hq : s.queue = w :: rest)
    (hv : verdict s.mem.size w = .ok i) {t : State} (ht : exec i s = .next t) {k : Nat} (hk : k < instrEdges i s) :
    ∃ x, edges k s = .next x ∧ x.queue = s.queue ∧ x.reports = s.reports := by
  cases k with
  | zero => exact ⟨s, rfl, rfl, rfl⟩
  | succ k =>
    rw [exec_inRange hq ((verdict_eq_ok _ _ _).1 hv).2] at ht
    rw [instrEdges_eq_tableEdges i s w] at hk
    obtain ⟨x, hx, -, hqueue, hqidx⟩ :=
      edges_within_table (k := 0) (s := s.loadIr w i.cls) hv List.drop_zero ht (Nat.lt_of_succ_lt_succ hk)
    have hrun : edges (k + 1) s = .next x := (edges_cons (edge_of_ok hf hq hv) k).trans hx
    exact ⟨x, hrun, hqueue, (edges_reports hrun).2 hqidx⟩

end Run

/-- An `ALU_EV` step with a zero divisor latched shows `alu_fault`, and its edge reports and retires (R180). -/
theorem edge_aluEv_zeroDivisor {s : State} {c : InstrClass} {k : Nat} (hf : s.fsm = .executing c k)
    (hu : s.currentMicro c k = some .aluEv) (hop : s.aop = 3 ∨ s.aop = 4) (hb : s.ab = 0) :
    s.aluFault = true ∧
      edge s = .next (reported s s.queue.tail .arithmeticFault s.ir (.division s.aop 0)) := by
  have hp : perform .aluEv s = .arithmeticFault (.division s.aop 0) := perform_eq_fault_iff.2 ⟨rfl, rfl, hop, hb⟩
  refine ⟨(aluFault_iff hf hu).2 hp, ?_⟩
  rw [edge_of_arithmeticFault hf hu hp, State.takeArithmeticFault, takeError_eq_reported]

theorem instrEdges_zeroDivisor {s : State} {op : AluOp} {rs2 : RegAddr} (hop : op = .div ∨ op = .mod)
    (hb : s.regs[rs2.toNat] = 0) (rs1 rd : RegAddr) : instrEdges (op.instr rs1 rs2 rd) s = 5 := by
  rw [instrEdges_aluInstr]
  exact if_pos ⟨hop, hb⟩

/-- A divide or modulo by 0 takes five edges from `Decoding`, reporting and retiring at the fifth (R180, R269). -/
theorem edges_zeroDivisor {s : State} {w : IWord} {rest : List IWord} {op : AluOp} {rs1 rs2 rd : RegAddr}
    (hf : s.fsm = .decoding) (hq : s.queue = w :: rest) (hv : verdict s.mem.size w = .ok (op.instr rs1 rs2 rd))
    (hop : op = .div ∨ op = .mod) (hb : s.regs[rs2.toNat] = 0) :
    edges 5 s = .next (aluFaulted s w rest op.code rs1 rs2) ∧
      ∀ k, k < 5 → ∃ t, edges k s = .next t ∧ t.queue = s.queue ∧ t.reports = s.reports := by
  have hexec := exec_aluInstr_faulted hq hop hb rs1 rd
  rw [← instrEdges_zeroDivisor hop hb rs1 rd]
  exact ⟨(edges_instrEdges hf hq hv).trans hexec, fun k hk => edges_before_retirement hf hq hv hexec hk⟩

/-- Settles O39. -/
theorem zeroDivisorFaults : Obligations.ZeroDivisorFaults := by
  refine ⟨fun s c k => edge_aluEv_zeroDivisor, fun s w rest rs1 rs2 rd hq hb => ?_, ?_⟩
  · exact ⟨exec_aluInstr_faulted (op := .div) hq (.inl rfl) hb rs1 rd,
      exec_aluInstr_faulted (op := .mod) hq (.inr rfl) hb rs1 rd,
      instrEdges_zeroDivisor (op := .div) (.inl rfl) hb rs1 rd,
      instrEdges_zeroDivisor (op := .mod) (.inr rfl) hb rs1 rd⟩
  · rintro s w rest p rs1 rs2 rd hf hq (⟨hv, rfl⟩ | ⟨hv, rfl⟩) hb
    · exact edges_zeroDivisor (op := .div) hf hq hv (.inl rfl) hb
    · exact edges_zeroDivisor (op := .mod) hf hq hv (.inr rfl) hb

end Sys2Proof.Machine
end

section
/-! The moves' words: each of their class decodes to them, whatever its filler, when its addresses are in range (R77 to
R80). -/

namespace Sys2Proof

theorem decodeFields_moveInMemory {w : IWord} (h : opcodeField w = InstrClass.moveInMemory.code) :
    decodeFields w = some (.rotm (memField28 w) (memField20 w) (memField12 w)) := by
  simp only [decodeFields, h, ofCode_classCode]

theorem decodeFields_moveInRegisters {w : IWord} (h : opcodeField w = InstrClass.moveInRegisters.code) :
    decodeFields w = some (.rotr (regField28 w) (regField23 w) (regField18 w)) := by
  simp only [decodeFields, h, ofCode_classCode]

theorem decodeFields_registerToMemory {w : IWord} (h : opcodeField w = InstrClass.registerToMemory.code) :
    decodeFields w = some (.r2m (regField28 w) (memField23 w)) := by
  simp only [decodeFields, h, ofCode_classCode]

theorem decodeFields_memoryToRegister {w : IWord} (h : opcodeField w = InstrClass.memoryToRegister.code) :
    decodeFields w = some (.m2r (memField28 w) (regField20 w)) := by
  simp only [decodeFields, h, ofCode_classCode]

/-- The range check on `rotm` is on its three addresses (R86). -/
theorem wellFormed_rotm {n : Nat} {a b c : MemAddr} :
    (Instr.rotm a b c).wellFormed n = true ↔ a.toNat < n ∧ b.toNat < n ∧ c.toNat < n := by
  simp only [Instr.wellFormed, Bool.and_eq_true, decide_eq_true_eq, and_assoc]

/-- The range check on `r2m` is on its one address (R86). -/
theorem wellFormed_r2m {n : Nat} {rs : RegAddr} {a : MemAddr} : (Instr.r2m rs a).wellFormed n = true ↔ a.toNat < n :=
  decide_eq_true_iff

/-- The range check on `m2r` is on its one address (R86). -/
theorem wellFormed_m2r {n : Nat} {a : MemAddr} {rd : RegAddr} : (Instr.m2r a rd).wellFormed n = true ↔ a.toNat < n :=
  decide_eq_true_iff

end Sys2Proof
end

section
/-! The rotation of three words of a store, read as a function of the address: what both rotations (R200, R201) do, with
distinct operands (R205) and with equal ones (R204); then the memory and the register file that read so. -/

namespace Sys2Proof.Machine

section Rotation

variable {α β : Type} [DecidableEq α]

/-- `f[b := f a][c := f b][a := f c]`, applied left to right (R200, R201). -/
def rotation (f : α → β) (a b c : α) : α → β :=
  Function.update (Function.update (Function.update f b (f a)) c (f b)) a (f c)

/-- The later update to the same address wins (R200). -/
theorem rotation_apply (f : α → β) (a b c x : α) :
    rotation f a b c x = if x = a then f c else if x = c then f b else if x = b then f a else f x := by
  simp only [rotation, Function.update_apply]

/-- With pairwise distinct operands C's word goes to A, A's to B and B's to C, and no other moves (R205). -/
theorem rotation_permutes (f : α → β) {a b c : α} (hab : a ≠ b) (hac : a ≠ c) (hbc : b ≠ c) :
    List.Perm [rotation f a b c a, rotation f a b c b, rotation f a b c c] [f a, f b, f c] ∧
      rotation f a b c a = f c ∧ rotation f a b c b = f a ∧ rotation f a b c c = f b ∧
      ∀ x, x ≠ a → x ≠ b → x ≠ c → rotation f a b c x = f x := by
  have hA : rotation f a b c a = f c := by simp [rotation_apply]
  have hB : rotation f a b c b = f a := by simp [rotation_apply, hab.symm, hbc]
  have hC : rotation f a b c c = f b := by simp [rotation_apply, hac.symm]
  refine ⟨?_, hA, hB, hC, fun x hxa hxb hxc => by simp [rotation_apply, hxa, hxb, hxc]⟩
  rw [hA, hB, hC]
  exact List.perm_append_comm (l₁ := [f c])

/-- A = B swaps A and C (R204). -/
theorem rotation_first_eq_second (f : α → β) (x z : α) : rotation f x x z x = f z ∧ rotation f x x z z = f x := by
  by_cases hzx : z = x <;> simp [rotation_apply, hzx]

/-- A = C leaves A's word in both (R204). -/
theorem rotation_first_eq_third (f : α → β) (x y : α) : rotation f x y x x = f x ∧ rotation f x y x y = f x := by
  by_cases hyx : y = x <;> simp [rotation_apply, hyx]

/-- B = C leaves B's word in both (R204). -/
theorem rotation_second_eq_third (f : α → β) (x y : α) : rotation f x y y x = f y ∧ rotation f x y y y = f y := by
  simp [rotation_apply]

end Rotation

/-! ### The memory -/

/-- `M[B := a][C := b][A := c]` with `a`, `b`, `c` the old words at A, B and C (R200). -/
def Memory.rotated (m : Memory) (a b c : Nat) : Memory :=
  ((m.write b (m.read a)).write c (m.read b)).write a (m.read c)

theorem wf_rotated {m : Memory} (h : m.wf = true) {a b c : Nat} (ha : a < m.size) (hb : b < m.size) (hc : c < m.size) :
    (m.rotated a b c).wf = true :=
  wf_write (wf_write (wf_write h hb _) hc _) ha _

/-- The memory as a function, after a write below N. -/
theorem read_write_eq_update {m : Memory} (h : m.wf = true) (a : Nat) (v : Word) :
    (m.write a v).read = Function.update m.read a v :=
  funext fun x => (read_write h a v x).trans (Function.update_apply ..).symm

theorem read_rotated {m : Memory} (h : m.wf = true) {b c : Nat} (a : Nat) (hb : b < m.size) (hc : c < m.size) :
    (m.rotated a b c).read = rotation m.read a b c := by
  have hB := wf_write h hb (m.read a)
  have hC := wf_write hB hc (m.read b)
  rw [Memory.rotated, read_write_eq_update hC, read_write_eq_update hB, read_write_eq_update h, rotation]

/-! ### The register file -/

/-- `R[B := a][C := b][A := c]` with `a`, `b`, `c` the old words of A, B and C (R201). -/
def State.rotatedRegs (s : State) (a b c : RegAddr) : Vector Word 32 :=
  ((s.regs.set b.toNat (s.readReg a)).set c.toNat (s.readReg b)).set a.toNat (s.readReg c)

/-- The register file as a function, after a write. -/
theorem readReg_writeReg_eq_update (s : State) (a : RegAddr) (v : Word) :
    (s.writeReg a v).readReg = Function.update s.readReg a v :=
  funext fun x => (readReg_writeReg s a x v).trans (Function.update_apply ..).symm

theorem readReg_of_rotatedRegs {s t : State} {a b c : RegAddr} (h : t.regs = s.rotatedRegs a b c) :
    t.readReg = rotation s.readReg a b c := by
  have hwrites : t.readReg =
      (((s.writeReg b (s.readReg a)).writeReg c (s.readReg b)).writeReg a (s.readReg c)).readReg := by
    funext x
    simp only [State.readReg, h]
    rfl
  rw [hwrites, readReg_writeReg_eq_update, readReg_writeReg_eq_update, readReg_writeReg_eq_update, rotation]

end Sys2Proof.Machine
end

section
/-! The moves (43): their reads and two-phase writes as one step, their net effects, and the decode error. -/

namespace Sys2Proof.Machine

open Sys2Proof.Claims

/-! ### The reads (R111) -/

/-- `s` with the three words of a rotation in the temporaries (R200, R201). -/
def State.tempsLoaded (s : State) (a b c : Word) : State := { s with t0 := a, t1 := b, t2 := c }

/-- The three register reads of `rotr`'s table. -/
theorem runSteps_readRegs (a b c : RegAddr) (table : List MicroOp) (s : State) :
    runSteps (.rdR .t0 a :: .rdR .t1 b :: .rdR .t2 c :: table) s =
      runSteps table (s.tempsLoaded (s.readReg a) (s.readReg b) (s.readReg c)) := by
  rw [runSteps_commit (perform_rdR _ _ _), runSteps_commit (perform_rdR _ _ _), runSteps_commit (perform_rdR _ _ _)]
  rfl

/-- A memory read in range, outside a write cycle, within a table. -/
theorem runSteps_rdM {s : State} (hl : s.mwl = none) {a : MemAddr} (ha : a.toNat < s.mem.size) (t : Temp)
    (table : List MicroOp) :
    runSteps (.rdM t a :: table) s = runSteps table (s.writeTemp t (s.mem.read a.toNat)) :=
  runSteps_commit (perform_rdM hl ha)

/-- The three memory reads of `rotm`'s table. -/
theorem runSteps_readMems {s : State} (hl : s.mwl = none) {a b c : MemAddr} (ha : a.toNat < s.mem.size)
    (hb : b.toNat < s.mem.size) (hc : c.toNat < s.mem.size) (table : List MicroOp) :
    runSteps (.rdM .t0 a :: .rdM .t1 b :: .rdM .t2 c :: table) s =
      runSteps table (s.tempsLoaded (s.mem.read a.toNat) (s.mem.read b.toNat) (s.mem.read c.toNat)) := by
  rw [runSteps_rdM hl ha, runSteps_rdM, runSteps_rdM]
  · rfl
  · exact hl
  · exact hc
  · exact hl
  · exact hb

/-- A table that starts with a memory read and answers found the write latch empty (R54, R113). -/
theorem mwl_eq_none_of_runSteps_rdM {t : Temp} {a : MemAddr} {table : List MicroOp} {s x : State}
    (h : runSteps (.rdM t a :: table) s = .next x) : s.mwl = none := by
  cases hl : s.mwl with
  | none => rfl
  | some b => simp [runSteps, perform, performRdM, hl] at h

/-! ### Net effects -/

section Exec

variable {s : State} {w : IWord} {rest : List IWord}

/-- `rotr` rotates the three registers and leaves their old words in the temporaries (R201). -/
theorem exec_rotr (hq : s.queue = w :: rest) (a b c : RegAddr) :
    exec (.rotr a b c) s = .next { common s w rest with
      regs := s.rotatedRegs a b c, t0 := s.readReg a, t1 := s.readReg b, t2 := s.readReg c, rwl := none } := by
  rw [exec_inRange hq rfl, microOps, stepsRotr, runSteps_readRegs, runSteps_waR_wdR, runSteps_waR_wdR,
    runSteps_waR_wdR, runSteps_nil, ← retire_loadIr hq .moveInRegisters]
  rfl

/-- `rotm` in range rotates the three words and leaves the old ones in the temporaries (R200). -/
theorem exec_rotm_inRange (hq : s.queue = w :: rest) (hl : s.mwl = none) {a b c : MemAddr} (ha : a.toNat < s.mem.size)
    (hb : b.toNat < s.mem.size) (hc : c.toNat < s.mem.size) :
    exec (.rotm a b c) s = .next { common s w rest with
      mem := s.mem.rotated a.toNat b.toNat c.toNat
      t0 := s.mem.read a.toNat, t1 := s.mem.read b.toNat, t2 := s.mem.read c.toNat, mwl := none } := by
  rw [exec_inRange hq (wellFormed_rotm.2 ⟨ha, hb, hc⟩), Instr.cls, microOps, stepsRotm,
    runSteps_readMems (s := s.loadIr w .moveInMemory) hl ha hb hc, runSteps_waM_wdM, runSteps_waM_wdM,
    runSteps_waM_wdM, runSteps_nil, ← retire_loadIr hq .moveInMemory]
  · rfl
  · exact ha
  · exact hc
  · exact hb

/-- `r2m` in range writes the register's word to its address and leaves it in T0 (R202). -/
theorem exec_r2m_inRange (hq : s.queue = w :: rest) (rs : RegAddr) {a : MemAddr} (ha : a.toNat < s.mem.size) :
    exec (.r2m rs a) s = .next { common s w rest with
      mem := s.mem.write a.toNat (s.readReg rs), t0 := s.readReg rs, mwl := none } := by
  rw [exec_inRange hq (wellFormed_r2m.2 ha), microOps, stepsR2m, runSteps_commit (perform_rdR _ _ _),
    runSteps_waM_wdM, runSteps_nil, ← retire_loadIr hq .registerToMemory]
  · rfl
  · exact ha

/-- `m2r` in range writes the memory word to its register and leaves it in T0 (R203). -/
theorem exec_m2r_inRange (hq : s.queue = w :: rest) (hl : s.mwl = none) {a : MemAddr} (ha : a.toNat < s.mem.size)
    (rd : RegAddr) :
    exec (.m2r a rd) s = .next { common s w rest with
      regs := s.regs.set rd.toNat (s.mem.read a.toNat), t0 := s.mem.read a.toNat, rwl := none } := by
  rw [exec_inRange hq (wellFormed_m2r.2 ha), Instr.cls, microOps, stepsM2r,
    runSteps_rdM (s := s.loadIr w .memoryToRegister) hl ha, runSteps_waR_wdR, runSteps_nil,
    ← retire_loadIr hq .memoryToRegister]
  rfl

/-- An instruction that fails the range check is reported and retired, whichever of its fields is named (R86, R236). -/
theorem exec_of_not_wellFormed {i : Instr} (hq : s.queue = w :: rest) (h : ¬ i.wellFormed s.mem.size = true) :
    ∃ d, exec i s = .next (reported s rest .addressOutOfRange w d) := by
  rw [← firstOutOfRange_eq_none] at h
  obtain ⟨⟨f, a⟩, hr⟩ := Option.ne_none_iff_exists'.1 h
  exact ⟨_, exec_outOfRange hq hr⟩

end Exec

/-- Settles O45: the address decides between the write and the report. -/
theorem registerToMemoryResult : Obligations.RegisterToMemoryResult := by
  refine ⟨fun n w hop ha => ?_, fun _ _ => rfl, ?_⟩
  · exact (verdict_eq_ok n w _).2 ⟨decodeFields_registerToMemory hop, wellFormed_r2m.2 ha⟩
  · rintro s w rest rs a v hq rfl
    refine ⟨exec_r2m_inRange hq rs, fun ha => exec_outOfRange hq (if_pos ha), fun hm => ?_⟩
    have hread := read_write hm a.toNat (s.readReg rs)
    exact ⟨(hread _).trans (if_pos rfl), fun x hx => (hread x).trans (if_neg hx)⟩

/-- Settles O46: the address decides between the write and the report. -/
theorem memoryToRegisterResult : Obligations.MemoryToRegisterResult := by
  refine ⟨fun n w hop ha => ?_, fun _ _ => rfl, ?_⟩
  · exact (verdict_eq_ok n w _).2 ⟨decodeFields_memoryToRegister hop, wellFormed_m2r.2 ha⟩
  · rintro s w rest a rd v hq rfl
    exact ⟨fun hl ha => exec_m2r_inRange hq hl ha rd, fun ha => exec_outOfRange hq (if_pos ha)⟩

/-- Settles O42: the registers after are the rotation of those before. -/
theorem rotateRegistersResult : Obligations.RotateRegistersResult := by
  refine ⟨fun n w hop => (verdict_eq_ok n w _).2 ⟨decodeFields_moveInRegisters hop, rfl⟩, fun _ _ _ => rfl, ?_⟩
  rintro s w rest ra rb rc a b c hq rfl rfl rfl v rfl
  refine ⟨exec_rotr hq ra rb rc, fun x => ?_⟩
  have hread := readReg_of_rotatedRegs (s := s) (t := { s with regs := s.rotatedRegs ra rb rc }) rfl
  exact (congrFun hread x).trans (rotation_apply ..)

/-- Settles O41: the memory after is the rotation of that before; the range check decides between it and the report. -/
theorem rotateMemoryResult : Obligations.RotateMemoryResult := by
  refine ⟨fun n w hop ha hb hc => ?_, fun _ _ _ => rfl, ?_, fun s w rest ma mb mc hq hout => ?_⟩
  · exact (verdict_eq_ok n w _).2 ⟨decodeFields_moveInMemory hop, wellFormed_rotm.2 ⟨ha, hb, hc⟩⟩
  · rintro s w rest ma mb mc a b c hq hl ha hb hc rfl rfl rfl m rfl
    refine ⟨exec_rotm_inRange hq hl ha hb hc, fun hm => ⟨wf_rotated hm ha hb hc, fun x => ?_⟩⟩
    exact (congrFun (read_rotated hm ma.toNat hb hc) x).trans (rotation_apply ..)
  · refine exec_of_not_wellFormed hq fun hwf => ?_
    obtain ⟨ha, hb, hc⟩ := wellFormed_rotm.1 hwf
    omega

/-! ### Rotations that answer (R204, R205) -/

/-- Whatever answers a next state has a word at the head of the queue (R106). -/
theorem exec_next_queue {i : Instr} {s t : State} (h : exec i s = .next t) : ∃ w rest, s.queue = w :: rest := by
  cases hq : s.queue with
  | nil => simp [exec_eq_runInstr, runInstr, hq] at h
  | cons w rest => exact ⟨w, rest, rfl⟩

theorem readReg_of_exec_rotr {s t : State} {a b c : RegAddr} (h : exec (.rotr a b c) s = .next t) :
    t.readReg = rotation s.readReg a b c := by
  obtain ⟨w, rest, hq⟩ := exec_next_queue h
  rw [exec_rotr hq] at h
  cases h
  exact readReg_of_rotatedRegs rfl

theorem read_of_exec_rotm {s t : State} {a b c : MemAddr} (hm : s.mem.wf = true) (ha : a.toNat < s.mem.size)
    (hb : b.toNat < s.mem.size) (hc : c.toNat < s.mem.size) (h : exec (.rotm a b c) s = .next t) :
    t.mem.read = rotation s.mem.read a.toNat b.toNat c.toNat := by
  obtain ⟨w, rest, hq⟩ := exec_next_queue h
  have htable := (exec_inRange hq (wellFormed_rotm.2 ⟨ha, hb, hc⟩)).symm.trans h
  have hl : s.mwl = none := mwl_eq_none_of_runSteps_rdM (s := s.loadIr w .moveInMemory) htable
  rw [exec_rotm_inRange hq hl ha hb hc] at h
  cases h
  exact read_rotated hm a.toNat hb hc

/-- Settles O43: both stores, read as functions, are rotated. -/
theorem distinctRotationPermutes : Obligations.DistinctRotationPermutes := by
  refine ⟨fun s t ma mb mc hm hab hac hbc ha hb hc h => ?_, fun s t ra rb rc hab hac hbc h => ?_⟩
  · rw [read_of_exec_rotm hm ha hb hc h]
    exact rotation_permutes s.mem.read (mt BitVec.eq_of_toNat_eq hab) (mt BitVec.eq_of_toNat_eq hac)
      (mt BitVec.eq_of_toNat_eq hbc)
  · rw [readReg_of_exec_rotr h]
    exact rotation_permutes s.readReg hab hac hbc

/-- Settles O44: the three rows of the rotation, for each store. -/
theorem aliasedRotationTable : Obligations.AliasedRotationTable := by
  refine ⟨fun s t x z h => ?_, fun s t x y h => ?_, fun s t x y h => ?_, fun s t x z hm hx hz h => ?_,
    fun s t x y hm hx hy h => ?_, fun s t x y hm hx hy h => ?_⟩
  · exact readReg_of_exec_rotr h ▸ rotation_first_eq_second s.readReg x z
  · exact readReg_of_exec_rotr h ▸ rotation_first_eq_third s.readReg x y
  · exact readReg_of_exec_rotr h ▸ rotation_second_eq_third s.readReg x y
  · exact read_of_exec_rotm hm hx hx hz h ▸ rotation_first_eq_second s.mem.read x.toNat z.toNat
  · exact read_of_exec_rotm hm hx hy hx h ▸ rotation_first_eq_third s.mem.read x.toNat y.toNat
  · exact read_of_exec_rotm hm hx hy hy h ▸ rotation_second_eq_third s.mem.read x.toNat y.toNat

end Sys2Proof.Machine
end

section
/-! The words that raise an error (60): an address field out of range, a sub-opcode that selects no operation, and where an
instruction's `ALU_EV` stands. -/

namespace Sys2Proof

/-- A field that fails the range check is the one reported, whatever follows it (R232, R237). -/
theorem firstOutOfRange_cons_of_le {n : Nat} {a : MemAddr} (h : n ≤ a.toNat) (f : Field)
    (fields : List (Field × MemAddr)) : firstOutOfRange n ((f, a) :: fields) = some (f, a) :=
  if_pos h

/-- A field that passes the range check leaves it to the next ones (R232, R237). -/
theorem firstOutOfRange_cons_of_lt {n : Nat} {a : MemAddr} (h : a.toNat < n) (f : Field)
    (fields : List (Field × MemAddr)) : firstOutOfRange n ((f, a) :: fields) = firstOutOfRange n fields :=
  if_neg (Nat.not_le.2 h)

/-- The words R231 speaks of, and no others, get the verdict `UnrecognizedOpcode`. -/
theorem verdict_eq_unrecognized_iff_codes (n : Nat) (w : IWord) (p : AluCode) :
    verdict n w = .unrecognizedOpcode p ↔
      (opcodeField w = 0b010#3 ∧ 13 ≤ (aluopField w).toNat) ∧ p = aluopField w := by
  rw [verdict_eq_unrecognized, decodeFields_eq_none]

end Sys2Proof

namespace Sys2Proof.Machine

/-- `ALU_EV` is step 3 of the ALU's table and stands in no other table (R160, R233). -/
theorem microOps_eq_aluEv_iff (i : Instr) (k : Nat) :
    (microOps i)[k]? = some .aluEv ↔ i.cls = .aluOperation ∧ k = 3 := by
  by_cases hc : i.cls = .aluOperation
  · cases i using Instr.formatCases with
    | alu op a b d =>
      rw [microOps_aluInstr, and_iff_right hc]
      match k with
      | 3 => exact iff_of_true rfl rfl
      | 0 | 1 | 2 | 4 | 5 | _ + 6 => simp [stepsAlu]
    | _ => cases hc
  · exact iff_of_false (fun hev => aluEv_not_mem_microOps hc (List.mem_of_getElem? hev)) fun h => hc h.1

/-- Only step 3 of an ALUOperation performs `ALU_EV` (R160, R233). -/
theorem eq_of_currentMicro_aluEv {s : State} {c : InstrClass} {k : Nat} (h : s.currentMicro c k = some .aluEv) :
    c = .aluOperation ∧ k = 3 := by
  obtain ⟨i, -, rfl, hev⟩ := currentMicro_eq_some h
  exact (microOps_eq_aluEv_iff i k).1 hev

/-- In a state of the invariant step 3 of an ALUOperation performs `ALU_EV` (R107, R160). -/
theorem currentMicro_aluEv_of_inv {s : State} (hs : s.Inv) (hf : s.fsm = .executing .aluOperation 3) :
    s.currentMicro .aluOperation 3 = some .aluEv := by
  obtain ⟨-, i, hv, hc, -⟩ := (controlOk_executing hf).1 hs.2
  rw [← hc, currentMicro_of_verdict 3 hv, microOps_eq_aluEv_iff]
  exact ⟨hc, rfl⟩

end Sys2Proof.Machine
end

section
/-! The reports (60): where an edge and a step make one, what a report changes, and which words and steps raise which. -/

namespace Sys2Proof.Machine

open Sys2Proof.Claims

/-! ### Where a report comes from (R231, R232, R233) -/

/-- All an edge can report: nothing; at `Decoding` the verdict on the head; at `ALU_EV` the zero divisor. -/
theorem edge_report_cases {s t : State} (h : edge s = .next t) :
    t.reports = s.reports ∨
    (∃ w rest p, s.queue = w :: rest ∧ verdict s.mem.size w = .unrecognizedOpcode p ∧
      t = s.takeUnrecognizedOpcode w p) ∨
    (∃ w f a, t = s.takeAddressOutOfRange w f a) ∨
    (∃ c k, s.fsm = .executing c k ∧ s.currentMicro c k = some .aluEv ∧ (s.aop = 3 ∨ s.aop = 4) ∧ s.ab = 0 ∧
      t = s.takeArithmeticFault (.division s.aop 0)) := by
  rcases edge_next_cases h with ⟨-, rfl⟩ | ⟨w, rest, i, -, -, -, rfl⟩ | ⟨w, rest, p, -, hq, hv, rfl⟩ |
    ⟨w, rest, f, a, -, -, -, rfl⟩ | ⟨c, k, u, s', -, -, hp, rfl⟩ | ⟨c, k, u, d, hf, hu, hp, rfl⟩ | ⟨i, -, -, rfl⟩ | ⟨-, rfl⟩
  · exact .inl (by rw [stepIdle_eq])
  · exact .inl rfl
  · exact .inr (.inl ⟨w, rest, p, hq, hv, rfl⟩)
  · exact .inr (.inr (.inl ⟨w, f, a, rfl⟩))
  · obtain ⟨-, -, -, -, hreports, -⟩ := perform_commit_frame hp
    left
    split <;> exact hreports
  · obtain ⟨rfl, rfl, hop, hb⟩ := perform_fault_cases hp
    exact .inr (.inr (.inr ⟨c, k, hf, hu, hop, hb, rfl⟩))
  · exact .inl rfl
  · exact .inl rfl

/-- The report an error appends is the one it is taken with. -/
theorem eq_of_takeError_reports {s : State} {kind : ErrorKind} {w : IWord} {d : Detail} {r : Report}
    (h : (s.takeError kind w d).reports = s.reports ++ [r]) :
    r = { kind := kind, index := s.qidx, word := w, detail := d } := by
  simpa using h.symm

/-- A table without `ALU_EV` reports nothing (R233). -/
theorem runSteps_reports_of_no_aluEv {table : List MicroOp} (hno : .aluEv ∉ table) {s t : State}
    (h : runSteps table s = .next t) : t.reports = s.reports := by
  induction table generalizing s with
  | nil =>
    cases h
    rfl
  | cons u rest ih =>
    obtain ⟨hu, hrest⟩ := List.ne_and_not_mem_of_not_mem_cons hno
    simp only [runSteps] at h
    split at h
    next s' hp =>
      obtain ⟨-, -, -, -, hreports, -⟩ := perform_commit_frame hp
      exact (ih hrest h).trans hreports
    next d hp => exact absurd (perform_fault_cases hp).1.symm hu
    · cases h

/-- All a meaning can report of an instruction in range: nothing, or the zero divisor of an ALU operation. -/
theorem exec_report_cases {i : Instr} {s t : State} {w : IWord} {rest : List IWord} (hq : s.queue = w :: rest)
    (hr : i.wellFormed s.mem.size = true) (h : exec i s = .next t) :
    t.reports = s.reports ∨ ∃ p rs1 rs2, t = aluFaulted s w rest p rs1 rs2 := by
  by_cases hc : i.cls = .aluOperation
  · cases i using Instr.formatCases with
    | alu op rs1 rs2 rd =>
      by_cases hzero : (op = .div ∨ op = .mod) ∧ s.regs[rs2.toNat] = 0
      · rw [exec_aluInstr_faulted hq hzero.1 hzero.2] at h
        exact .inr ⟨op.code, rs1, rs2, (Host.Outcome.next.inj h).symm⟩
      · rw [exec_aluInstr_done hq hzero] at h
        cases h
        exact .inl rfl
    | _ => cases hc
  · rw [exec_inRange hq hr] at h
    have hreports := runSteps_reports_of_no_aluEv (aluEv_not_mem_microOps hc) h
    exact .inl hreports

/-- All the step from `Decoding` can report: nothing, a decode error, or the zero divisor of an ALU operation. -/
theorem step_report_cases {s t : State} (hf : s.fsm = .decoding) (h : step s = .next t) :
    t.reports = s.reports ∨
    ∃ w rest, s.queue = w :: rest ∧
      ((∃ kind d, t = reported s rest kind w d) ∨ ∃ p rs1 rs2, t = aluFaulted s w rest p rs1 rs2) := by
  obtain ⟨w, rest, hq, ⟨kind, d, rfl⟩ | ⟨i, hv, -⟩⟩ := runHead_next_cases ((step_eq_runHead hf).symm.trans h)
  · refine .inr ⟨w, rest, hq, .inl ⟨kind, d, ?_⟩⟩
    rw [takeError_eq_reported, hq, List.tail_cons]
  · rw [stepRunsDecodedInstruction s w rest i hf hq hv] at h
    exact (exec_report_cases hq ((verdict_eq_ok _ _ _).1 hv).2 h).imp_right fun hfault => ⟨w, rest, hq, .inr hfault⟩

/-! ### The address out of range (R232, R237) -/

/-- Settles O47: the range check stops at the first field that fails it. -/
theorem outOfRangeAddressReported : Obligations.OutOfRangeAddressReported := by
  intro s w rest hq
  refine ⟨fun a d ha => exec_outOfRange hq (firstOutOfRange_cons_of_le ha ..), fun r a ha =>
    ⟨exec_outOfRange hq (firstOutOfRange_cons_of_le ha ..), exec_outOfRange hq (firstOutOfRange_cons_of_le ha ..)⟩,
    fun a b c ha => exec_outOfRange hq (firstOutOfRange_cons_of_le ha ..), fun a b c ha hb => ?_,
    fun a b c ha hb hc => ?_⟩
  · refine exec_outOfRange hq ?_
    rw [Instr.addrFields, firstOutOfRange_cons_of_lt ha, firstOutOfRange_cons_of_le hb]
  · refine exec_outOfRange hq ?_
    rw [Instr.addrFields, firstOutOfRange_cons_of_lt ha, firstOutOfRange_cons_of_lt hb, firstOutOfRange_cons_of_le hc]

/-! ### The undefined sub-opcode (R231) -/

/-- Settles O48: the decoder gives this verdict to these words alone, and no edge reports the kind on another verdict. -/
theorem unrecognizedOpcodeReported : Obligations.UnrecognizedOpcodeReported := by
  constructor
  · rintro s w rest p hf hq hop rfl hp
    have hv := (verdict_eq_unrecognized_iff_codes s.mem.size w (aluopField w)).2 ⟨⟨hop, hp⟩, rfl⟩
    have hedge := edge_of_unrecognized hf hq hv
    refine ⟨?_, by rw [step_eq_runHead hf, runHead_of_unrecognized hq hv, hedge]⟩
    rw [hedge, State.takeUnrecognizedOpcode, takeError_eq_reported, hq]
    rfl
  · intro s t r h hr hkind
    rcases edge_report_cases h with hsame | ⟨w, rest, p, -, hv, rfl⟩ | ⟨w, f, a, rfl⟩ | ⟨c, k, -, -, -, -, rfl⟩
    · simp [hsame] at hr
    · obtain ⟨⟨hop, hp⟩, rfl⟩ := (verdict_eq_unrecognized_iff_codes _ _ _).1 hv
      obtain rfl := eq_of_takeError_reports hr
      exact ⟨hop, hp, rfl⟩
    · obtain rfl := eq_of_takeError_reports hr
      cases hkind
    · obtain rfl := eq_of_takeError_reports hr
      cases hkind

/-! ### The zero divisor (R233) -/

/-- Settles O49: the kind is reported at `ALU_EV` alone, which is step 3 of an ALUOperation. -/
theorem arithmeticFaultExactly : Obligations.ArithmeticFaultExactly := by
  refine ⟨fun s t r h hr hkind => ?_, fun s hs hf hop hb => ?_⟩
  · rcases edge_report_cases h with hsame | ⟨w, rest, p, -, -, rfl⟩ | ⟨w, f, a, rfl⟩ | ⟨c, k, hf, hu, hop, hb, rfl⟩
    · simp [hsame] at hr
    · obtain rfl := eq_of_takeError_reports hr
      cases hkind
    · obtain rfl := eq_of_takeError_reports hr
      cases hkind
    · obtain ⟨rfl, rfl⟩ := eq_of_currentMicro_aluEv hu
      exact ⟨hf, hop, hb, eq_of_takeError_reports hr⟩
  · obtain ⟨-, hedge⟩ := edge_aluEv_zeroDivisor hf (currentMicro_aluEv_of_inv hs hf) hop hb
    exact ⟨_, hedge, rfl⟩

/-! ### A report changes nothing else (R236) -/

/-- Settles O50: an edge that reports takes an error; before an instruction's report only hidden registers were written. -/
theorem errorsArePrecise : Obligations.ErrorsArePrecise := by
  refine ⟨fun s t h hne => ?_, fun s t hf h hne => ?_⟩
  · rcases edge_report_cases h with hsame | ⟨w, rest, p, -, -, rfl⟩ | ⟨w, f, a, rfl⟩ | ⟨c, k, -, -, -, -, rfl⟩
    · exact absurd hsame hne
    all_goals exact ⟨_, _, _, takeError_eq_reported ..⟩
  · obtain ⟨w, rest, hq, ⟨kind, d, rfl⟩ | ⟨p, rs1, rs2, rfl⟩⟩ := (step_report_cases hf h).resolve_left hne
    all_goals
      rw [hq]
      exact ⟨rfl, rfl, rfl, rfl, rfl, rfl, ⟨_, rfl, rfl, rfl⟩, rfl, rfl, rfl⟩

/-! ### Earlier reports are not read (R239) -/

/-- `s` with other reports made so far. -/
def State.withReports (s : State) (earlier : List Report) : State := { s with reports := earlier }

theorem writeTemp_withReports (s : State) (earlier : List Report) (t : Temp) (v : Word) :
    (s.withReports earlier).writeTemp t v = (s.writeTemp t v).withReports earlier := by
  cases t <;> rfl

@[simp] theorem sourceValue_withReports (s : State) (earlier : List Report) (v : Source) :
    (s.withReports earlier).sourceValue v = s.sourceValue v := by
  cases v with
  | literal d => rfl
  | temp t => cases t <;> rfl
  | aluLow => rfl

/-- A micro-operation that commits does so whatever was reported. -/
theorem perform_commit_withReports {u : MicroOp} {s s' : State} (h : perform u s = .commit s')
    (earlier : List Report) : perform u (s.withReports earlier) = .commit (s'.withReports earlier) := by
  rcases perform_commit_cases h with ⟨t, a, rfl, rfl⟩ | ⟨t, a, rfl, hl, ha, rfl⟩ | ⟨a, rfl, rfl⟩ |
    ⟨v, a, rfl, hl, rfl⟩ | ⟨a, rfl, ha, rfl⟩ | ⟨v, a, rfl, hl, ha, rfl⟩ | ⟨op, rfl, rfl⟩ | ⟨op, q, rfl, hop, hq, rfl⟩
  · rw [perform_rdR, writeTemp_withReports]
    rfl
  · rw [perform_rdM (s := s.withReports earlier) hl ha, writeTemp_withReports]
    rfl
  · rfl
  · rw [perform_wdR (s := s.withReports earlier) hl, sourceValue_withReports]
    rfl
  · exact perform_waM (s := s.withReports earlier) ha
  · rw [perform_wdM (s := s.withReports earlier) hl ha, sourceValue_withReports]
    rfl
  · rfl
  · exact perform_aluEv_some (s := s.withReports earlier) hop hq

/-- A micro-operation that faults does so whatever was reported. -/
theorem perform_fault_withReports {u : MicroOp} {s : State} {d : Detail} (h : perform u s = .arithmeticFault d)
    (earlier : List Report) : perform u (s.withReports earlier) = .arithmeticFault d := by
  have hzero := perform_eq_fault_iff.1 h
  exact perform_eq_fault_iff.2 hzero

/-- `f` goes from `s` to `t` whatever was reported before: it appends the same reports to any, and does the same else. -/
def IgnoresReports (f : State → Host.Outcome State Fault Refusal) (s t : State) : Prop :=
  ∃ new, t.reports = s.reports ++ new ∧
    ∀ earlier, f (s.withReports earlier) = .next (t.withReports (earlier ++ new))

/-- What appends no report ignores them when it does the same with others. -/
theorem ignoresReports_of_silent {f : State → Host.Outcome State Fault Refusal} {s t : State}
    (hr : t.reports = s.reports) (h : ∀ earlier, f (s.withReports earlier) = .next (t.withReports earlier)) :
    IgnoresReports f s t :=
  ⟨[], by rw [hr, List.append_nil], fun earlier => by rw [h, List.append_nil]⟩

/-- Taking an error appends the same report to any earlier ones (R234). -/
theorem ignoresReports_of_takeError {f : State → Host.Outcome State Fault Refusal} {s : State} {kind : ErrorKind}
    {w : IWord} {d : Detail}
    (h : ∀ earlier, f (s.withReports earlier) = .next ((s.withReports earlier).takeError kind w d)) :
    IgnoresReports f s (s.takeError kind w d) :=
  ⟨_, rfl, h⟩

theorem edge_ignoresReports {s t : State} (h : edge s = .next t) : IgnoresReports edge s t := by
  rcases edge_next_cases h with ⟨hf, rfl⟩ | ⟨w, rest, i, hf, hq, hv, rfl⟩ | ⟨w, rest, p, hf, hq, hv, rfl⟩ |
    ⟨w, rest, f, a, hf, hq, hv, rfl⟩ | ⟨c, k, u, s', hf, hu, hp, rfl⟩ | ⟨c, k, u, d, hf, hu, hp, rfl⟩ |
    ⟨i, hf, hi, rfl⟩ | ⟨hf, rfl⟩
  · rw [stepIdle_eq]
    exact ignoresReports_of_silent rfl fun earlier => edge_idle (s := s.withReports earlier) hf
  · exact ignoresReports_of_silent rfl fun earlier => edge_of_ok (s := s.withReports earlier) hf hq hv
  · exact ignoresReports_of_takeError fun earlier => edge_of_unrecognized (s := s.withReports earlier) hf hq hv
  · exact ignoresReports_of_takeError fun earlier => edge_of_outOfRange (s := s.withReports earlier) hf hq hv
  · obtain ⟨-, -, -, -, hreports, -⟩ := perform_commit_frame hp
    have hedge (earlier : List Report) :=
      edge_of_commit (s := s.withReports earlier) hf hu (perform_commit_withReports hp earlier)
    by_cases hlast : k + 1 = classSteps c
    · simp only [if_pos hlast] at hedge ⊢
      exact ignoresReports_of_silent hreports hedge
    · simp only [if_neg hlast] at hedge ⊢
      exact ignoresReports_of_silent hreports hedge
  · exact ignoresReports_of_takeError fun earlier =>
      edge_of_arithmeticFault (s := s.withReports earlier) hf hu (perform_fault_withReports hp earlier)
  · exact ignoresReports_of_silent rfl fun earlier => edge_draining (s := s.withReports earlier) hf hi
  · exact ignoresReports_of_silent rfl fun earlier => edge_halted (s := t.withReports earlier) hf

theorem edges_ignoresReports {n : Nat} {s t : State} (h : edges n s = .next t) : IgnoresReports (edges n) s t := by
  induction n generalizing s with
  | zero =>
    cases h
    exact ignoresReports_of_silent rfl fun _ => rfl
  | succ n ih =>
    simp only [edges] at h
    split at h
    next x hx =>
      obtain ⟨new, hnew, hedge⟩ := edge_ignoresReports hx
      obtain ⟨more, hmore, hrun⟩ := ih h
      refine ⟨new ++ more, by rw [hmore, hnew, List.append_assoc], fun earlier => ?_⟩
      rw [edges_cons (hedge earlier), hrun, List.append_assoc]
    next => cases h
    next => cases h

/-- How many edges a step takes does not depend on the reports made so far. -/
theorem stepEdges_withReports (s : State) (earlier : List Report) :
    stepEdges (s.withReports earlier) = stepEdges s := rfl

/-- Settles O51: a step is a run of edges, and no edge reads the reports. -/
theorem earlierErrorsDoNotMatter : Obligations.EarlierErrorsDoNotMatter := by
  intro s t earlier h
  obtain ⟨new, hnew, hrun⟩ := edges_ignoresReports ((stepIsItsEdges s).symm.trans h)
  refine ⟨new, hnew, ?_⟩
  have hstep := stepIsItsEdges (s.withReports earlier)
  rw [stepEdges_withReports, hrun earlier] at hstep
  exact hstep

end Sys2Proof.Machine
end

section
/-! Runs of steps: the drain is run by steps as by edges, each queued word is one step, and every program ends. -/

namespace Sys2Proof.Machine

/-! ### One step more, and runs that never stop -/

theorem steps_cons {s t : State} (h : step s = .next t) (n : Nat) : steps (n + 1) s = steps n t := by
  simp only [steps, h]

theorem steps_one (s : State) : steps 1 s = step s := by
  simp only [steps]
  cases step s <;> rfl

theorem steps_snoc {s t : State} {n : Nat} (h : steps n s = .next t) : steps (n + 1) s = step t :=
  (steps_add 1 h).trans (steps_one t)

/-- `Halted` is terminal for runs of steps too (R123). -/
theorem steps_halted {s : State} (hf : s.fsm = .halted) (n : Nat) : steps n s = .next s := by
  induction n with
  | zero => rfl
  | succ n ih => rw [steps_cons (haltedIsTerminal s hf).2, ih]

/-- A run of steps from a state of the invariant never stops. -/
theorem steps_of_inv {s : State} (hs : s.Inv) (n : Nat) : ∃ t, steps n s = .next t := by
  induction n generalizing s with
  | zero => exact ⟨s, rfl⟩
  | succ n ih =>
    obtain ⟨x, hx⟩ := step_of_inv hs
    obtain ⟨t, ht⟩ := ih (stepKeepsInvariant s x hs hx)
    exact ⟨t, (steps_cons hx n).trans ht⟩

/-- A run of steps that is not in `Halted` was not there before. -/
theorem not_halted_of_steps_add {s t x : State} {m n : Nat} (hx : steps m s = .next x) (ht : steps (m + n) s = .next t)
    (hf : t.fsm ≠ .halted) : x.fsm ≠ .halted := by
  intro hx'
  rw [steps_add n hx, steps_halted hx'] at ht
  cases ht
  exact hf hx'

/-! ### The queue and the drain by steps (R121, R127) -/

/-- In the drain a step is an edge, so steps and edges run it alike. -/
theorem steps_eq_edges_drain {s : State} (hf : s.fsm = .draining 0) {k : Nat} (hk : k ≤ s.drainLength) :
    steps k s = edges k s := by
  induction k with
  | zero => rfl
  | succ k ih =>
    have hrun := edges_drained hf (k := k) (by omega)
    rw [edges_snoc hrun, steps_snoc ((ih (by omega)).trans hrun)]
    exact step_eq_edge Fsm.noConfusion

/-- One step for each queued word leads to the drain, the queue used up and each word counted. -/
theorem steps_queue {s : State} (hs : s.Inv) (hf : s.fsm = fsmAfterRetire s.queue) :
    ∃ t, steps s.queue.length s = .next t ∧ t.fsm = .draining 0 ∧ t.queue = [] ∧
      t.qidx = s.qidx + s.queue.length ∧ t.mem.size = s.mem.size := by
  generalize hq : s.queue = queue
  induction queue generalizing s with
  | nil => exact ⟨s, rfl, by rw [hf, hq, fsmAfterRetire_nil], hq, rfl, rfl⟩
  | cons w rest ih =>
    have hdec : s.fsm = .decoding := by rw [hf, hq, fsmAfterRetire_cons]
    obtain ⟨x, hx⟩ := step_of_inv hs
    have hrun := (step_eq_runHead hdec).symm.trans hx
    obtain ⟨hqueue, hqidx, hsize⟩ := runHead_next_queue hrun
    rw [hq, List.tail_cons] at hqueue
    obtain ⟨t, ht, hdrain, hempty, hcount, hsize'⟩ :=
      ih (stepKeepsInvariant s x hs hx) (runHead_next_retires hrun).1 hqueue
    refine ⟨t, (steps_cons hx _).trans ht, hdrain, hempty, ?_, hsize'.trans hsize⟩
    rw [hcount, hqidx, List.length_cons]
    omega

/-- From `Idle`, one step and one for each queued word lead to the drain (R105, R270). -/
theorem steps_to_drain {s : State} (hs : s.Inv) (hf : s.fsm = .idle) :
    ∃ t, steps (1 + s.queue.length) s = .next t ∧ t.fsm = .draining 0 ∧ t.queue = [] ∧
      t.qidx = s.qidx + s.queue.length ∧ t.mem.size = s.mem.size := by
  have hidle : step s = .next { s with fsm := fsmAfterRetire s.queue } :=
    (step_eq_edge (by simp [hf])).trans (edge_idle hf)
  obtain ⟨t, ht, hend⟩ := steps_queue (stepKeepsInvariant s _ hs hidle) rfl
  refine ⟨t, ?_, hend⟩
  rw [Nat.add_comm, steps_cons hidle]
  exact ht

/-- Settles O32: one step before the end the FSM is still draining, and `Halted` is never left. -/
theorem everyProgramHalts : Obligations.EveryProgramHalts := by
  intro s hs hf total
  obtain ⟨t, ht, hdrain, hempty, hcount, hsize⟩ := steps_to_drain hs hf
  have htotal : total = 1 + s.queue.length + t.drainLength := by rw [State.drainLength, memWords_eq_size, hsize]
  have hpos : 0 < t.drainLength := by omega
  refine ⟨⟨{ t with fsm := .halted, dump := t.dump ++ t.dumpPrefix t.drainLength }, ?_, rfl, hempty, hcount, hsize⟩,
    fun k hk => ?_⟩
  · rw [htotal, steps_add _ ht, steps_eq_edges_drain hdrain le_rfl, edges_drainLength hdrain]
  · obtain ⟨x, hx⟩ := steps_of_inv hs k
    have hbefore : steps (1 + s.queue.length + (t.drainLength - 1)) s = .next (t.drained (t.drainLength - 1)) := by
      rw [steps_add _ ht, steps_eq_edges_drain hdrain (by omega), edges_drained hdrain (by omega)]
    obtain ⟨n, hn⟩ : ∃ n, 1 + s.queue.length + (t.drainLength - 1) = k + n := Nat.exists_eq_add_of_le (by omega)
    rw [hn] at hbefore
    exact ⟨x, hx, not_halted_of_steps_add hx hbefore Fsm.noConfusion⟩

end Sys2Proof.Machine
end

section
/-! The stream loader's refusal (R235, R262): which lines it reads, and which of the others it names. -/

namespace Sys2Proof.Machine

theorem bitOfChar_isSome_iff (c : Char) : (bitOfChar c).isSome = true ↔ c = '0' ∨ c = '1' := by
  unfold bitOfChar
  split
  next h0 => simp [h0]
  next h0 =>
    split
    next h1 => simp [h1]
    next h1 => simp [h0, h1]

/-- A line has a value exactly when each of its characters is a binary digit (R70). -/
theorem bitsValue_isSome_iff (line : List Char) (acc : Nat) :
    (bitsValue line acc).isSome = true ↔ ∀ c ∈ line, c = '0' ∨ c = '1' := by
  induction line generalizing acc with
  | nil => simp [bitsValue]
  | cons c line ih =>
    rw [List.forall_mem_cons, ← bitOfChar_isSome_iff, bitsValue]
    cases bitOfChar c with
    | none => simp
    | some b => simp [ih]

/-- The well-formed lines are those of 32 characters, each 0 or 1 (R70, R262). -/
theorem wordOfLine_isSome_iff (line : List Char) :
    (wordOfLine line).isSome = true ↔ line.length = 32 ∧ ∀ c ∈ line, c = '0' ∨ c = '1' := by
  unfold wordOfLine
  split
  next hlen => rw [Option.isSome_map, bitsValue_isSome_iff, and_iff_right hlen]
  next hlen => simp [hlen]

/-- Numbered from `k` on, every line before the one named is read (R235; log entry 12). -/
theorem wordOfLine_isSome_before_malformed {lines : List (List Char)} {k m : Nat}
    (h : loadLines k lines = .malformed m) {j : Nat} {line : List Char} (hj : k + j < m)
    (hline : lines[j]? = some line) : (wordOfLine line).isSome = true := by
  induction lines generalizing k j with
  | nil => cases h
  | cons first rest ih =>
    cases hw : wordOfLine first with
    | none =>
      simp only [loadLines, hw, StreamVerdict.malformed.injEq] at h
      omega
    | some w =>
      cases j with
      | zero =>
        obtain rfl : first = line := by simpa using hline
        rw [hw, Option.isSome_some]
      | succ j =>
        have hrest : loadLines (k + 1) rest = .malformed m := by
          simp only [loadLines, hw] at h
          split at h
          next => cases h
          next i hi => rw [hi, h]
        exact ih (j := j) hrest (by omega) (by simpa using hline)

/-- Settles O58: a line that is read is well formed. -/
theorem firstFailingLineNamed : Obligations.FirstFailingLineNamed := fun _ _ h _ line hj hline =>
  (wordOfLine_isSome_iff line).1 (wordOfLine_isSome_before_malformed h (by omega) hline)

end Sys2Proof.Machine
end

section
/-! Which texts boot accepts (R235, R262, R263), and reset once the run has begun (R264). -/

namespace Sys2Proof.Machine

/-! ### How a text is split (R262) -/

/-- Lines that each end in a newline are the first lines of the text. -/
theorem splitLines_flatMap_append {lines : List (List Char)} (h : ∀ line ∈ lines, '\n' ∉ line) (rest : List Char) :
    splitLines ((lines.flatMap fun line => line ++ ['\n']) ++ rest) = lines ++ splitLines rest := by
  induction lines with
  | nil => rfl
  | cons line lines ih =>
    obtain ⟨hline, hlines⟩ := List.forall_mem_cons.1 h
    have htext : ((line :: lines).flatMap fun line => line ++ ['\n']) ++ rest =
        line ++ '\n' :: ((lines.flatMap fun line => line ++ ['\n']) ++ rest) := by simp
    rw [htext, splitLines_line_append hline, ih hlines, List.cons_append]

/-- What follows the last newline is one line, unless it is empty. -/
theorem splitLines_of_newline_not_mem {line : List Char} (h : '\n' ∉ line) (hne : line ≠ []) :
    splitLines line = [line] := by
  induction line with
  | nil => exact absurd rfl hne
  | cons c rest ih =>
    obtain ⟨hc, hrest⟩ := List.ne_and_not_mem_of_not_mem_cons h
    rw [splitLines, if_neg (Ne.symm hc)]
    cases rest with
    | nil => rfl
    | cons d more => rw [ih hrest (List.cons_ne_nil d more)]

/-! ### The well-formed lines are the lines of words (R70) -/

theorem bitOfChar_eq_some {c : Char} {b : Bool} (h : bitOfChar c = some b) : c = if b then '1' else '0' := by
  rcases (bitOfChar_isSome_iff c).1 (by rw [h]; rfl) with rfl | rfl
  · obtain rfl : false = b := Option.some_inj.1 h
    rfl
  · obtain rfl : true = b := Option.some_inj.1 h
    rfl

theorem bitsValue_cons_eq_some_iff {c : Char} {rest : List Char} {acc v : Nat} :
    bitsValue (c :: rest) acc = some v ↔ ∃ b, bitOfChar c = some b ∧ bitsValue rest (2 * acc + b.toNat) = some v := by
  rw [bitsValue]
  cases bitOfChar c <;> simp

/-- The bits already read stand above those of the line. -/
theorem div_of_bitsValue_eq_some {line : List Char} {acc v : Nat} (h : bitsValue line acc = some v) :
    v / 2 ^ line.length = acc := by
  induction line generalizing acc with
  | nil =>
    obtain rfl : acc = v := Option.some_inj.1 h
    exact Nat.div_one acc
  | cons c rest ih =>
    obtain ⟨b, -, hrest⟩ := bitsValue_cons_eq_some_iff.1 h
    have hb := b.toNat_lt
    rw [List.length_cons, Nat.pow_succ, ← Nat.div_div_eq_div_mul, ih hrest]
    omega

/-- Writing out the lowest bits of the value gives back the line it was read from. -/
theorem lineChars_of_bitsValue_eq_some {line : List Char} {acc v : Nat} (h : bitsValue line acc = some v)
    (hlen : line.length ≤ 32) : lineChars (BitVec.ofNat 32 v) line.length = line := by
  induction line generalizing acc with
  | nil => rfl
  | cons c rest ih =>
    obtain ⟨b, hc, hrest⟩ := bitsValue_cons_eq_some_iff.1 h
    rw [List.length_cons] at hlen ⊢
    have hlt : rest.length < 32 := by omega
    have hbit : (BitVec.ofNat 32 v).getLsbD rest.length = b := by
      rw [BitVec.getLsbD_ofNat, Nat.testBit_eq_decide_div_mod_eq, div_of_bitsValue_eq_some hrest]
      cases b <;> simp [hlt]
    rw [lineChars, hbit, ← bitOfChar_eq_some hc, ih hrest hlt.le]

theorem lineOfWord_of_wordOfLine {line : List Char} {w : IWord} (h : wordOfLine line = some w) :
    lineOfWord w = line := by
  rw [wordOfLine, Option.ite_none_right_eq_some, Option.map_eq_some_iff] at h
  obtain ⟨hlen, v, hv, rfl⟩ := h
  have hline := lineChars_of_bitsValue_eq_some hv hlen.le
  rwa [hlen] at hline

theorem wordOfLine_eq_some_iff {line : List Char} {w : IWord} : wordOfLine line = some w ↔ lineOfWord w = line :=
  ⟨lineOfWord_of_wordOfLine, fun h => h ▸ wordOfLine_lineOfWord w⟩

/-- A line is a word's exactly when it is 32 characters, each 0 or 1. -/
theorem mem_range_lineOfWord_iff (line : List Char) :
    line ∈ Set.range lineOfWord ↔ line.length = 32 ∧ ∀ c ∈ line, c = '0' ∨ c = '1' := by
  rw [← wordOfLine_isSome_iff, Option.isSome_iff_exists]
  simp only [Set.mem_range, wordOfLine_eq_some_iff]

/-! ### The verdict on the lines (R235) -/

theorem loadLines_cons_eq_program_iff {k : Nat} {line : List Char} {rest : List (List Char)} {ws : List IWord} :
    loadLines k (line :: rest) = .program ws ↔
      ∃ w more, wordOfLine line = some w ∧ loadLines (k + 1) rest = .program more ∧ w :: more = ws := by
  rw [loadLines]
  cases wordOfLine line with
  | none => simp
  | some w => cases loadLines (k + 1) rest <;> simp

theorem loadLines_cons_eq_malformed_iff {k m : Nat} {line : List Char} {rest : List (List Char)} :
    loadLines k (line :: rest) = .malformed m ↔
      (wordOfLine line = none ∧ k = m) ∨ ((wordOfLine line).isSome = true ∧ loadLines (k + 1) rest = .malformed m) := by
  rw [loadLines]
  cases wordOfLine line with
  | none => simp
  | some w => cases loadLines (k + 1) rest <;> simp

/-- The lines are accepted as a program exactly when they are the lines of its words, in order. -/
theorem loadLines_eq_program_iff {k : Nat} {lines : List (List Char)} {ws : List IWord} :
    loadLines k lines = .program ws ↔ lines = ws.map lineOfWord := by
  refine ⟨fun h => ?_, fun h => h ▸ loadLines_map_lineOfWord k ws⟩
  induction lines generalizing k ws with
  | nil =>
    obtain rfl : [] = ws := StreamVerdict.program.inj h
    rfl
  | cons line rest ih =>
    obtain ⟨w, more, hw, hrest, rfl⟩ := loadLines_cons_eq_program_iff.1 h
    rw [List.map_cons, lineOfWord_of_wordOfLine hw, ih hrest]

/-- Numbered from `k` on, the line a refusal names stands for no word. -/
theorem wordOfLine_eq_none_of_malformed {k m : Nat} {lines : List (List Char)}
    (h : loadLines k lines = .malformed m) : ∃ j line, k + j = m ∧ lines[j]? = some line ∧ wordOfLine line = none := by
  induction lines generalizing k with
  | nil => cases h
  | cons line rest ih =>
    rcases loadLines_cons_eq_malformed_iff.1 h with ⟨hline, hk⟩ | ⟨-, hrest⟩
    · exact ⟨0, line, hk, rfl, hline⟩
    · obtain ⟨j, failing, hj, hget, hnone⟩ := ih hrest
      exact ⟨j + 1, failing, by omega, hget, hnone⟩

/-! ### Boot (R235, R262, R263) -/

theorem boot_eq_ready_iff {n : Nat} {f : Nat → Word} {text : List Char} {s : State} :
    boot n f text = .ready s ↔ ∃ ws, splitLines text = ws.map lineOfWord ∧ s = State.resetWith n f ws := by
  simp only [← loadLines_eq_program_iff (k := 0), boot, loadStream]
  cases loadLines 0 (splitLines text) <;> simp [eq_comm]

theorem boot_eq_malformed_iff {n k : Nat} {f : Nat → Word} {text : List Char} {kind : ErrorKind} :
    boot n f text = .malformed kind k ↔ kind = .malformedInstruction ∧ loadStream text = .malformed k := by
  rw [boot]
  cases loadStream text <;> simp [eq_comm]

/-- Boot makes a state exactly of the texts whose lines are all well formed. -/
theorem exists_boot_eq_ready_iff (n : Nat) (f : Nat → Word) (text : List Char) :
    (∃ s, boot n f text = .ready s) ↔
      ∀ line ∈ splitLines text, line.length = 32 ∧ ∀ c ∈ line, c = '0' ∨ c = '1' := by
  have hlines : splitLines text ∈ Set.range (List.map lineOfWord) ↔
      ∀ line ∈ splitLines text, line ∈ Set.range lineOfWord := by
    rw [Set.range_list_map, Set.mem_ofPred_eq]
  simp only [← mem_range_lineOfWord_iff, ← hlines, boot_eq_ready_iff]
  constructor
  · rintro ⟨-, ws, hws, -⟩
    exact ⟨ws, hws.symm⟩
  · rintro ⟨ws, hws⟩
    exact ⟨_, ws, hws.symm, rfl⟩

/-- A refusal is `MalformedInstruction` with the index of a line that is not well formed. -/
theorem malformed_line_of_boot {n k : Nat} {f : Nat → Word} {text : List Char} {kind : ErrorKind}
    (h : boot n f text = .malformed kind k) :
    kind.code = 1 ∧
      ∃ line, (splitLines text)[k]? = some line ∧ ¬(line.length = 32 ∧ ∀ c ∈ line, c = '0' ∨ c = '1') := by
  obtain ⟨rfl, hload⟩ := boot_eq_malformed_iff.1 h
  obtain ⟨j, line, hj, hget, hnone⟩ := wordOfLine_eq_none_of_malformed hload
  rw [Nat.zero_add] at hj
  refine ⟨rfl, line, hj ▸ hget, ?_⟩
  rw [← wordOfLine_isSome_iff, hnone]
  exact Bool.false_ne_true

/-- Settles O57: the well-formed lines are the lines of words, and the loader accepts just these. -/
theorem malformedTextRefused : Obligations.MalformedTextRefused := by
  refine ⟨fun lines h => ⟨?_, fun last hlast hne => ?_⟩, fun text n f =>
    ⟨exists_boot_eq_ready_iff n f text, fun s hs => ?_, fun _ _ => malformed_line_of_boot⟩⟩
  · simpa [splitLines] using splitLines_flatMap_append h []
  · rw [splitLines_flatMap_append h, splitLines_of_newline_not_mem hlast hne]
  · obtain ⟨ws, hlines, hreset⟩ := boot_eq_ready_iff.1 hs
    exact ⟨ws, hreset, hlines⟩

/-! ### Reset after edge 1 (R264) -/

theorem clockEdge_reset (s : State) : clockEdge true s = .refused .resetDuringRun := rfl

theorem clockEdge_run (s : State) : clockEdge false s = edge s := rfl

/-- Settles O23: the two values of `rst` at a clock edge. -/
theorem lateResetRefused : Obligations.LateResetRefused := fun s => ⟨clockEdge_reset s, clockEdge_run s⟩

end Sys2Proof.Machine
end

section
/-! The parameters `State.reset` takes for those the spec leaves OPEN (00_scope R7), and the spec's example words
(30_encoding section 9, 95 section 2.1) through the laws of the decoder. -/

namespace Sys2Proof

/-- Settles O2: `Config` has N = 16 (log entry 2), zeros (log entry 3) and no program (log entry 4). -/
theorem defaultResetParameters : Obligations.DefaultResetParameters := by
  have hwords : Config.memWords = 16 := rfl
  have hinit : Config.memInit = fun _ => 0 := rfl
  have hprog : Config.program = [] := rfl
  rw [Obligations.DefaultResetParameters, Machine.State.reset, hwords, hinit, hprog]

/-- A word that encodes an instruction with its addresses in range decodes to it (R86, R87). -/
theorem verdict_of_eq_encode {n : Nat} {w : IWord} {i : Instr} (hw : w = encode i) (hwf : i.wellFormed n = true) :
    verdict n w = .ok i :=
  hw ▸ decodeOfEncode n i hwf

/-- A word that encodes an instruction with an address out of range reports the first such address (R87, R237). -/
theorem verdict_of_eq_encode_of_outOfRange {n : Nat} {w : IWord} {i : Instr} {f : Field} {a : MemAddr}
    (hw : w = encode i) (h : firstOutOfRange n i.addrFields = some (f, a)) : verdict n w = .addressOutOfRange f a :=
  hw ▸ (verdict_eq_outOfRange n (encode i) f a).2 ⟨i, decodeFields_encode i, h⟩

/-- Settles O7: each of the eight accepted words is the encoding of its instruction, filler bits 0; the ninth has
the sub-opcode 15, which selects no operation (R85); the last is `rotm 255 255 255`, whose first address fails the range check. -/
theorem exampleWordsDecode : Obligations.ExampleWordsDecode := by
  refine ⟨?wmem, ?wreg, ?add, ?rotm, ?rotr, ?r2m, ?m2r, ?clr, ?unrecognized, ?outOfRange⟩
  case unrecognized => exact (verdict_eq_unrecognized_iff_codes 16 _ 15).2 (by decide)
  case outOfRange =>
    have hw : 0x7FFFFFE0#32 = encode (.rotm 255 255 255) := by decide
    exact verdict_of_eq_encode_of_outOfRange hw (firstOutOfRange_cons_of_le (by decide) ..)
  all_goals exact verdict_of_eq_encode (by decide) (by decide)

end Sys2Proof
end
